-- ==== Sys2Proof/Word.lean ====
section
/-! DEFINITION. Word.lean: the widths the spec fixes (00_scope.md R5, 10_state.md R10 to R13), as plain synonyms. -/

namespace Sys2Proof

/-- One 8-bit byte: the unit of a String (10_state.md R12) and the width of a register field (30_encoding.md R63). -/
abbrev Byte := BitVec 8

/-- The payload of a String Value: a finite byte sequence, possibly empty (10_state.md R12). -/
abbrev Str := List Byte

/-- The bit pattern of an IEEE-754 binary64 (00_scope.md section 5.1): bit 63 sign, 62:52 exponent, 51:0 fraction. -/
abbrev F64 := BitVec 64

/-- A 32-bit operand: a pool index, variable index, Closure target or jump offset (30_encoding.md R61). -/
abbrev U32 := BitVec 32

/-- One 64-bit instruction word (30_encoding.md R63). -/
abbrev Word := BitVec 64

/-- The number of registers, `NREG` of 00_scope.md section 4. -/
abbrev numRegs : Nat := 256

end Sys2Proof
end

