-- ==== Sys2Proof/Syntax.lean ====
section
/-! DEFINITION. Syntax.lean: the abstract instruction (30_encoding.md R60 to R62), one constructor per row of
spec/opcode_table.json, in the table's order. -/

namespace Sys2Proof

/-- An abstract instruction (00_scope.md R3). Register operands are natural numbers, because the abstract form can
carry an index above 255 (10_state.md R18); every other operand has its documented width by its type (R61). A jump
offset is 32 bits read as two's complement (R65). -/
inductive Instr
  | loadConst (dst : Nat) (k : U32)
  | loadUndef (dst : Nat)
  | loadNull (dst : Nat)
  | loadBool (dst : Nat) (b : Bool)
  | move (dst src : Nat)
  | add (dst a b : Nat)
  | sub (dst a b : Nat)
  | mul (dst a b : Nat)
  | div (dst a b : Nat)
  | mod (dst a b : Nat)
  | pow (dst a b : Nat)
  | neg (dst src : Nat)
  | eq (a b : Nat)
  | lt (a b : Nat)
  | le (a b : Nat)
  | jmp (off : U32)
  | jmpIf (cond : Nat) (off : U32)
  | call (func : Nat) (argc : Byte)
  | ret (start : Nat) (count : Byte)
  | newObject (dst : Nat)
  | newArray (dst : Nat)
  | getProp (dst obj key : Nat)
  | setProp (obj key val : Nat)
  | getElem (dst arr idx : Nat)
  | setElem (arr idx val : Nat)
  | closure (dst : Nat) (target : U32)
  | getScope (dst : Nat) (var : U32)
  | setScope (var : U32) (src : Nat)
  | typeOf (dst src : Nat)
  | instanceOf (dst obj ctor : Nat)
  | declareFunc (dst : Nat)
  | declareVar (var : U32)
  | useStrict
deriving DecidableEq, Repr

/-- The mnemonic of R62, letter for letter. -/
def Instr.mnemonic : Instr → String
  | .loadConst _ _ => "LoadConst"
  | .loadUndef _ => "LoadUndef"
  | .loadNull _ => "LoadNull"
  | .loadBool _ _ => "LoadBool"
  | .move _ _ => "Move"
  | .add _ _ _ => "Add"
  | .sub _ _ _ => "Sub"
  | .mul _ _ _ => "Mul"
  | .div _ _ _ => "Div"
  | .mod _ _ _ => "Mod"
  | .pow _ _ _ => "Pow"
  | .neg _ _ => "Neg"
  | .eq _ _ => "Eq"
  | .lt _ _ => "Lt"
  | .le _ _ => "Le"
  | .jmp _ => "Jmp"
  | .jmpIf _ _ => "JmpIf"
  | .call _ _ => "Call"
  | .ret _ _ => "Return"
  | .newObject _ => "NewObject"
  | .newArray _ => "NewArray"
  | .getProp _ _ _ => "GetProp"
  | .setProp _ _ _ => "SetProp"
  | .getElem _ _ _ => "GetElem"
  | .setElem _ _ _ => "SetElem"
  | .closure _ _ => "Closure"
  | .getScope _ _ => "GetScope"
  | .setScope _ _ => "SetScope"
  | .typeOf _ _ => "TypeOf"
  | .instanceOf _ _ _ => "InstanceOf"
  | .declareFunc _ => "DeclareFunc"
  | .declareVar _ => "DeclareVar"
  | .useStrict => "UseStrict"

end Sys2Proof
end

