-- ==== Sys2Proof/Decode.lean ====
section
/-! DEFINITION. Decode.lean: the decoder of 30_encoding.md R63 to R69, the encoder beside it, the opcode table and
the assembly text of R71. -/

namespace Sys2Proof

/-- Why a word is illegal (30_encoding.md R68): its opcode is not assigned (R66), or a reserved field is not zero
(R67). Either way the fetch raises `IllegalInstruction`. -/
inductive Illegal
  | unassignedOpcode (op : Byte)
  | reservedFieldNonzero (op : Byte)
deriving DecidableEq, Repr

/-- `OP = word[63:56]` (R63). -/
def fieldOp (w : Word) : Byte := w.extractLsb' 56 8

/-- `A = word[55:48]` (R63). -/
def fieldA (w : Word) : Byte := w.extractLsb' 48 8

/-- `B = word[47:40]` (R63). -/
def fieldB (w : Word) : Byte := w.extractLsb' 40 8

/-- `C = word[39:32]` (R63). -/
def fieldC (w : Word) : Byte := w.extractLsb' 32 8

/-- `IMM = word[31:0]` (R63). -/
def fieldImm (w : Word) : U32 := w.extractLsb' 0 32

/-- The instruction of a word whose reserved fields are zero, illegal otherwise (R67). -/
def ifReservedZero (w : Word) (reservedZero : Bool) (i : Instr) : Except Illegal Instr :=
  if reservedZero then .ok i else .error (.reservedFieldNonzero (fieldOp w))

/-- The decoder (R69), by opcode; the reserved fields of each opcode are the `0` columns of R65's table, and for
`LoadBool` also `B[7:1]` (R67). -/
def decode (w : Word) : Except Illegal Instr :=
  let a := (fieldA w).toNat
  let b := (fieldB w).toNat
  let c := (fieldC w).toNat
  let imm := fieldImm w
  let a0 := fieldA w == 0
  let b0 := fieldB w == 0
  let c0 := fieldC w == 0
  let imm0 := imm == 0
  let fa := b0 && c0 && imm0
  let fab := c0 && imm0
  let fai := b0 && c0
  let fi := a0 && b0 && c0
  match (fieldOp w).toNat with
  | 0x01 => ifReservedZero w fai (.loadConst a imm)
  | 0x02 => ifReservedZero w fa (.loadUndef a)
  | 0x03 => ifReservedZero w fa (.loadNull a)
  | 0x04 => ifReservedZero w (decide (b ≤ 1) && fab) (.loadBool a (b == 1))
  | 0x05 => ifReservedZero w fab (.move a b)
  | 0x06 => ifReservedZero w imm0 (.add a b c)
  | 0x07 => ifReservedZero w imm0 (.sub a b c)
  | 0x08 => ifReservedZero w imm0 (.mul a b c)
  | 0x09 => ifReservedZero w imm0 (.div a b c)
  | 0x0A => ifReservedZero w imm0 (.mod a b c)
  | 0x0B => ifReservedZero w imm0 (.pow a b c)
  | 0x0C => ifReservedZero w fab (.neg a b)
  | 0x0D => ifReservedZero w fab (.eq a b)
  | 0x0E => ifReservedZero w fab (.lt a b)
  | 0x0F => ifReservedZero w fab (.le a b)
  | 0x10 => ifReservedZero w fi (.jmp imm)
  | 0x11 => ifReservedZero w fai (.jmpIf a imm)
  | 0x12 => ifReservedZero w fab (.call a (fieldB w))
  | 0x13 => ifReservedZero w fab (.ret a (fieldB w))
  | 0x14 => ifReservedZero w fa (.newObject a)
  | 0x15 => ifReservedZero w fa (.newArray a)
  | 0x16 => ifReservedZero w imm0 (.getProp a b c)
  | 0x17 => ifReservedZero w imm0 (.setProp a b c)
  | 0x18 => ifReservedZero w imm0 (.getElem a b c)
  | 0x19 => ifReservedZero w imm0 (.setElem a b c)
  | 0x1A => ifReservedZero w fai (.closure a imm)
  | 0x1B => ifReservedZero w fai (.getScope a imm)
  | 0x1C => ifReservedZero w fai (.setScope imm a)
  | 0x1D => ifReservedZero w fab (.typeOf a b)
  | 0x1E => ifReservedZero w imm0 (.instanceOf a b c)
  | 0x1F => ifReservedZero w fa (.declareFunc a)
  | 0x20 => ifReservedZero w fi (.declareVar imm)
  | 0x21 => ifReservedZero w (a0 && fa) .useStrict
  | _ => .error (.unassignedOpcode (fieldOp w))

/-- A word from its five fields (R63). -/
def assemble (op a b c : Byte) (imm : U32) : Word := op ++ a ++ b ++ c ++ imm

/-- A register field (R65); an index above 255 does not fit and is cut to 8 bits (the encoder is meant for
well-formed instructions). -/
def regField (r : Nat) : Byte := BitVec.ofNat 8 r

/-- The encoder (R65, R69): the table under R65, row by row. -/
def encode : Instr → Word
  | .loadConst dst k => assemble 0x01 (regField dst) 0 0 k
  | .loadUndef dst => assemble 0x02 (regField dst) 0 0 0
  | .loadNull dst => assemble 0x03 (regField dst) 0 0 0
  | .loadBool dst b => assemble 0x04 (regField dst) (if b then 1 else 0) 0 0
  | .move dst src => assemble 0x05 (regField dst) (regField src) 0 0
  | .add dst a b => assemble 0x06 (regField dst) (regField a) (regField b) 0
  | .sub dst a b => assemble 0x07 (regField dst) (regField a) (regField b) 0
  | .mul dst a b => assemble 0x08 (regField dst) (regField a) (regField b) 0
  | .div dst a b => assemble 0x09 (regField dst) (regField a) (regField b) 0
  | .mod dst a b => assemble 0x0A (regField dst) (regField a) (regField b) 0
  | .pow dst a b => assemble 0x0B (regField dst) (regField a) (regField b) 0
  | .neg dst src => assemble 0x0C (regField dst) (regField src) 0 0
  | .eq a b => assemble 0x0D (regField a) (regField b) 0 0
  | .lt a b => assemble 0x0E (regField a) (regField b) 0 0
  | .le a b => assemble 0x0F (regField a) (regField b) 0 0
  | .jmp off => assemble 0x10 0 0 0 off
  | .jmpIf cond off => assemble 0x11 (regField cond) 0 0 off
  | .call func argc => assemble 0x12 (regField func) argc 0 0
  | .ret start count => assemble 0x13 (regField start) count 0 0
  | .newObject dst => assemble 0x14 (regField dst) 0 0 0
  | .newArray dst => assemble 0x15 (regField dst) 0 0 0
  | .getProp dst obj key => assemble 0x16 (regField dst) (regField obj) (regField key) 0
  | .setProp obj key val => assemble 0x17 (regField obj) (regField key) (regField val) 0
  | .getElem dst arr idx => assemble 0x18 (regField dst) (regField arr) (regField idx) 0
  | .setElem arr idx val => assemble 0x19 (regField arr) (regField idx) (regField val) 0
  | .closure dst target => assemble 0x1A (regField dst) 0 0 target
  | .getScope dst var => assemble 0x1B (regField dst) 0 0 var
  | .setScope var src => assemble 0x1C (regField src) 0 0 var
  | .typeOf dst src => assemble 0x1D (regField dst) (regField src) 0 0
  | .instanceOf dst obj ctor => assemble 0x1E (regField dst) (regField obj) (regField ctor) 0
  | .declareFunc dst => assemble 0x1F (regField dst) 0 0 0
  | .declareVar var => assemble 0x20 0 0 0 var
  | .useStrict => assemble 0x21 0 0 0 0

/-- The word whose numbered bits the opcode table gives: `nbits` of them, every bit above zero. One word is one
element of the program store, so no byte order enters (20_memory.md R54). -/
def tableWord (nbits w : Nat) : Word := BitVec.ofNat 64 (w % 2 ^ nbits)

/-- The instruction the decoder reads from the table's bits, none where the word is illegal. -/
def decodeTableWord (nbits w : Nat) : Option Instr :=
  match decode (tableWord nbits w) with
  | .ok i => some i
  | .error _ => none

/-- One row of spec/opcode_table.json: word `w` is the instruction exactly when `w AND mask = pattern` (R66). -/
structure OpcodeRow where
  mnemonic : String
  pattern : Word
  mask : Word
deriving DecidableEq, Repr

/-- The opcode table of spec/opcode_table.json, in its order (R66). -/
def opcodeTable : List OpcodeRow := [
  ⟨"LoadConst", 0x0100000000000000, 0xFF00FFFF00000000⟩,
  ⟨"LoadUndef", 0x0200000000000000, 0xFF00FFFFFFFFFFFF⟩,
  ⟨"LoadNull", 0x0300000000000000, 0xFF00FFFFFFFFFFFF⟩,
  ⟨"LoadBool", 0x0400000000000000, 0xFF00FEFFFFFFFFFF⟩,
  ⟨"Move", 0x0500000000000000, 0xFF0000FFFFFFFFFF⟩,
  ⟨"Add", 0x0600000000000000, 0xFF000000FFFFFFFF⟩,
  ⟨"Sub", 0x0700000000000000, 0xFF000000FFFFFFFF⟩,
  ⟨"Mul", 0x0800000000000000, 0xFF000000FFFFFFFF⟩,
  ⟨"Div", 0x0900000000000000, 0xFF000000FFFFFFFF⟩,
  ⟨"Mod", 0x0A00000000000000, 0xFF000000FFFFFFFF⟩,
  ⟨"Pow", 0x0B00000000000000, 0xFF000000FFFFFFFF⟩,
  ⟨"Neg", 0x0C00000000000000, 0xFF0000FFFFFFFFFF⟩,
  ⟨"Eq", 0x0D00000000000000, 0xFF0000FFFFFFFFFF⟩,
  ⟨"Lt", 0x0E00000000000000, 0xFF0000FFFFFFFFFF⟩,
  ⟨"Le", 0x0F00000000000000, 0xFF0000FFFFFFFFFF⟩,
  ⟨"Jmp", 0x1000000000000000, 0xFFFFFFFF00000000⟩,
  ⟨"JmpIf", 0x1100000000000000, 0xFF00FFFF00000000⟩,
  ⟨"Call", 0x1200000000000000, 0xFF0000FFFFFFFFFF⟩,
  ⟨"Return", 0x1300000000000000, 0xFF0000FFFFFFFFFF⟩,
  ⟨"NewObject", 0x1400000000000000, 0xFF00FFFFFFFFFFFF⟩,
  ⟨"NewArray", 0x1500000000000000, 0xFF00FFFFFFFFFFFF⟩,
  ⟨"GetProp", 0x1600000000000000, 0xFF000000FFFFFFFF⟩,
  ⟨"SetProp", 0x1700000000000000, 0xFF000000FFFFFFFF⟩,
  ⟨"GetElem", 0x1800000000000000, 0xFF000000FFFFFFFF⟩,
  ⟨"SetElem", 0x1900000000000000, 0xFF000000FFFFFFFF⟩,
  ⟨"Closure", 0x1A00000000000000, 0xFF00FFFF00000000⟩,
  ⟨"GetScope", 0x1B00000000000000, 0xFF00FFFF00000000⟩,
  ⟨"SetScope", 0x1C00000000000000, 0xFF00FFFF00000000⟩,
  ⟨"TypeOf", 0x1D00000000000000, 0xFF0000FFFFFFFFFF⟩,
  ⟨"InstanceOf", 0x1E00000000000000, 0xFF000000FFFFFFFF⟩,
  ⟨"DeclareFunc", 0x1F00000000000000, 0xFF00FFFFFFFFFFFF⟩,
  ⟨"DeclareVar", 0x2000000000000000, 0xFFFFFFFF00000000⟩,
  ⟨"UseStrict", 0x2100000000000000, 0xFFFFFFFFFFFFFFFF⟩]

/-- A register operand in assembly text (R71): `rN`. -/
def asmReg (r : Nat) : String := "r" ++ toString r

/-- An index or count in assembly text (R71): `#n`. -/
def asmIndex (n : Nat) : String := "#" ++ toString n

/-- A jump offset in assembly text (R71): `#+n` or `#-n`. -/
def asmOffset (off : U32) : String :=
  if off.toInt < 0 then "#-" ++ toString off.toInt.natAbs else "#+" ++ toString off.toInt.natAbs

/-- The operands of an instruction in assembly text, in the order of R62. -/
def Instr.asmOperands : Instr → List String
  | .loadConst dst k => [asmReg dst, asmIndex k.toNat]
  | .loadBool dst b => [asmReg dst, if b then "true" else "false"]
  | .jmp off => [asmOffset off]
  | .jmpIf cond off => [asmReg cond, asmOffset off]
  | .call func argc => [asmReg func, asmIndex argc.toNat]
  | .ret start count => [asmReg start, asmIndex count.toNat]
  | .closure dst target => [asmReg dst, asmIndex target.toNat]
  | .getScope dst var => [asmReg dst, asmIndex var.toNat]
  | .setScope var src => [asmIndex var.toNat, asmReg src]
  | .declareVar var => [asmIndex var.toNat]
  | .loadUndef dst | .loadNull dst | .newObject dst | .newArray dst | .declareFunc dst => [asmReg dst]
  | .move a b | .neg a b | .typeOf a b | .eq a b | .lt a b | .le a b => [asmReg a, asmReg b]
  | .add a b c | .sub a b c | .mul a b c | .div a b c | .mod a b c | .pow a b c => [asmReg a, asmReg b, asmReg c]
  | .getProp a b c | .setProp a b c | .getElem a b c | .setElem a b c => [asmReg a, asmReg b, asmReg c]
  | .instanceOf a b c => [asmReg a, asmReg b, asmReg c]
  | .useStrict => []

/-- One line of assembly text without label or comment (R71). -/
def Instr.asm (i : Instr) : String :=
  match i.asmOperands with
  | [] => i.mnemonic
  | ops => i.mnemonic ++ " " ++ ", ".intercalate ops

end Sys2Proof
end

