-- ==== Sys2Proof/Config.lean ====
section
/-! DEFINITION. Config.lean: the parameters the spec leaves OPEN (00_scope.md section 4, R7; 92_eei_decisions.md).
Those that are plain data (a choice, a capacity) are a structure that the construction latches into the state; those
that are functions the spec does not fix are opaque constants: nothing in Lean can evaluate them, so a claim proved
of the model holds for every value of them. -/

namespace Sys2Proof

/-- `GETSCOPE_MISS` (45_scope_func.md R156, D18): what `GetScope` does when the key is absent. -/
inductive GetScopeMiss
  | fault
  | undefined
deriving DecidableEq, Repr

/-- `NAN_ORDER` (42_compare.md R116, D14): what `Lt` and `Le` do when a Number operand is a NaN. -/
inductive NanOrder
  | ieeeFalse
  | fatal
deriving DecidableEq, Repr

/-- `SCOPE_KEY` (45_scope_func.md R161, D17): the spec's default (decimal ASCII numerals), or the one injective
function that an implementation has in its place, which is left free (`Config.implementationKeys`). -/
inductive ScopeKeyChoice
  | decimal
  | implementation
deriving DecidableEq, Repr

/-- The OPEN parameters that are plain data, latched at construction (00_scope.md section 4). A capacity of `none`
is the spec's "infinite" (20_memory.md R59, D21). -/
structure Config where
  getScopeMiss : GetScopeMiss
  nanOrder : NanOrder
  scopeKeys : ScopeKeyChoice
  maxCallDepth : Option Nat
  maxHeapCells : Option Nat
  maxArrayLen : Nat
  maxScopeEntries : Option Nat
  maxObjectKeys : Option Nat
  maxStringBytes : Option Nat
deriving DecidableEq, Repr

/-- DESIGN CHOICE (log entry 2): the spec's own defaults: `GETSCOPE_MISS = fault`, `NAN_ORDER = ieee_false`,
`SCOPE_KEY` decimal, `MAX_ARRAY_LEN = 2^32` (00_scope.md section 4), every other capacity infinite (the conventions of
95_test_vectors.md). Only `State.reset` uses them; statements quantify over the configuration. -/
def Config.defaults : Config where
  getScopeMiss := .fault
  nanOrder := .ieeeFalse
  scopeKeys := .decimal
  maxCallDepth := none
  maxHeapCells := none
  maxArrayLen := 2 ^ 32
  maxScopeEntries := none
  maxObjectKeys := none
  maxStringBytes := none

/-- The values the spec calls legal (20_memory.md R59): `MAX_ARRAY_LEN <= 2^53` and `MAX_STRING_BYTES >= 9`. -/
abbrev Config.legal (c : Config) : Prop :=
  c.maxArrayLen ≤ 2 ^ 53 ∧ ∀ m ∈ c.maxStringBytes, 9 ≤ m

/-- Keys of different lengths differ: the witness that a legal `SCOPE_KEY` exists, and nothing more. -/
theorem unaryKey_injective :
    Function.Injective (fun i : U32 => List.replicate i.toNat (0 : Byte)) := by
  intro i j h
  have hlen := congrArg List.length h
  simp only [List.length_replicate] at hlen
  exact BitVec.eq_of_toNat_eq hlen

/-- A legal `SCOPE_KEY` (45_scope_func.md R161): any injective function from indices to Strings. The defaults of the
two fields only show that the type is inhabited; `Config.implementationKeys` is not known to be them. -/
structure ScopeKeying where
  key : U32 → Str := fun i => List.replicate i.toNat 0
  key_injective : Function.Injective key := by exact unaryKey_injective
deriving Inhabited

/-- The free `SCOPE_KEY` of an implementation (R161: "required to be injective", the rest open). -/
opaque Config.implementationKeys : ScopeKeying

/-- `NAN_GEN` (41_arithmetic.md R91, D15): the free bits of the n-th NaN that arithmetic produces. -/
opaque Config.nanGen : Nat → F64

/-- `POW` (41_arithmetic.md R101, last row, D15): the free bits of the approximation of `x^y`, a function of the two
operands alone. -/
opaque Config.powApprox : F64 → F64 → F64

/-- What a Value's hash reads beside the tag code (42_compare.md R111, `key(v)`). -/
inductive HashKey
  | none
  | boolean (b : Bool)
  | bits (f : F64)
  | bytes (s : Str)
  | handle (h : Nat)
  | index (n : U32)
deriving DecidableEq, Repr

/-- `HASH` (42_compare.md R111, D28): the free function `H` of a tag code and a key. -/
opaque Config.hashOf : BitVec 3 → HashKey → Nat

end Sys2Proof
end

