-- ==== Sys2Proof/Machine/Float.lean ====
section
/-! DEFINITION. Machine/Float.lean: IEEE-754 binary64 (41_arithmetic.md R90, R91, R99 to R101). A finite Number is an
integer count of units of 2^-1074 (`fUnits`), so every exact result is a quotient of two integers, rounded once. -/

namespace Sys2Proof.Machine

/-- The result of an arithmetic operation: a definite binary64, or "a NaN" whose bits are a draw (41_arithmetic.md R91). -/
inductive FloatResult
  | num (f : F64)
  | nan
deriving DecidableEq, Repr

/-- The sign bit, bit 63. -/
def fSign (f : F64) : Bool := f.msb

/-- The biased exponent, bits 62:52. -/
def fBiased (f : F64) : Nat := f.toNat / 2 ^ 52 % 2 ^ 11

/-- The fraction, bits 51:0. -/
def fFraction (f : F64) : Nat := f.toNat % 2 ^ 52

/-- A NaN: exponent all ones, fraction not zero. -/
def fIsNaN (f : F64) : Bool := fBiased f == 2047 && fFraction f != 0

/-- An infinity: exponent all ones, fraction zero. -/
def fIsInf (f : F64) : Bool := fBiased f == 2047 && fFraction f == 0

/-- Neither a NaN nor an infinity. -/
def fIsFinite (f : F64) : Bool := fBiased f != 2047

/-- `+0` or `-0`. -/
def fIsZero (f : F64) : Bool := fBiased f == 0 && fFraction f == 0

/-- The magnitude of a finite binary64 in units of 2^-1074 (subnormals have exponent field 0 and no hidden bit). -/
def fMagnitude (f : F64) : Nat :=
  (if fBiased f = 0 then fFraction f else fFraction f + 2 ^ 52) * 2 ^ (fBiased f - 1)

/-- The exact value of a finite binary64 in units of 2^-1074. -/
def fUnits (f : F64) : Int := if fSign f then -(fMagnitude f : Int) else fMagnitude f

/-- How many units make 1. -/
def unitsPerOne : Nat := 2 ^ 1074

/-- The bit pattern of `+Inf`. -/
def infBits : Nat := 0x7FF0000000000000

/-- A bit pattern from its sign and its lower 63 bits. -/
def withSign (neg : Bool) (low : Nat) : F64 := BitVec.ofNat 64 ((if neg then 2 ^ 63 else 0) + low)

/-- An infinity of a given sign. -/
def infOf (neg : Bool) : F64 := withSign neg infBits

/-- A zero of a given sign. -/
def zeroOf (neg : Bool) : F64 := withSign neg 0

/-- The bit pattern of `1.0`. -/
def fOne : F64 := 0x3FF0000000000000

/-- The bit pattern of `-1.0`. -/
def fMinusOne : F64 := 0xBFF0000000000000

/-- The integer nearest to `n / d`, ties to even. -/
def divTiesToEven (n d : Nat) : Nat :=
  let q := n / d
  let r := n % d
  if 2 * r < d then q else if d < 2 * r then q + 1 else q + q % 2

/-- The exact magnitude `n / d` (in units of 2^-1074) rounded once to binary64, roundTiesToEven, with gradual underflow and
overflow to infinity (41_arithmetic.md R90). The result's spacing is `2^e` units, where `e` is 0 for subnormals and for
the lowest normal exponent. -/
def roundUnits (neg : Bool) (n d : Nat) : F64 :=
  let e := (n / d).log2 - 52
  withSign neg (min (e * 2 ^ 52 + divTiesToEven n (d * 2 ^ e)) infBits)

/-- `fadd` (41_arithmetic.md R90, R93). -/
def fadd (x y : F64) : FloatResult :=
  if fIsNaN x || fIsNaN y then .nan
  else if fIsInf x then (if fIsInf y && fSign x != fSign y then .nan else .num x)
  else if fIsInf y then .num y
  else
    let u := fUnits x + fUnits y
    if u = 0 then .num (zeroOf (fSign x && fSign y)) else .num (roundUnits (decide (u < 0)) u.natAbs 1)

/-- `fneg` (41_arithmetic.md R99): the sign bit inverted, every other bit kept, NaNs included. -/
def fneg (x : F64) : F64 := x ^^^ 0x8000000000000000

/-- `fsub` (41_arithmetic.md R90, R94): `x - y` is the sum of `x` and the negation of `y`. -/
def fsub (x y : F64) : FloatResult := fadd x (fneg y)

/-- `fmul` (41_arithmetic.md R90, R95). -/
def fmul (x y : F64) : FloatResult :=
  let neg := fSign x != fSign y
  if fIsNaN x || fIsNaN y then .nan
  else if fIsInf x || fIsInf y then (if fIsZero x || fIsZero y then .nan else .num (infOf neg))
  else .num (roundUnits neg (fMagnitude x * fMagnitude y) unitsPerOne)

/-- `fdiv` (41_arithmetic.md R90, R96). -/
def fdiv (x y : F64) : FloatResult :=
  let neg := fSign x != fSign y
  if fIsNaN x || fIsNaN y then .nan
  else if fIsInf x then (if fIsInf y then .nan else .num (infOf neg))
  else if fIsInf y then .num (zeroOf neg)
  else if fIsZero y then (if fIsZero x then .nan else .num (infOf neg))
  else .num (roundUnits neg (fMagnitude x * unitsPerOne) (fMagnitude y))

/-- `fmod` (41_arithmetic.md R100), case by case: the truncated remainder, exact, with the sign of `x`. -/
def fmod (x y : F64) : FloatResult :=
  if fIsNaN x || fIsNaN y then .nan
  else if fIsInf x then .nan
  else if fIsZero y then .nan
  else if fIsInf y then .num x
  else if fIsZero x then .num x
  else .num (roundUnits (fSign x) (fMagnitude x % fMagnitude y) 1)

/-- Whether a finite binary64 is an integer. -/
def fIsInteger (f : F64) : Bool := fMagnitude f % unitsPerOne == 0

/-- Whether a finite binary64 is an odd integer. -/
def fIsOddInteger (f : F64) : Bool := fIsInteger f && fMagnitude f / unitsPerOne % 2 == 1

/-- The odd part of a positive integer and the exponent of the power of two taken out of it. -/
def oddPart (n : Nat) : Nat × Nat :=
  let t := (n - (n &&& (n - 1))).log2
  (n / 2 ^ t, t)

/-- The exponent `E` with `m^k * 2^E` the magnitude of `x^y`, where `m` is the odd part of `x` and `k` the magnitude of the
integer `y` (`m = 1` where `y` is negative). -/
def powExponent (x y : F64) : Int :=
  let e : Int := ((oddPart (fMagnitude x)).2 : Int) - 1074
  let k : Int := (fMagnitude y / unitsPerOne : Nat)
  if fSign y then -(e * k) else e * k

/-- Assumption P2 of 41_arithmetic.md R101: for finite `x` (not zero) and an integer `y` (not zero), the real `x^y` where it
is exactly a binary64. An odd part `m` above 1 needs `y > 0` and `m^y < 2^53`, hence `y <= 33`. -/
def powExact (neg : Bool) (x y : F64) : Option F64 :=
  let m := (oddPart (fMagnitude x)).1
  let k := fMagnitude y / unitsPerOne
  let e := powExponent x y
  if fIsInteger y then
    if m = 1 then
      if -1074 ≤ e then
        if e ≤ 1023 then some (roundUnits neg (2 ^ (e + 1074).toNat) 1) else none
      else none
    else if fSign y then none
    else if 33 < k then none
    else if 2 ^ 53 ≤ m ^ k then none
    else if -1074 ≤ e then
      if (m ^ k).log2 + e ≤ 1023 then some (roundUnits neg (m ^ k * 2 ^ (e + 1074).toNat) 1) else none
    else none
  else none

/-- The first `n` binary digits, as one number, of the binary logarithm of `a / 2^192`, for `a` from `2^192` up to `2^193`:
each squaring gives the next digit. What is cut off makes the result at most 2 too small (`logDigits_bounds`). -/
def logDigits : Nat → Nat → Nat
  | 0, _ => 0
  | n + 1, a =>
    let s := a * a / 2 ^ 192
    if s < 2 ^ 193 then logDigits n s else 2 ^ n + logDigits n (s / 2)

/-- A lower bound of the binary logarithm of `|x|`, in units of 2^-128 (`x` finite, not zero). -/
def logLow (x : F64) : Int :=
  let m := fMagnitude x
  ((m.log2 : Int) - 1074) * 2 ^ 128 + logDigits 128 (m * 2 ^ 192 / 2 ^ m.log2)

/-- An upper bound of the same: the lower bound is exact for powers of two. -/
def logHigh (x : F64) : Int := if (oddPart (fMagnitude x)).1 = 1 then logLow x else logLow x + 2

/-- A lower bound of the binary logarithm of the real `|x|^y`, in units of 2^-128 times 2^-1074. -/
def powLogLow (x y : F64) : Int := if fSign y then fUnits y * logHigh x else fUnits y * logLow x

/-- An upper bound of the same. -/
def powLogHigh (x y : F64) : Int := if fSign y then fUnits y * logLow x else fUnits y * logHigh x

/-- The logarithm `e`, less `slack` units of 2^-128, in the units of `powLogLow`. -/
def powLimit (e : Int) (slack : Nat) : Int := (e * 2 ^ 128 - slack) * unitsPerOne

/-- `POW` overflows (41_arithmetic.md R101, last row): the real `|x|^y` is at least 2^1024. -/
def powOverflows (x y : F64) : Bool := decide (powLimit 1024 0 ≤ powLogLow x y)

/-- `POW` underflows: the real `|x|^y` is below 2^-1022, the smallest normal value, by more than the last bit of an
approximation (by the factor 2^(2^-50); log entry 4). -/
def powUnderflows (x y : F64) : Bool := decide (powLogHigh x y ≤ powLimit (-1022) (2 ^ 78))

/-- `POW` does not overflow: the real `|x|^y` is below 2^1024 by the same factor. -/
def powStaysFinite (x y : F64) : Bool := decide (powLogHigh x y ≤ powLimit 1024 (2 ^ 78))

/-- The lower 63 bits of `POW` where P2 does not fix them: an infinity where it overflows, a zero or a subnormal where it
underflows, a finite value that is not zero between; free within that (`Config.powApprox`). Within a last bit of 2^1024
the approximation may fall on either side of overflow. -/
def powApproximate (x y : F64) : Nat :=
  let free := (Config.powApprox x y).toNat
  if powOverflows x y then infBits
  else if powUnderflows x y then free % 2 ^ 52
  else if powStaysFinite x y then 1 + free % (infBits - 1)
  else 1 + free % infBits

/-- The last row of R101's table: `x` finite and not zero, `y` finite and not zero, `y` an integer where `x` is negative. Its
sign is fixed and it is no NaN. -/
def powOrdinary (x y : F64) : F64 :=
  let neg := fSign x && fIsOddInteger y
  match powExact neg x y with
  | some f => f
  | none => withSign neg (powApproximate x y)

/-- `POW` (41_arithmetic.md R101): the table, row by row. -/
def fpow (x y : F64) : FloatResult :=
  if fIsZero y then .num fOne
  else if x = fOne then .num fOne
  else if fIsNaN x || fIsNaN y then .nan
  else if x = fMinusOne && fIsInf y then .num fOne
  else if fIsInf y then
    if fSign y then .num (if fIsFinite x && decide (fMagnitude x < unitsPerOne) then infOf false else zeroOf false)
    else .num (if fIsFinite x && decide (fMagnitude x < unitsPerOne) then zeroOf false else infOf false)
  else if fIsInf x then
    if fSign y then .num (zeroOf (fSign x && fIsOddInteger y)) else .num (infOf (fSign x && fIsOddInteger y))
  else if fIsZero x then
    if fSign y then .num (infOf (fSign x && fIsOddInteger y)) else .num (zeroOf (fSign x && fIsOddInteger y))
  else if fSign x && !fIsInteger y then .nan
  else .num (powOrdinary x y)

/-- A NaN pattern from free bits (41_arithmetic.md R91, `NAN_GEN`): the exponent is set, and a zero fraction becomes 1, so
that every NaN pattern, and nothing else, can come out. -/
def nanFrom (free : F64) : F64 :=
  let f := free ||| 0x7FF0000000000000
  if fFraction f = 0 then f ||| 1 else f

/-- The position an index Number names (44_aggregate.md R146): truncation toward zero; none where the spec raises
`BadIndex` (a NaN, an infinity, or a result below 0). -/
def position (f : F64) : Option Nat :=
  if fIsFinite f then
    let p := fMagnitude f / unitsPerOne
    if fSign f && p != 0 then none else some p
  else none

end Sys2Proof.Machine
end

