-- ==== Sys2Proof/Machine/State.lean ====
section
/-! DEFINITION. Machine/State.lean: everything the spec gives the machine, as plain data, and construction (reset).
10_state.md, 20_memory.md sections 1 and 2, 70_reset_and_hazards.md R210 and R211. -/

namespace Sys2Proof.Machine

/-- The one dynamically typed datum (10_state.md R10): eight variants. A Number is any binary64 bit pattern; a handle is
a natural number (20_memory.md R43); a Function's payload is a 32-bit unsigned instruction index (R13). -/
inductive Value
  | undefined
  | null
  | boolean (b : Bool)
  | number (f : F64)
  | string (s : Str)
  | object (h : Nat)
  | array (h : Nat)
  | function (n : U32)
deriving DecidableEq, Repr

/-- A string-keyed mapping (20_memory.md R44, R48): key and Value pairs, the keys strictly rising in byte order
(`Mapping.wf` in Machine/Mapping.lean), so that equal mappings are equal data. -/
abbrev Mapping := List (Str × Value)

/-- A cell of the aggregate heap (20_memory.md R43): an object's mapping or an array's sequence. -/
inductive HeapCell
  | obj (m : Mapping)
  | arr (a : List Value)
deriving DecidableEq, Repr

/-- The aggregate heap (20_memory.md R43): a finite partial map from handles to cells, handles strictly rising. -/
abbrev Heap := List (Nat × HeapCell)

/-- The run state `RUN` (10_state.md R28). -/
inductive RunState
  | running
  | haltedOk
  | haltedFault
deriving DecidableEq, Repr

/-- The program store (20_memory.md R41): the abstract instructions themselves, or 64-bit words (00_scope.md R3,
30_encoding.md R63). -/
inductive Program
  | abstractForm (code : List Instr)
  | wordForm (words : List Word)
deriving DecidableEq, Repr

/-- The causes of a fatal condition (60_exceptions.md R182). -/
inductive Cause
  | typeMismatchArith
  | typeMismatchProp
  | typeMismatchElem
  | noOrder
  | typeMismatchCall
  | stackUnderflow
  | scopeEmpty
  | poolIndexOutOfRange
  | registerIndexOutOfRange
  | poolTypeMismatch
  | pcOutOfRange
  | illegalInstruction
  | scopeKeyMissing
  | badIndex
  | resourceExhausted
deriving DecidableEq, Repr

/-- Every piece of state the spec gives the machine (10_state.md R15 to R30, 70_reset_and_hazards.md R211); the last
field alone is the model's own. The call stack and the scope stack are lists with the top first. -/
structure State where
  /-- `x[0]` to `x[255]` (R15). -/
  regs : Vector Value numRegs
  /-- The program counter: the index of the instruction being executed (R19; log entry 7). -/
  pc : Int
  /-- The call stack `CS` (R24), top first. -/
  callStack : List Int
  /-- The scope stack `SS` (R25), top first. -/
  scopes : List Mapping
  /-- The strict-mode flag `STRICT` (R27). -/
  strict : Bool
  /-- The run state `RUN` (R28). -/
  run : RunState
  /-- `FAULT_CAUSE` (R29): 0 while no fatal condition was raised. -/
  faultCause : BitVec 8
  /-- `FAULT_PC` (R29). -/
  faultPc : Int
  /-- The aggregate heap `HEAP` (20_memory.md R43). -/
  heap : Heap
  /-- `NEXT_HANDLE` (10_state.md R30, 20_memory.md R46). -/
  nextHandle : Nat
  /-- The program store `PROG` (20_memory.md R41). -/
  prog : Program
  /-- The constant pool `POOL` (20_memory.md R42). -/
  pool : List Value
  /-- The OPEN parameters latched at construction (00_scope.md section 4; log entry 2). -/
  cfg : Config
  /-- The model's own: how many NaN draws were made (41_arithmetic.md R91; log entry 3). -/
  nanDraws : Nat
deriving DecidableEq, Repr

/-- Why the machine has no next state. -/
inductive Fault
  /-- Raised by `step` alone, when `RUN` is not `running`: "A halted engine has no step" (10_state.md R28). Safe: it is
  what the spec says. -/
  | halted
deriving DecidableEq, Repr

/-- Why the model gives no meaning. -/
inductive Refusal
  /-- Raised by an arm of `exec` whose instruction has no meaning yet. Safe: nothing can be proved of it. -/
  | notModelled (mnemonic : String)
  /-- Raised by `GetProp`, `SetProp`, `GetElem` and `SetElem` when an Object or Array Value carries a handle that has no
  cell of its kind. 20_memory.md R57 rules this out for every well-formed construction input, and
  93_implementation_defined.md U19 says to refuse it. Safe: the model stops where the spec states nothing. -/
  | illFormedHeap
deriving DecidableEq, Repr

/-- One more than the largest handle, 0 for the empty heap (70_reset_and_hazards.md R211, `NEXT_HANDLE`). -/
def handleBound : Heap → Nat
  | [] => 0
  | (h, _) :: rest => max (h + 1) (handleBound rest)

/-- Construction (70_reset_and_hazards.md R210, R211): the engine built from a program, a pool, the cells that the
pool's aggregates refer to, and the OPEN parameters. -/
def State.construct (prog : Program) (pool : List Value) (heap0 : Heap) (cfg : Config) : State where
  regs := Vector.replicate numRegs .undefined
  pc := 0
  callStack := []
  scopes := [[]]
  strict := false
  run := .running
  faultCause := 0
  faultPc := 0
  heap := heap0
  nextHandle := handleBound heap0
  prog := prog
  pool := pool
  cfg := cfg
  nanDraws := 0

/-- The machine right after reset: construction from empty inputs (log entry 1) and the spec's default parameters (log
entry 2). -/
def State.reset : State := State.construct (.wordForm []) [] [] Config.defaults

end Sys2Proof.Machine
end

