-- ==== Sys2Proof/Machine/Mapping.lean ====
section
/-! DEFINITION. Machine/Mapping.lean: finite maps as lists with strictly rising keys: string-keyed mappings (20_memory.md
R44, R48) and the heap (R43). -/

namespace Sys2Proof.Machine

/-- Lexicographic order of Strings, byte by byte, unsigned (42_compare.md R108). -/
def strOrder : Str → Str → Ordering
  | [], [] => .eq
  | [], _ :: _ => .lt
  | _ :: _, [] => .gt
  | b :: s, c :: t => if b.toNat < c.toNat then .lt else if c.toNat < b.toNat then .gt else strOrder s t

/-- Order of handles. -/
def handleOrder (h i : Nat) : Ordering := compare h i

/-- The entry at a key, if there is one. -/
def lookup {κ β : Type} [DecidableEq κ] (k : κ) : List (κ × β) → Option β
  | [] => none
  | (j, v) :: rest => if j = k then some v else lookup k rest

/-- Insert or overwrite the entry at a key, keeping the keys in order. -/
def insertAt {κ β : Type} (order : κ → κ → Ordering) (k : κ) (v : β) : List (κ × β) → List (κ × β)
  | [] => [(k, v)]
  | (j, w) :: rest =>
    match order k j with
    | .lt => (k, v) :: (j, w) :: rest
    | .eq => (k, v) :: rest
    | .gt => (j, w) :: insertAt order k v rest

/-- Keys strictly rising: the canonical form of a map. -/
abbrev Rising {κ β : Type} (order : κ → κ → Ordering) (m : List (κ × β)) : Prop :=
  m.Pairwise (fun p q => order p.1 q.1 = .lt)

/-- `m.get(k)` (20_memory.md R44), none where `k` is absent. -/
def Mapping.get (m : Mapping) (k : Str) : Option Value := lookup k m

/-- `m.has(k)` (20_memory.md R44). -/
def Mapping.has (m : Mapping) (k : Str) : Bool := (lookup k m).isSome

/-- `m.set(k, v)` (20_memory.md R44): insert or overwrite, every other key unchanged. -/
def Mapping.set (m : Mapping) (k : Str) (v : Value) : Mapping := insertAt strOrder k v m

/-- The canonical form of a mapping. -/
abbrev Mapping.wf (m : Mapping) : Prop := Rising strOrder m

/-- `HEAP[h]` (20_memory.md R43). -/
def Heap.cell (m : Heap) (h : Nat) : Option HeapCell := lookup h m

/-- `HEAP[h] <- c` (20_memory.md R46). -/
def Heap.setCell (m : Heap) (h : Nat) (c : HeapCell) : Heap := insertAt handleOrder h c m

/-- The canonical form of a cell: an object's mapping is canonical. -/
def HeapCell.wf : HeapCell → Bool
  | .obj m => decide (Mapping.wf m)
  | .arr _ => true

/-- The canonical form of the heap: handles strictly rising, every cell canonical. -/
abbrev Heap.wf (m : Heap) : Prop := Rising handleOrder m ∧ ∀ p ∈ m, p.2.wf = true

end Sys2Proof.Machine
end

