-- ==== Sys2Proof/Machine/Ops.lean ====
section
/-! DEFINITION. Machine/Ops.lean: the named operations over the state that the instructions share: registers, program
counter, fatal conditions, stacks, scopes, heap, capacities, NaN draws. -/

namespace Sys2Proof.Machine

/-- What one step answers. -/
abbrev Result := Host.Outcome State Fault Refusal

/-- The cause code (60_exceptions.md R182). -/
def Cause.code : Cause → BitVec 8
  | .typeMismatchArith => 0x01
  | .typeMismatchProp => 0x02
  | .typeMismatchElem => 0x03
  | .noOrder => 0x04
  | .typeMismatchCall => 0x05
  | .stackUnderflow => 0x10
  | .scopeEmpty => 0x20
  | .poolIndexOutOfRange => 0x30
  | .registerIndexOutOfRange => 0x31
  | .poolTypeMismatch => 0x32
  | .pcOutOfRange => 0x33
  | .illegalInstruction => 0x40
  | .scopeKeyMissing => 0x41
  | .badIndex => 0x42
  | .resourceExhausted => 0x43

/-- The code of `RUN` (10_state.md R30); 3 is not used. -/
def RunState.code : RunState → BitVec 2
  | .running => 0
  | .haltedOk => 1
  | .haltedFault => 2

/-- Entry to a fatal condition (60_exceptions.md R181): the cause, the pc, the run state, and nothing else. There is no
return from one (R197). -/
def State.enterFatal (s : State) (c : Cause) : State :=
  { s with faultCause := c.code, faultPc := s.pc, run := .haltedFault }

/-- `raise Fatal(cause)` as the outcome of a step: a next state. -/
def raise (c : Cause) (s : State) : Result := .next (s.enterFatal c)

/-- The normal end of the run (10_state.md R20). -/
def State.haltOk (s : State) : State := { s with run := .haltedOk }

/-- Read register `r` (10_state.md R15). An index above 255 names no register; every instruction checks its indices first
(`withRegisters`), so the value here is never used for one. -/
def State.reg (s : State) (r : Nat) : Value := s.regs[r]?.getD .undefined

/-- `x[r] <- v` (10_state.md R15): register 0 is like any other. -/
def State.setReg (s : State) (r : Nat) (v : Value) : State := { s with regs := s.regs.setIfInBounds r v }

/-- `pc <- t` (10_state.md R22). -/
def State.jumpTo (s : State) (t : Int) : State := { s with pc := t }

/-- `pc <- pc + 1`, after an instruction that did not set `pc` itself (10_state.md R21). -/
def State.advance (s : State) : State := { s with pc := s.pc + 1 }

/-- Write the result of an arithmetic instruction: a definite Number, or a NaN whose bits are a free value, one draw each
(41_arithmetic.md R91; log entry 3). -/
def State.writeFloat (s : State) (dst : Nat) : FloatResult → State
  | .num f => s.setReg dst (.number f)
  | .nan => { s.setReg dst (.number (nanFrom (Config.nanGen s.nanDraws))) with nanDraws := s.nanDraws + 1 }

/-- Whether one more fits into a capacity that already holds `used` (20_memory.md R59; `none` is infinite). -/
def fits (used : Nat) : Option Nat → Bool
  | none => true
  | some m => decide (used < m)

/-- `CS.push(pc)` and `SS.push(empty mapping)` (43_control.md R127). -/
def State.pushFrame (s : State) : State :=
  { s with callStack := s.pc :: s.callStack, scopes := [] :: s.scopes }

/-- Replace the stacks by what is left after a pop (43_control.md R128). -/
def State.withStacks (s : State) (calls : List Int) (scopes : List Mapping) : State :=
  { s with callStack := calls, scopes := scopes }

/-- Replace the scope stack (45_scope_func.md R162: only its top is ever changed). -/
def State.withScopes (s : State) (scopes : List Mapping) : State := { s with scopes := scopes }

/-- `HEAP[h] <- c` for a handle in use (44_aggregate.md R143, R145). -/
def State.setCell (s : State) (h : Nat) (c : HeapCell) : State := { s with heap := Heap.setCell s.heap h c }

/-- `Alloc(c)` (20_memory.md R46): a fresh handle and the state with the new cell; none where `MAX_HEAP_CELLS` cells were
already allocated (R59). No cell is ever removed (R49), so the heap's size is the number allocated. -/
def State.alloc (s : State) (c : HeapCell) : Option (Nat × State) :=
  if fits s.heap.length s.cfg.maxHeapCells then
    some (s.nextHandle, { s.setCell s.nextHandle c with nextHandle := s.nextHandle + 1 })
  else none

/-- Use the object mapping of a handle (44_aggregate.md R142, R143); a handle without an object cell is what 20_memory.md
R57 rules out. -/
def withObject (s : State) (h : Nat) (k : Mapping → Result) : Result :=
  match Heap.cell s.heap h with
  | some (.obj m) => k m
  | some (.arr _) => .refused .illFormedHeap
  | none => .refused .illFormedHeap

/-- Use the sequence of an array's handle (44_aggregate.md R144, R145). -/
def withArray (s : State) (h : Nat) (k : List Value → Result) : Result :=
  match Heap.cell s.heap h with
  | some (.arr a) => k a
  | some (.obj _) => .refused .illFormedHeap
  | none => .refused .illFormedHeap

/-- `m.set(k, v)` under a capacity on the number of keys (20_memory.md R59): none where the key is absent and the mapping
already has that many. -/
def setWithin (cap : Option Nat) (m : Mapping) (k : Str) (v : Value) : Option Mapping :=
  if Mapping.has m k || fits m.length cap then some (Mapping.set m k v) else none

/-- The sequence after a write at position `p` (44_aggregate.md R145): overwritten, or grown with `Undefined` up to `p`. -/
def writeElement (a : List Value) (p : Nat) (v : Value) : List Value :=
  if p < a.length then a.set p v else a ++ List.replicate (p - a.length) .undefined ++ [v]

/-- Use the top scope and the scopes below it, or raise `ScopeEmpty` (60_exceptions.md R185). -/
def withTopScope (s : State) (k : Mapping → List Mapping → Result) : Result :=
  match s.scopes with
  | [] => raise .scopeEmpty s
  | top :: below => k top below

/-- The default `SCOPE_KEY` (45_scope_func.md R161): the decimal ASCII numeral without leading zeros. -/
def decimalKey (i : U32) : Str := (Nat.toDigits 10 i.toNat).map (fun c => BitVec.ofNat 8 c.toNat)

/-- `SCOPE_KEY(i)` (45_scope_func.md R161), for whichever key function the construction chose. -/
def scopeKey (cfg : Config) (i : U32) : Str :=
  match cfg.scopeKeys with
  | .decimal => decimalKey i
  | .implementation => Config.implementationKeys.key i

/-- `PROG_LEN` (00_scope.md section 4). -/
def Program.length : Program → Nat
  | .abstractForm code => code.length
  | .wordForm words => words.length

/-- The program as words (30_encoding.md R63, R69). -/
def Program.words : Program → List Word
  | .abstractForm code => code.map encode
  | .wordForm words => words

/-- Put a word at an index of a word-form program, growing it with illegal zero words where it is too short. -/
def placeWord (words : List Word) (n : Nat) (w : Word) : List Word :=
  if n < words.length then words.set n w else words ++ List.replicate (n - words.length) 0 ++ [w]

end Sys2Proof.Machine
end

