-- ==== Sys2Proof/Machine/Operands.lean ====
section
/-! DEFINITION. Machine/Operands.lean: the operand forms of the instructions: the index check of 10_state.md R18, and the
operand type checks of 46_type.md R173 that several instructions share. -/

namespace Sys2Proof.Machine

/-- Run an instruction whose used register operands are in range; raise `RegisterIndexOutOfRange` before any other check
otherwise (10_state.md R18, 60_exceptions.md R194). -/
def withRegisters (used : List Nat) (s : State) (k : Result) : Result :=
  if used.all (fun r => decide (r < numRegs)) then k else raise .registerIndexOutOfRange s

/-- The two Number operands of a binary arithmetic instruction (41_arithmetic.md R92). -/
def withNumbers (s : State) (a b : Nat) (k : F64 → F64 → Result) : Result :=
  match s.reg a, s.reg b with
  | .number x, .number y => k x y
  | _, _ => raise .typeMismatchArith s

/-- A binary arithmetic instruction (41_arithmetic.md R92 to R98): check, compute, write, advance. -/
def binaryArith (op : F64 → F64 → FloatResult) (dst a b : Nat) (s : State) : Result :=
  withRegisters [dst, a, b] s <|
    withNumbers s a b fun x y => .next (s.writeFloat dst (op x y)).advance

/-- The object and key operands of `GetProp` and `SetProp` (44_aggregate.md R142, R143). -/
def withObjectKey (s : State) (obj key : Nat) (k : Nat → Str → Result) : Result :=
  match s.reg obj, s.reg key with
  | .object h, .string t => k h t
  | _, _ => raise .typeMismatchProp s

/-- The array and index operands of `GetElem` and `SetElem`: the type check, then the conversion of the index
(44_aggregate.md R144 to R147). -/
def withArrayPosition (s : State) (arr idx : Nat) (k : Nat → Nat → Result) : Result :=
  match s.reg arr, s.reg idx with
  | .array h, .number f =>
    match position f with
    | some p => k h p
    | none => raise .badIndex s
  | _, _ => raise .typeMismatchElem s

/-- A jump offset as an integer: 32-bit two's complement, in instructions (30_encoding.md R65). -/
def offsetOf (off : U32) : Int := off.toInt

end Sys2Proof.Machine
end

