-- ==== Sys2Proof/Machine/Aggregate.lean ====
section
/-! DEFINITION. Machine/Aggregate.lean: objects and arrays (44_aggregate.md R140 to R147). -/

namespace Sys2Proof.Machine

/-- Allocate a cell and write the Value made from its handle (R140, R141). -/
def newAggregate (c : HeapCell) (make : Nat → Value) (dst : Nat) (s : State) : Result :=
  withRegisters [dst] s <|
    match s.alloc c with
    | some (h, t) => .next (t.setReg dst (make h)).advance
    | none => raise .resourceExhausted s

/-- `NewObject dst` (R140). -/
def execNewObject (dst : Nat) (s : State) : Result := newAggregate (.obj []) .object dst s

/-- `NewArray dst` (R141). -/
def execNewArray (dst : Nat) (s : State) : Result := newAggregate (.arr []) .array dst s

/-- `GetProp dst, obj, key` (R142): a missing key reads `Undefined`. -/
def execGetProp (dst obj key : Nat) (s : State) : Result :=
  withRegisters [dst, obj, key] s <|
    withObjectKey s obj key fun h t =>
      withObject s h fun m => .next (s.setReg dst ((Mapping.get m t).getD .undefined)).advance

/-- `SetProp obj, key, val` (R143). -/
def execSetProp (obj key val : Nat) (s : State) : Result :=
  withRegisters [obj, key, val] s <|
    withObjectKey s obj key fun h t =>
      withObject s h fun m =>
        match setWithin s.cfg.maxObjectKeys m t (s.reg val) with
        | some m' => .next (s.setCell h (.obj m')).advance
        | none => raise .resourceExhausted s

/-- `GetElem dst, arr, idx` (R144): a position beyond the length reads `Undefined`. -/
def execGetElem (dst arr idx : Nat) (s : State) : Result :=
  withRegisters [dst, arr, idx] s <|
    withArrayPosition s arr idx fun h p =>
      withArray s h fun a => .next (s.setReg dst (a[p]?.getD .undefined)).advance

/-- `SetElem arr, idx, val` (R145): the capacity check comes before the cell is reached. -/
def execSetElem (arr idx val : Nat) (s : State) : Result :=
  withRegisters [arr, idx, val] s <|
    withArrayPosition s arr idx fun h p =>
      if p < s.cfg.maxArrayLen then
        withArray s h fun a => .next (s.setCell h (.arr (writeElement a p (s.reg val)))).advance
      else raise .resourceExhausted s

end Sys2Proof.Machine
end

