-- ==== Sys2Proof/Machine/Arith.lean ====
section
/-! DEFINITION. Machine/Arith.lean: arithmetic on Number (41_arithmetic.md R92 to R99). -/

namespace Sys2Proof.Machine

/-- `Add dst, a, b` (R93). -/
def execAdd (dst a b : Nat) (s : State) : Result := binaryArith fadd dst a b s

/-- `Sub dst, a, b` (R94): first operand minus second. -/
def execSub (dst a b : Nat) (s : State) : Result := binaryArith fsub dst a b s

/-- `Mul dst, a, b` (R95). -/
def execMul (dst a b : Nat) (s : State) : Result := binaryArith fmul dst a b s

/-- `Div dst, a, b` (R96): division by zero is not fatal. -/
def execDiv (dst a b : Nat) (s : State) : Result := binaryArith fdiv dst a b s

/-- `Mod dst, a, b` (R97). -/
def execMod (dst a b : Nat) (s : State) : Result := binaryArith fmod dst a b s

/-- `Pow dst, a, b` (R98): `a` is the base, `b` the exponent. -/
def execPow (dst a b : Nat) (s : State) : Result := binaryArith fpow dst a b s

/-- `Neg dst, src` (R99): no draw is made, even for a NaN. -/
def execNeg (dst src : Nat) (s : State) : Result :=
  withRegisters [dst, src] s <|
    match s.reg src with
    | .number f => .next (s.setReg dst (.number (fneg f))).advance
    | _ => raise .typeMismatchArith s

end Sys2Proof.Machine
end

