-- ==== Sys2Proof/Machine/Comparator.lean ====
section
/-! DEFINITION. Machine/Comparator.lean: the dynamic-value comparator (42_compare.md): equality, order, hash. -/

namespace Sys2Proof.Machine

/-- What `vord` answers (42_compare.md R107). -/
inductive ValueOrder
  | less
  | equal
  | greater
  | unordered
  | noOrder
deriving DecidableEq, Repr

/-- Order by the exact values of two integers. -/
def intOrder (x y : Int) : ValueOrder := if x < y then .less else if x = y then .equal else .greater

/-- IEEE-754 order of two Numbers (42_compare.md R107): a NaN is `Unordered`; `-Inf` below and `+Inf` above every finite
number; finite Numbers by their real values, so the two zeros are `Equal`. -/
def numberOrder (f g : F64) : ValueOrder :=
  if fIsNaN f || fIsNaN g then .unordered
  else if f = g then .equal
  else if fIsInf f then (if fSign f then .less else .greater)
  else if fIsInf g then (if fSign g then .greater else .less)
  else intOrder (fUnits f) (fUnits g)

/-- The order of Strings as `vord` reports it (42_compare.md R108). -/
def stringOrder (s t : Str) : ValueOrder :=
  match strOrder s t with
  | .lt => .less
  | .eq => .equal
  | .gt => .greater

/-- The order of Booleans, `false < true` (42_compare.md R107). -/
def booleanOrder : Bool → Bool → ValueOrder
  | false, true => .less
  | true, false => .greater
  | false, false => .equal
  | true, true => .equal

/-- Value ordering `vord` (42_compare.md R107). -/
def vord : Value → Value → ValueOrder
  | .number f, .number g => numberOrder f g
  | .string s, .string t => stringOrder s t
  | .boolean p, .boolean q => booleanOrder p q
  | .function m, .function n => intOrder m.toNat n.toNat
  | _, _ => .noOrder

/-- Value equality `veq` (42_compare.md R105): same variant and equal payload; Numbers by IEEE-754 equality (D13);
aggregates by identity. -/
def veq : Value → Value → Bool
  | .undefined, .undefined => true
  | .null, .null => true
  | .boolean p, .boolean q => p == q
  | .number f, .number g => numberOrder f g == .equal
  | .string s, .string t => s == t
  | .object h, .object i => h == i
  | .array h, .array i => h == i
  | .function m, .function n => m == n
  | _, _ => false

/-- The tag code of a Value's variant (10_state.md R11), the output of the type-tag dispatcher. -/
def tagCode : Value → BitVec 3
  | .undefined => 0
  | .null => 1
  | .boolean _ => 2
  | .number _ => 3
  | .string _ => 4
  | .object _ => 5
  | .array _ => 6
  | .function _ => 7

/-- The payload bits of a Value (10_state.md R11); none for a String, whose payload is a reference into a string store of
which only the bytes are visible. DESIGN CHOICE (log entry 17): a handle of 2^64 or above, which the spec does not say how a
64-bit payload holds, is taken modulo 2^64. No instruction reads a payload. -/
def payloadBits : Value → Option (BitVec 64)
  | .undefined => some 0
  | .null => some 0
  | .boolean b => some (if b then 1 else 0)
  | .number f => some f
  | .string _ => none
  | .object h => some (BitVec.ofNat 64 h)
  | .array h => some (BitVec.ofNat 64 h)
  | .function n => some (n.zeroExtend 64)

/-- `key(v)` (42_compare.md R111): a Number by its raw bits, an aggregate by its handle. -/
def hashKey : Value → HashKey
  | .undefined => .none
  | .null => .none
  | .boolean b => .boolean b
  | .number f => .bits f
  | .string s => .bytes s
  | .object h => .handle h
  | .array h => .handle h
  | .function n => .index n

/-- `HASH(v) = H(tagcode(v), key(v))` (42_compare.md R110, R111). No instruction uses it. -/
def valueHash (v : Value) : Nat := Config.hashOf (tagCode v) (hashKey v)

end Sys2Proof.Machine
end

