-- ==== Sys2Proof/Machine/Flags.lean ====
section
/-! DEFINITION. Machine/Flags.lean: the two pieces of state that play the part of flags: the comparison accumulator,
register 0 (10_state.md R16), and the strict-mode flag (R27). The rig core has no condition codes (R31). -/

namespace Sys2Proof.Machine

/-- A comparison writes its Boolean result to register 0 and to no other (42_compare.md R115). -/
def State.writeAccumulator (s : State) (b : Bool) : State := s.setReg 0 (.boolean b)

/-- `STRICT <- true`: set, not toggled (45_scope_func.md R160, 90_conflicts.md C1). -/
def State.setStrict (s : State) : State := { s with strict := true }

end Sys2Proof.Machine
end

