-- ==== Sys2Proof/Machine/Compare.lean ====
section
/-! DEFINITION. Machine/Compare.lean: the comparison instructions (42_compare.md R112 to R116). -/

namespace Sys2Proof.Machine

/-- `Eq a, b` (R112): total, result in register 0. -/
def execEq (a b : Nat) (s : State) : Result :=
  withRegisters [a, b] s <| .next (s.writeAccumulator (veq (s.reg a) (s.reg b))).advance

/-- The common part of `Lt` and `Le` (R113, R114, R116): `NoOrder` is fatal, `Unordered` follows `NAN_ORDER`, any other order is
tested by `holds`. -/
def ordered (holds : ValueOrder → Bool) (a b : Nat) (s : State) : Result :=
  withRegisters [a, b] s <|
    match vord (s.reg a) (s.reg b) with
    | .noOrder => raise .noOrder s
    | .unordered =>
      match s.cfg.nanOrder with
      | .fatal => raise .noOrder s
      | .ieeeFalse => .next (s.writeAccumulator false).advance
    | o => .next (s.writeAccumulator (holds o)).advance

/-- `Lt a, b` (R113). -/
def execLt (a b : Nat) (s : State) : Result := ordered (fun o => o == .less) a b s

/-- `Le a, b` (R114). -/
def execLe (a b : Nat) (s : State) : Result := ordered (fun o => o == .less || o == .equal) a b s

end Sys2Proof.Machine
end

