-- ==== Sys2Proof/Machine/Control.lean ====
section
/-! DEFINITION. Machine/Control.lean: control transfer (43_control.md R125 to R131). -/

namespace Sys2Proof.Machine

/-- `Jmp off` (R125): relative to this instruction's own index; a bad target shows at the next fetch. -/
def execJmp (off : U32) (s : State) : Result := .next (s.jumpTo (s.pc + offsetOf off))

/-- `JmpIf cond, off` (R126): taken only on exactly `Boolean(true)`. -/
def execJmpIf (cond : Nat) (off : U32) (s : State) : Result :=
  withRegisters [cond] s <|
    match s.reg cond with
    | .boolean true => .next (s.jumpTo (s.pc + offsetOf off))
    | _ => .next s.advance

/-- `Call func, argc` (R127): pushes this instruction's own index and a fresh empty scope; `argc` is not used. -/
def execCall (func : Nat) (_argc : Byte) (s : State) : Result :=
  withRegisters [func] s <|
    match s.reg func with
    | .function n =>
      if fits s.callStack.length s.cfg.maxCallDepth then .next (s.pushFrame.jumpTo (n.toNat : Int))
      else raise .resourceExhausted s
    | _ => raise .typeMismatchCall s

/-- `Return start, count` (R128): the operands are not used and not checked (10_state.md R18); the popped value is the
matching `Call`'s own index, and nothing is added to it (R129, 90_conflicts.md C9). -/
def execReturn (_start : Nat) (_count : Byte) (s : State) : Result :=
  match s.callStack with
  | [] => raise .stackUnderflow s
  | saved :: calls =>
    match s.scopes with
    | [] => raise .scopeEmpty s
    | _ :: below => .next ((s.withStacks calls below).jumpTo saved)

end Sys2Proof.Machine
end

