-- ==== Sys2Proof/Machine/Load.lean ====
section
/-! DEFINITION. Machine/Load.lean: loads and move (40_load_move.md R80 to R84). -/

namespace Sys2Proof.Machine

/-- `LoadConst dst, k` (R80). -/
def execLoadConst (dst : Nat) (k : U32) (s : State) : Result :=
  withRegisters [dst] s <|
    match s.pool[k.toNat]? with
    | some v => .next (s.setReg dst v).advance
    | none => raise .poolIndexOutOfRange s

/-- `LoadUndef dst` (R81). -/
def execLoadUndef (dst : Nat) (s : State) : Result :=
  withRegisters [dst] s <| .next (s.setReg dst .undefined).advance

/-- `LoadNull dst` (R82). -/
def execLoadNull (dst : Nat) (s : State) : Result :=
  withRegisters [dst] s <| .next (s.setReg dst .null).advance

/-- `LoadBool dst, b` (R83). -/
def execLoadBool (dst : Nat) (b : Bool) (s : State) : Result :=
  withRegisters [dst] s <| .next (s.setReg dst (.boolean b)).advance

/-- `Move dst, src` (R84). -/
def execMove (dst src : Nat) (s : State) : Result :=
  withRegisters [dst, src] s <| .next (s.setReg dst (s.reg src)).advance

end Sys2Proof.Machine
end

