-- ==== Sys2Proof/Machine/Scope.lean ====
section
/-! DEFINITION. Machine/Scope.lean: function values, scope variables, strict mode (45_scope_func.md R155 to R162). -/

namespace Sys2Proof.Machine

/-- `Closure dst, target` (R155): the target is absolute and not checked. -/
def execClosure (dst : Nat) (target : U32) (s : State) : Result :=
  withRegisters [dst] s <| .next (s.setReg dst (.function target)).advance

/-- `GetScope dst, var` (R156): the top scope alone; a miss follows `GETSCOPE_MISS`. -/
def execGetScope (dst : Nat) (var : U32) (s : State) : Result :=
  withRegisters [dst] s <|
    withTopScope s fun top _ =>
      match Mapping.get top (scopeKey s.cfg var) with
      | some v => .next (s.setReg dst v).advance
      | none =>
        match s.cfg.getScopeMiss with
        | .fault => raise .scopeKeyMissing s
        | .undefined => .next (s.setReg dst .undefined).advance

/-- Insert or overwrite a variable of the top scope (R157, R159). -/
def writeScope (var : U32) (v : Value) (s : State) : Result :=
  withTopScope s fun top below =>
    match setWithin s.cfg.maxScopeEntries top (scopeKey s.cfg var) v with
    | some top' => .next (s.withScopes (top' :: below)).advance
    | none => raise .resourceExhausted s

/-- `SetScope var, src` (R157): no declaration is needed. -/
def execSetScope (var : U32) (src : Nat) (s : State) : Result :=
  withRegisters [src] s <| writeScope var (s.reg src) s

/-- `DeclareFunc dst` (R158): a Function naming this instruction's own index (below 2^32 in every run, 10_state.md R13). -/
def execDeclareFunc (dst : Nat) (s : State) : Result :=
  withRegisters [dst] s <| .next (s.setReg dst (.function (BitVec.ofInt 32 s.pc))).advance

/-- `DeclareVar var` (R159): a variable already present is overwritten with `Undefined`. -/
def execDeclareVar (var : U32) (s : State) : Result := writeScope var .undefined s

/-- `UseStrict` (R160). -/
def execUseStrict (s : State) : Result := .next s.setStrict.advance

end Sys2Proof.Machine
end

