-- ==== Sys2Proof/Machine/TypeTag.lean ====
section
/-! DEFINITION. Machine/TypeTag.lean: the type instructions (46_type.md R170 to R174). -/

namespace Sys2Proof.Machine

/-- `typename(v)` as ASCII bytes (R174). -/
def typeName : Value → Str
  | .undefined => [0x75, 0x6E, 0x64, 0x65, 0x66, 0x69, 0x6E, 0x65, 0x64]
  | .null => [0x6F, 0x62, 0x6A, 0x65, 0x63, 0x74]
  | .boolean _ => [0x62, 0x6F, 0x6F, 0x6C, 0x65, 0x61, 0x6E]
  | .number _ => [0x6E, 0x75, 0x6D, 0x62, 0x65, 0x72]
  | .string _ => [0x73, 0x74, 0x72, 0x69, 0x6E, 0x67]
  | .object _ => [0x6F, 0x62, 0x6A, 0x65, 0x63, 0x74]
  | .array _ => [0x6F, 0x62, 0x6A, 0x65, 0x63, 0x74]
  | .function _ => [0x66, 0x75, 0x6E, 0x63, 0x74, 0x69, 0x6F, 0x6E]

/-- `TypeOf dst, src` (R171). -/
def execTypeOf (dst src : Nat) (s : State) : Result :=
  withRegisters [dst, src] s <| .next (s.setReg dst (.string (typeName (s.reg src)))).advance

/-- The pairs for which `InstanceOf` is true (R172): an aggregate and a Function, in that order. -/
def isInstance : Value → Value → Bool
  | .object _, .function _ => true
  | .array _, .function _ => true
  | _, _ => false

/-- `InstanceOf dst, obj, ctor` (R172): the result goes to `dst` (D7). -/
def execInstanceOf (dst obj ctor : Nat) (s : State) : Result :=
  withRegisters [dst, obj, ctor] s <| .next (s.setReg dst (.boolean (isInstance (s.reg obj) (s.reg ctor)))).advance

end Sys2Proof.Machine
end

