-- ==== Sys2Proof/Machine/Dispatch.lean ====
section
/-! DEFINITION. Machine/Dispatch.lean: the meaning of each instruction, "dispatched by variant to its semantics" (10_state.md R21). -/

namespace Sys2Proof.Machine

def exec (i : Instr) (s : State) : Host.Outcome State Fault Refusal :=
  match i with
  | .loadConst dst k => Sys2Proof.Machine.execLoadConst dst k s
  | .loadUndef dst => Sys2Proof.Machine.execLoadUndef dst s
  | .loadNull dst => Sys2Proof.Machine.execLoadNull dst s
  | .loadBool dst b => Sys2Proof.Machine.execLoadBool dst b s
  | .move dst src => Sys2Proof.Machine.execMove dst src s
  | .add dst a b => Sys2Proof.Machine.execAdd dst a b s
  | .sub dst a b => Sys2Proof.Machine.execSub dst a b s
  | .mul dst a b => Sys2Proof.Machine.execMul dst a b s
  | .div dst a b => Sys2Proof.Machine.execDiv dst a b s
  | .mod dst a b => Sys2Proof.Machine.execMod dst a b s
  | .pow dst a b => Sys2Proof.Machine.execPow dst a b s
  | .neg dst src => Sys2Proof.Machine.execNeg dst src s
  | .eq a b => Sys2Proof.Machine.execEq a b s
  | .lt a b => Sys2Proof.Machine.execLt a b s
  | .le a b => Sys2Proof.Machine.execLe a b s
  | .jmp off => Sys2Proof.Machine.execJmp off s
  | .jmpIf cond off => Sys2Proof.Machine.execJmpIf cond off s
  | .call func argc => Sys2Proof.Machine.execCall func argc s
  | .ret start count => Sys2Proof.Machine.execReturn start count s
  | .newObject dst => Sys2Proof.Machine.execNewObject dst s
  | .newArray dst => Sys2Proof.Machine.execNewArray dst s
  | .getProp dst obj key => Sys2Proof.Machine.execGetProp dst obj key s
  | .setProp obj key val => Sys2Proof.Machine.execSetProp obj key val s
  | .getElem dst arr idx => Sys2Proof.Machine.execGetElem dst arr idx s
  | .setElem arr idx val => Sys2Proof.Machine.execSetElem arr idx val s
  | .closure dst target => Sys2Proof.Machine.execClosure dst target s
  | .getScope dst var => Sys2Proof.Machine.execGetScope dst var s
  | .setScope var src => Sys2Proof.Machine.execSetScope var src s
  | .typeOf dst src => Sys2Proof.Machine.execTypeOf dst src s
  | .instanceOf dst obj ctor => Sys2Proof.Machine.execInstanceOf dst obj ctor s
  | .declareFunc dst => Sys2Proof.Machine.execDeclareFunc dst s
  | .declareVar var => Sys2Proof.Machine.execDeclareVar var s
  | .useStrict => Sys2Proof.Machine.execUseStrict s

end Sys2Proof.Machine
end

