-- ==== Sys2Proof/Machine/Fetch.lean ====
section
/-! DEFINITION. Machine/Fetch.lean: the fetch at the top of a cycle (10_state.md R20, 30_encoding.md R68, R69). -/

namespace Sys2Proof.Machine

/-- What a fetch finds. -/
inductive Fetched
  /-- `pc = PROG_LEN`: the normal end of the run. -/
  | endOfProgram
  /-- `pc < 0` or `pc > PROG_LEN`. -/
  | outOfRange
  /-- A word that is no instruction. -/
  | illegal (why : Illegal)
  /-- The instruction to execute. -/
  | instruction (i : Instr)
deriving DecidableEq, Repr

/-- The instruction at an index of the program, decoded in the word form. -/
def Program.at (p : Program) (n : Nat) : Fetched :=
  match p with
  | .abstractForm code =>
    match code[n]? with
    | some i => .instruction i
    | none => .outOfRange
  | .wordForm words =>
    match words[n]? with
    | some w =>
      match decode w with
      | .ok i => .instruction i
      | .error e => .illegal e
    | none => .outOfRange

/-- The fetch (10_state.md R20): exactly `PROG_LEN` ends the run, anything else outside the program is out of range. -/
def fetch (s : State) : Fetched :=
  if s.pc = s.prog.length then .endOfProgram
  else if s.pc < 0 then .outOfRange
  else s.prog.at s.pc.toNat

/-- The index at which `withFetchWord` places its word: the program counter where it can index a program (10_state.md R13,
`PROG_LEN <= 2^32`), else 0. -/
def fetchIndex (s : State) : Nat := if 0 ≤ s.pc ∧ s.pc < 2 ^ 32 then s.pc.toNat else 0

end Sys2Proof.Machine
end

