-- ==== Sys2Proof/Machine/Step.lean ====
section
/-! DEFINITION. Machine/Step.lean: one cycle of the engine (10_state.md R20, R21, R28). -/

namespace Sys2Proof.Machine

/-- One step: fetch, decode, execute; a halted engine has no step (R28). The instruction's own meaning moves `pc`. -/
def step (s : State) : Host.Outcome State Fault Refusal :=
  match s.run with
  | .haltedOk => .fault .halted
  | .haltedFault => .fault .halted
  | .running =>
    match fetch s with
    | .endOfProgram => .next s.haltOk
    | .outOfRange => raise .pcOutOfRange s
    | .illegal _ => raise .illegalInstruction s
    | .instruction i => exec i s

/-- The state with a word at the place the next step fetches from (log entry 1): the program is in the word form with that
word at `pc` (its other words kept, an abstract program encoded), and the engine is running. -/
def State.withFetchWord (s : State) (nbits w : Nat) : State :=
  { s with
    prog := .wordForm (placeWord s.prog.words (fetchIndex s) (tableWord nbits w))
    pc := (fetchIndex s : Int)
    run := .running }

end Sys2Proof.Machine
end

