-- ==== Sys2Proof/Machine/Run.lean ====
section
/-! DEFINITION. Machine/Run.lean: the run operation (70_reset_and_hazards.md R214, R223). -/

namespace Sys2Proof.Machine

/-- The loop of R214, under fuel (R223: "An executable model runs under fuel"): step while `RUN` is running. It answers the
state reached, which is still running only where the fuel was used up; a step that has no next state ends it. -/
def runFor : Nat → State → Result
  | 0, s => .next s
  | fuel + 1, s =>
    match s.run with
    | .running =>
      match step s with
      | .next t => runFor fuel t
      | .fault r => .fault r
      | .refused r => .refused r
    | .haltedOk => .next s
    | .haltedFault => .next s

/-- The run operation (R214): from `s` the run ends, in `t`. A run need not end (R223). -/
def RunsTo (s t : State) : Prop := ∃ fuel, runFor fuel s = .next t ∧ t.run ≠ .running

end Sys2Proof.Machine
end

