-- ==== Sys2Proof/WellFormed.lean ====
section
/-! DEFINITION. WellFormed.lean: the contract on operands of 30_encoding.md R60 and R61. -/

namespace Sys2Proof

/-- Every register field of an instruction, used or not, in assembly order (30_encoding.md R62). -/
def Instr.registerFields : Instr → List Nat
  | .loadConst dst _ | .loadUndef dst | .loadNull dst | .loadBool dst _ => [dst]
  | .move dst src | .neg dst src | .typeOf dst src => [dst, src]
  | .add dst a b | .sub dst a b | .mul dst a b | .div dst a b | .mod dst a b | .pow dst a b => [dst, a, b]
  | .eq a b | .lt a b | .le a b => [a, b]
  | .jmp _ | .declareVar _ | .useStrict => []
  | .jmpIf cond _ => [cond]
  | .call func _ => [func]
  | .ret start _ => [start]
  | .newObject dst | .newArray dst | .declareFunc dst | .closure dst _ | .getScope dst _ => [dst]
  | .getProp dst obj key => [dst, obj, key]
  | .setProp obj key val => [obj, key, val]
  | .getElem dst arr idx => [dst, arr, idx]
  | .setElem arr idx val => [arr, idx, val]
  | .setScope _ src => [src]
  | .instanceOf dst obj ctor => [dst, obj, ctor]

/-- "no instruction may carry an operand value outside its documented width" (30_encoding.md R60): every register
field is 0 to 255. The other operands have their widths by their types, so this is the whole contract. -/
def Instr.wellFormed (i : Instr) : Bool :=
  i.registerFields.all (· < numRegs)

end Sys2Proof
end

