-- ==== Sys2Proof/Safety.lean ====
section
/-! DEFINITION. Safety.lean: the terms the claims use: the invariants the spec states of every reachable state, and what
it means for a binary64 to be a correctly rounded exact result. -/

namespace Sys2Proof.Machine

/-- The registers an instruction uses, the ones 10_state.md R18 checks (R17): every register field but `Return.start`. -/
def usedRegisters : Instr → List Nat
  | .ret _ _ => []
  | i => i.registerFields

/-- The registers an instruction writes (10_state.md R17): the comparisons write register 0 and no other. -/
def writtenRegisters : Instr → List Nat
  | .loadConst dst _ | .loadUndef dst | .loadNull dst | .loadBool dst _ => [dst]
  | .move dst _ | .neg dst _ | .typeOf dst _ => [dst]
  | .add dst _ _ | .sub dst _ _ | .mul dst _ _ | .div dst _ _ | .mod dst _ _ | .pow dst _ _ => [dst]
  | .eq _ _ | .lt _ _ | .le _ _ => [0]
  | .newObject dst | .newArray dst | .declareFunc dst | .closure dst _ | .getScope dst _ => [dst]
  | .getProp dst _ _ | .getElem dst _ _ | .instanceOf dst _ _ => [dst]
  | .jmp _ | .jmpIf _ _ | .call _ _ | .ret _ _ | .setProp _ _ _ | .setElem _ _ _ => []
  | .setScope _ _ | .declareVar _ | .useStrict => []

/-- The counter after an instruction that raised nothing (10_state.md R22): what the instruction set it to, or one more. -/
def PcAfter (i : Instr) (s : State) (pc' : Int) : Prop :=
  match i with
  | .jmp off => pc' = s.pc + off.toInt
  | .jmpIf cond off =>
    (s.reg cond = .boolean true ∧ pc' = s.pc + off.toInt) ∨ (s.reg cond ≠ .boolean true ∧ pc' = s.pc + 1)
  | .call func _ => ∃ n, s.reg func = .function n ∧ pc' = (n.toNat : Int)
  | .ret _ _ => s.callStack.head? = some pc'
  | _ => pc' = s.pc + 1

/-- 10_state.md R26: the scope stack is one deeper than the call stack. -/
abbrev StacksMatch (s : State) : Prop := s.scopes.length = s.callStack.length + 1

/-- 10_state.md R24 and R34: every saved counter indexes the program (which has at most 2^32 instructions), and `pc` is in
the range in which a 34-bit register holds it. -/
abbrev CountersBounded (s : State) : Prop :=
  s.prog.length ≤ 2 ^ 32 ∧ (∀ e ∈ s.callStack, 0 ≤ e ∧ e < s.prog.length) ∧ -2 ^ 31 ≤ s.pc ∧ s.pc < 2 ^ 32 + 2 ^ 31

/-- A Value whose handle, if it has one, names a cell of its kind (20_memory.md R43). -/
def HandleOk (m : Heap) : Value → Prop
  | .object h => ∃ o, Heap.cell m h = some (.obj o)
  | .array h => ∃ a, Heap.cell m h = some (.arr a)
  | _ => True

/-- Every Value of a cell is `HandleOk`. -/
def CellHandlesOk (m : Heap) : HeapCell → Prop
  | .obj o => ∀ e ∈ o, HandleOk m e.2
  | .arr a => ∀ v ∈ a, HandleOk m v

/-- 20_memory.md R43, R46, R57: every handle held by any Value anywhere in the machine names a cell of its kind, and
`NEXT_HANDLE` is above every handle of the heap. -/
structure HandlesOk (s : State) : Prop where
  regs : ∀ r < numRegs, HandleOk s.heap (s.reg r)
  pool : ∀ v ∈ s.pool, HandleOk s.heap v
  cells : ∀ p ∈ s.heap, CellHandlesOk s.heap p.2
  scopes : ∀ m ∈ s.scopes, ∀ e ∈ m, HandleOk s.heap e.2
  fresh : ∀ p ∈ s.heap, p.1 < s.nextHandle

/-- A Value that refers to a cell. -/
def IsAggregate : Value → Prop
  | .object _ | .array _ => True
  | _ => False

/-- The well-formed construction input of 20_memory.md R57: handles name cells of their kind, and there are no cells where
the pool holds no aggregate. -/
structure InputOk (pool : List Value) (heap0 : Heap) : Prop where
  noneNeeded : (∀ v ∈ pool, ¬ IsAggregate v) → heap0 = []
  pool : ∀ v ∈ pool, HandleOk heap0 v
  cells : ∀ p ∈ heap0, CellHandlesOk heap0 p.2

/-- A Value stands in a cell. -/
def CellHolds (v : Value) : HeapCell → Prop
  | .obj o => ∃ e ∈ o, e.2 = v
  | .arr a => v ∈ a

/-- A Value stands somewhere in the machine: in a register, the pool, a cell or a scope (20_memory.md R46). -/
def Holds (s : State) (v : Value) : Prop :=
  (∃ r < numRegs, s.reg r = v) ∨ v ∈ s.pool ∨ (∃ p ∈ s.heap, CellHolds v p.2) ∨ ∃ m ∈ s.scopes, ∃ e ∈ m, e.2 = v

/-- The model's canonical form of the finite maps of 20_memory.md R43, R44 and R48 (log entry 8). -/
abbrev MapsCanonical (s : State) : Prop := Heap.wf s.heap ∧ ∀ m ∈ s.scopes, Mapping.wf m

/-- A number of things within a capacity (20_memory.md R59). -/
def Within (used : Nat) : Option Nat → Prop
  | none => True
  | some m => used ≤ m

/-- A Value whose bytes, if it is a String, are within the capacity of one String (20_memory.md R59). -/
def StringWithin (cfg : Config) : Value → Prop
  | .string t => Within t.length cfg.maxStringBytes
  | _ => True

/-- A cell within the capacities of one object and one array, its keys and Values within that of one String. -/
def CellWithin (cfg : Config) : HeapCell → Prop
  | .obj o =>
    Within o.length cfg.maxObjectKeys ∧ ∀ e ∈ o, Within e.1.length cfg.maxStringBytes ∧ StringWithin cfg e.2
  | .arr a => a.length ≤ cfg.maxArrayLen ∧ ∀ v ∈ a, StringWithin cfg v

/-- 20_memory.md R59: no capacity is exceeded, that of one String by no Value anywhere in the machine. -/
structure WithinCapacities (s : State) : Prop where
  calls : Within s.callStack.length s.cfg.maxCallDepth
  heap : Within s.heap.length s.cfg.maxHeapCells
  cells : ∀ p ∈ s.heap, CellWithin s.cfg p.2
  scopes : ∀ m ∈ s.scopes, Within m.length s.cfg.maxScopeEntries ∧ ∀ e ∈ m, StringWithin s.cfg e.2
  regs : ∀ r < numRegs, StringWithin s.cfg (s.reg r)
  pool : ∀ v ∈ s.pool, StringWithin s.cfg v

/-- The keys of the scope mappings are Strings too (20_memory.md R48), within the capacity of one String where `SCOPE_KEY`
gives none beyond it. R59 names no condition for them, and the decimal default has keys of ten bytes (log entry 13). -/
abbrev ScopeKeysWithin (s : State) : Prop :=
  (∀ i, Within (scopeKey s.cfg i).length s.cfg.maxStringBytes) →
    ∀ m ∈ s.scopes, ∀ e ∈ m, Within e.1.length s.cfg.maxStringBytes

/-- 10_state.md R29: the fault record is 0 until a fatal condition was raised; afterwards it holds a cause code and the `pc`
at which it was raised, which is still the `pc` (60_exceptions.md R181). -/
abbrev FaultRecordOk (s : State) : Prop :=
  (s.run ≠ .haltedFault → s.faultCause = 0 ∧ s.faultPc = 0) ∧
  (s.run = .haltedFault → (∃ c : Cause, s.faultCause = c.code) ∧ s.faultPc = s.pc)

/-- 20_memory.md R48: every key of a scope mapping is `SCOPE_KEY(idx)` for some index. -/
abbrev ScopeKeysOk (s : State) : Prop := ∀ m ∈ s.scopes, ∀ e ∈ m, ∃ i : U32, e.1 = scopeKey s.cfg i

/-- `pc` is at an instruction of the program, and the instruction is legal (10_state.md R20, 30_encoding.md R69). -/
abbrev Fetches (s : State) (i : Instr) : Prop := fetch s = .instruction i

/-- A NaN-free Number below another (42_compare.md R107): `-Inf` below everything else, `+Inf` above, finite Numbers by
their real values. -/
def NumberBelow (f g : F64) : Prop :=
  fIsNaN f = false ∧ fIsNaN g = false ∧
    ((f = infOf true ∧ g ≠ infOf true) ∨ (f ≠ infOf false ∧ g = infOf false) ∨
      (fIsFinite f = true ∧ fIsFinite g = true ∧ fUnits f < fUnits g))

/-- The pairs of Values that have an order (42_compare.md R107), NaNs apart (R116). -/
def Comparable : Value → Value → Prop
  | .number f, .number g => fIsNaN f = false ∧ fIsNaN g = false
  | .string _, .string _ | .boolean _, .boolean _ | .function _, .function _ => True
  | _, _ => False

/-- The order of 42_compare.md R107: Strings lexicographically by unsigned bytes (R108), `false < true`, Functions by index. -/
def Below : Value → Value → Prop
  | .number f, .number g => NumberBelow f g
  | .string s, .string t => List.Lex (fun b c : Byte => b.toNat < c.toNat) s t
  | .boolean p, .boolean q => p = false ∧ q = true
  | .function m, .function n => m.toNat < n.toNat
  | _, _ => False

/-- The equality of 42_compare.md R105. -/
def SameValue : Value → Value → Prop
  | .number f, .number g =>
    fIsNaN f = false ∧ fIsNaN g = false ∧ (f = g ∨ (fIsFinite f = true ∧ fIsFinite g = true ∧ fUnits f = fUnits g))
  | v, w => v = w

/-- The position an index Number names (44_aggregate.md R146): `p <= |f| < p + 1`, and 0 for a negative `f` (which is then
above -1). -/
def IndexNames (f : F64) (p : Nat) : Prop :=
  fIsFinite f = true ∧ p * unitsPerOne ≤ fMagnitude f ∧ fMagnitude f < (p + 1) * unitsPerOne ∧ (fSign f = true → p = 0)

/-- `r` is the real number `x^k` for finite `x` and an integer `k` (41_arithmetic.md R101, P2), cleared of denominators. -/
def IsPower (x r : F64) (k : Int) : Prop :=
  if 0 ≤ k then fUnits r * (unitsPerOne : Int) ^ k.toNat = fUnits x ^ k.toNat * unitsPerOne
  else fUnits r * fUnits x ^ (-k).toNat = (unitsPerOne : Int) ^ (-k).toNat * unitsPerOne

/-- The instruction completes with one effect on the state beside the counter: register `dst` holds `v`. Nothing else
changes: every other register, both stacks, every cell, `STRICT`, `RUN` and the fault record are as before. -/
def WritesValue (i : Instr) (s : State) (dst : Nat) (v : Value) : Prop :=
  exec i s = .next { s with regs := s.regs.setIfInBounds dst v, pc := s.pc + 1 }

/-- As `WritesValue`, with a Number that is some NaN (41_arithmetic.md R91); the model's count of draws advances. -/
def WritesNaN (i : Instr) (s : State) (dst : Nat) : Prop :=
  ∃ f : F64, fIsNaN f = true ∧
    exec i s = .next { s with
      regs := s.regs.setIfInBounds dst (.number f), pc := s.pc + 1, nanDraws := s.nanDraws + 1 }

/-- The instruction raises a fatal condition of that cause code (60_exceptions.md R181): the fault record and the run state
are written, and nothing else. -/
def Traps (i : Instr) (s : State) (code : BitVec 8) : Prop :=
  exec i s = .next { s with faultCause := code, faultPc := s.pc, run := .haltedFault }

/-- There is room for one more under a capacity (20_memory.md R59). -/
def HasRoom (used : Nat) (cap : Option Nat) : Prop := ∀ m, cap = some m → used < m

/-- A finite Number that is an integer. -/
def IsIntegral (f : F64) : Prop := unitsPerOne ∣ fMagnitude f

/-- A finite Number that is an odd integer. -/
def IsOdd (f : F64) : Prop := ∃ k : Nat, fMagnitude f = (2 * k + 1) * unitsPerOne

/-- The overflow threshold of binary64 in units of 2^-1074: halfway between the largest finite value and 2^1024. At or above
it, roundTiesToEven gives an infinity. -/
def overflowUnits : Nat := (2 ^ 54 - 1) * 2 ^ 2044

/-- `r` is the exact value `n / d` (`n` in units of 2^-1074, `d > 0`) rounded once to binary64 by roundTiesToEven
(41_arithmetic.md R90): an infinity of the sign of `n` at or beyond the overflow threshold; otherwise a finite value at
least as near as every finite binary64, with an even last bit where another value is as near. `neg` is the sign of the
result, also where it underflows to a zero. -/
def RoundsTo (neg : Bool) (n : Nat) (d : Nat) (r : F64) : Prop :=
  fSign r = neg ∧
  (overflowUnits * d ≤ n → fIsInf r = true) ∧
  (n < overflowUnits * d → fIsFinite r = true ∧
    ∀ g : F64, fIsFinite g = true → fMagnitude g ≠ fMagnitude r →
      ((fMagnitude r * d : Nat) - n : Int).natAbs ≤ ((fMagnitude g * d : Nat) - n : Int).natAbs ∧
      (((fMagnitude r * d : Nat) - n : Int).natAbs = ((fMagnitude g * d : Nat) - n : Int).natAbs → r.toNat % 2 = 0))

/-- The real value of a finite Number. -/
noncomputable def realOf (f : F64) : ℝ := (fUnits f : ℝ) / (unitsPerOne : ℝ)

/-- The real `|x|^y` of two finite Numbers, which `POW` approximates (41_arithmetic.md R101). -/
noncomputable def realPower (x y : F64) : ℝ := |realOf x| ^ realOf y

end Sys2Proof.Machine
end

