-- ==== Sys2Proof/Certificates/Slice0/Obligations.lean ====
section
/-! DEFINITION. Certificates/Slice0/Obligations.lean: the statements for the provers, in the order of OBLIGATIONS.json. -/

open Sys2Proof Sys2Proof.Machine

/-! Encoding (30_encoding.md) -/

/-- 30_encoding.md section 4, the first half of the round trip (the spec marks it derived): "for every abstract instruction `I` whose operands are
within their widths, `decode(encode(I)) = I`". -/
def Obligations.DecodeEncodeRoundTrip : Prop :=
  ∀ i : Instr, i.wellFormed = true → decode (encode i) = .ok i

/-- 30_encoding.md section 4, the second half (the spec marks it derived): every legal word decodes to an instruction whose operands are within their
widths and which encodes back to that word. -/
def Obligations.EncodeDecodeLegalWord : Prop :=
  ∀ (w : Word) (i : Instr), decode w = .ok i → i.wellFormed = true ∧ encode i = w

/-- 30_encoding.md section 3: a word is an instruction of a row exactly when the row's mask and pattern say so, and a word
that matches no row is illegal. -/
def Obligations.OpcodeTableDecidesDecoding : Prop :=
  (∀ row ∈ opcodeTable, ∀ w : Word,
    w &&& row.mask = row.pattern ↔ ∃ i, decode w = .ok i ∧ i.mnemonic = row.mnemonic) ∧
  (∀ w : Word, (∀ row ∈ opcodeTable, w &&& row.mask ≠ row.pattern) → ∃ e, decode w = .error e)

/-- Words written out from 30_encoding.md's fields, one per family, decode to the instructions they stand for. -/
def Obligations.SampleWordsDecode : Prop :=
  decode 0x0107000000000001 = .ok (.loadConst 7 1) ∧
  decode 0x0602000100000000 = .ok (.add 2 0 1) ∧
  decode 0x0E04020000000000 = .ok (.lt 4 2) ∧
  decode 0x11030000FFFFFFFB = .ok (.jmpIf 3 (-5)) ∧
  decode 0x1901020300000000 = .ok (.setElem 1 2 3) ∧
  decode 0x1C0100000000002A = .ok (.setScope 42 1) ∧
  decode 0x1E03010200000000 = .ok (.instanceOf 3 1 2)

/-! The step (10_state.md, 60_exceptions.md) -/

/-- 10_state.md section 3, the step cycle: where `pc` indexes a legal word, or an abstract instruction, the step is the
meaning of that instruction at that state; the step adds nothing around it. -/
def Obligations.StepRunsTheFetchedInstruction : Prop :=
  (∀ (s : State) (words : List Word) (w : Word) (i : Instr),
    s.run = .running → s.prog = .wordForm words → 0 ≤ s.pc → words[s.pc.toNat]? = some w → decode w = .ok i →
      step s = exec i s) ∧
  (∀ (s : State) (code : List Instr) (i : Instr),
    s.run = .running → s.prog = .abstractForm code → 0 ≤ s.pc → code[s.pc.toNat]? = some i →
      step s = exec i s)

/-- 10_state.md R20: exactly `PROG_LEN` ends the run; a negative or larger counter is fatal; otherwise the instruction there
is executed, and an illegal word is fatal (30_encoding.md section 4). -/
def Obligations.FetchFollowsTheCounter : Prop :=
  ∀ s : State, s.run = .running →
    (s.pc = s.prog.length → step s = .next { s with run := .haltedOk }) ∧
    (s.pc < 0 ∨ s.prog.length < s.pc →
      step s = .next { s with faultCause := 0x33, faultPc := s.pc, run := .haltedFault }) ∧
    (0 ≤ s.pc → s.pc < s.prog.length →
      match s.prog with
      | .abstractForm code => ∃ i, code[s.pc.toNat]? = some i ∧ step s = exec i s
      | .wordForm words => ∃ w, words[s.pc.toNat]? = some w ∧
          ((∃ i, decode w = .ok i ∧ step s = exec i s) ∨
           ((∃ e, decode w = .error e) ∧
             step s = .next { s with faultCause := 0x40, faultPc := s.pc, run := .haltedFault })))

/-- 10_state.md section 6: "A halted engine has no step." -/
def Obligations.HaltedEngineHasNoStep : Prop :=
  ∀ s : State, s.run ≠ .running → step s = .fault .halted

/-- 60_exceptions.md R181: whatever raised it, a fatal condition writes the cause, the counter and the run state, and
nothing else. -/
def Obligations.FatalConditionsArePrecise : Prop :=
  ∀ s t : State, step s = .next t → t.run = .haltedFault →
    ∃ c : Cause, t = { s with faultCause := c.code, faultPc := s.pc, run := .haltedFault }

/-- 00_scope.md section 7: from any running state whose handles are well formed and whose `pc` indexes the program, the step
yields a next state, either still running or halted by a fatal condition: no refusal, no missing meaning. -/
def Obligations.EveryInstructionHasAnOutcome : Prop :=
  ∀ s : State, HandlesOk s → s.run = .running → 0 ≤ s.pc → s.pc < s.prog.length →
    ∃ t, step s = .next t ∧ (t.run = .running ∨ t.run = .haltedFault)

/-- 10_state.md R22: the counter after every instruction that raised nothing. -/
def Obligations.CounterAfterEveryInstruction : Prop :=
  ∀ (i : Instr) (s t : State), s.run = .running → exec i s = .next t → t.run = .running → PcAfter i s t.pc

/-! Invariants -/

/-- The invariant of 10_state.md section 4 (the spec's own inference, marked derived): the scope stack is one deeper than the
call stack at construction and after every step. -/
def Obligations.StackDepthsStayMatched : Prop :=
  (∀ prog pool heap0 cfg, StacksMatch (State.construct prog pool heap0 cfg)) ∧
  (∀ s t : State, StacksMatch s → step s = .next t → StacksMatch t)

/-- The bounds of 10_state.md sections 3 and 4 on `pc` and the saved counters (the spec's own inference, marked derived): at
construction of a program of at most 2^32 instructions, and after every step. -/
def Obligations.CountersStayBounded : Prop :=
  (∀ prog pool heap0 cfg, prog.length ≤ 2 ^ 32 → CountersBounded (State.construct prog pool heap0 cfg)) ∧
  (∀ s t : State, CountersBounded s → step s = .next t → CountersBounded t)

/-- 20_memory.md sections 1 and 4 (the spec's consequence of how handles arise): every handle anywhere names a cell of its kind, and `NEXT_HANDLE` stays fresh. -/
def Obligations.HandlesStayWellFormed : Prop :=
  ∀ s t : State, HandlesOk s → step s = .next t → HandlesOk t

/-- 20_memory.md section 4: with legal parameters (there: `MAX_STRING_BYTES` at least 9) none of the six capacities is ever
exceeded; with the model's canonical form of the maps (log entry 8), on which the counting rests. The keys of scopes are
within `MAX_STRING_BYTES` where `SCOPE_KEY` gives none beyond it (log entry 13). -/
def Obligations.CapacitiesAndCanonicalFormHold : Prop :=
  ∀ s t : State, s.cfg.legal → MapsCanonical s → WithinCapacities s → ScopeKeysWithin s → step s = .next t →
    t.cfg.legal ∧ MapsCanonical t ∧ WithinCapacities t ∧ ScopeKeysWithin t

/-- 10_state.md R29: the fault record is written only on entry to `halted_fault`, with a cause code and the `pc`; it is 0
before, and in `halted_ok`. -/
def Obligations.FaultRecordStaysHonest : Prop :=
  (∀ prog pool heap0 cfg, FaultRecordOk (State.construct prog pool heap0 cfg)) ∧
  (∀ s t : State, FaultRecordOk s → step s = .next t → FaultRecordOk t)

/-- 20_memory.md section 1: "no instruction writes a scope under any other key". -/
def Obligations.ScopeKeysStaySynthesized : Prop :=
  ∀ s t : State, ScopeKeysOk s → step s = .next t → ScopeKeysOk t

/-- Every invariant holds at the model's reset state, whose empty inputs and default parameters are the model's choice (log
entries 1 and 2). -/
def Obligations.ResetMeetsEveryInvariant : Prop :=
  StacksMatch State.reset ∧ CountersBounded State.reset ∧ HandlesOk State.reset ∧ MapsCanonical State.reset ∧
  WithinCapacities State.reset ∧ ScopeKeysWithin State.reset ∧ FaultRecordOk State.reset ∧ ScopeKeysOk State.reset ∧
  State.reset.cfg.legal

/-- 20_memory.md section 4: construction from a well-formed input, within its capacities and in the model's canonical form
(log entry 8), meets every invariant; the bounds of the counters for a program of at most 2^32 instructions. -/
def Obligations.ConstructionMeetsEveryInvariant : Prop :=
  ∀ prog pool heap0 cfg, InputOk pool heap0 → Heap.wf heap0 → Within heap0.length cfg.maxHeapCells →
    (∀ p ∈ heap0, CellWithin cfg p.2) → (∀ v ∈ pool, StringWithin cfg v) →
      let s := State.construct prog pool heap0 cfg
      HandlesOk s ∧ MapsCanonical s ∧ WithinCapacities s ∧ ScopeKeysWithin s ∧ ScopeKeysOk s ∧ StacksMatch s ∧
      FaultRecordOk s ∧ (prog.length ≤ 2 ^ 32 → CountersBounded s)

/-- 70_reset_and_hazards.md R210, with the values of R211's table: what construction leaves in every piece of state. -/
def Obligations.ConstructionValues : Prop :=
  ∀ prog pool heap0 cfg,
    let s := State.construct prog pool heap0 cfg
    (∀ r < numRegs, s.reg r = .undefined) ∧ s.pc = 0 ∧ s.callStack = [] ∧ s.scopes = [[]] ∧ s.strict = false ∧
    s.run = .running ∧ s.faultCause = 0 ∧ s.faultPc = 0 ∧ s.heap = heap0 ∧ s.prog = prog ∧ s.pool = pool ∧
    (∀ p ∈ heap0, p.1 < s.nextHandle) ∧ (heap0 = [] → s.nextHandle = 0) ∧
    (heap0 ≠ [] → ∃ p ∈ heap0, s.nextHandle = p.1 + 1)

/-! Rules over all instructions -/

/-- 20_memory.md section 1 and 10_state.md section 7: the program and the pool never change; 00_scope.md section 7: nor do the parameters, which the
model holds in the state (log entry 2). 10_state.md section 5: `UseStrict` sets the strict flag, and no other instruction
writes it. -/
def Obligations.ConstantsStayAndStrictOnlyRises : Prop :=
  (∀ s t : State, step s = .next t → t.prog = s.prog ∧ t.pool = s.pool ∧ t.cfg = s.cfg) ∧
  (∀ (i : Instr) (s t : State), exec i s = .next t →
    (i = .useStrict → t.strict = true) ∧ (i ≠ .useStrict → t.strict = s.strict))

/-- 10_state.md section 5: "no rule of this spec reads `STRICT`": two states that differ in the flag alone make steps whose
outcomes differ in the flag alone. -/
def Obligations.StrictFlagIsNeverRead : Prop :=
  ∀ (s t : State) (b : Bool), step s = .next t → ∃ c : Bool, step { s with strict := b } = .next { t with strict := c }

/-- 10_state.md section 4 and 45_scope_func.md section 1: an instruction other than `Call` and `Return` leaves the call stack
and every scope below the top alone. -/
def Obligations.StacksMoveOnlyByCallAndReturn : Prop :=
  ∀ (i : Instr) (s t : State), exec i s = .next t →
    (∀ func argc, i ≠ .call func argc) → (∀ start count, i ≠ .ret start count) →
      t.callStack = s.callStack ∧ t.scopes.length = s.scopes.length ∧ t.scopes.tail = s.scopes.tail

/-- 20_memory.md section 1: no instruction removes a cell, changes its kind, removes a key or shortens an array (in a state
whose `NEXT_HANDLE` is fresh). -/
def Obligations.CellsKeepKindAndOnlyGrow : Prop :=
  ∀ (i : Instr) (s t : State), (∀ p ∈ s.heap, p.1 < s.nextHandle) → exec i s = .next t → ∀ h : Nat,
    (∀ m, Heap.cell s.heap h = some (.obj m) →
      ∃ m', Heap.cell t.heap h = some (.obj m') ∧ ∀ k, Mapping.get m k ≠ none → Mapping.get m' k ≠ none) ∧
    (∀ a, Heap.cell s.heap h = some (.arr a) → ∃ a', Heap.cell t.heap h = some (.arr a') ∧ a.length ≤ a'.length)

/-- The table of 10_state.md section 2 (the spec's own inference, marked derived): an instruction writes no register but
those of its row, register 0 for a comparison. -/
def Obligations.RegisterWritesFollowTheTable : Prop :=
  ∀ (i : Instr) (s t : State), exec i s = .next t → ∀ r < numRegs, r ∉ writtenRegisters i → t.reg r = s.reg r

/-- 10_state.md section 2, out-of-range registers (its last clause the spec marks derived): a used register operand above 255 is fatal before any other check; unused operand fields are not
checked (`Return` behaves the same whatever they are); the word form cannot carry such an index. -/
def Obligations.RegisterIndexCheck : Prop :=
  (∀ (i : Instr) (s : State), (∃ r ∈ usedRegisters i, numRegs ≤ r) → Traps i s 0x31) ∧
  (∀ (s : State) (start start' : Nat) (count count' : Byte), exec (.ret start count) s = exec (.ret start' count') s) ∧
  (∀ (s : State) (func : Nat) (argc argc' : Byte), exec (.call func argc) s = exec (.call func argc') s) ∧
  (∀ (w : Word) (i : Instr), decode w = .ok i → ∀ r ∈ usedRegisters i, r < numRegs)

/-- 44_aggregate.md, `NewObject` and `NewArray`, and 20_memory.md section 1: each allocation gives a handle that no Value
held, in a register, the pool, a cell or a scope; so two aggregates made in turn are not equal. -/
def Obligations.AllocatedObjectsAreDistinct : Prop :=
  (∀ (s t : State) (dst : Nat), HandlesOk s → s.run = .running →
    (exec (.newObject dst) s = .next t → t.run = .running →
      ∃ h, t.reg dst = .object h ∧ Heap.cell s.heap h = none ∧ ¬ Holds s (.object h) ∧ ¬ Holds s (.array h)) ∧
    (exec (.newArray dst) s = .next t → t.run = .running →
      ∃ h, t.reg dst = .array h ∧ Heap.cell s.heap h = none ∧ ¬ Holds s (.object h) ∧ ¬ Holds s (.array h))) ∧
  (∀ (s t u v : State) (i j : Nat → Instr) (r q : Nat), (i = .newObject ∨ i = .newArray) →
    (j = .newObject ∨ j = .newArray) → r ≠ q → s.run = .running →
    exec (i r) s = .next t → t.run = .running → exec (j q) t = .next u → u.run = .running →
      exec (.eq r q) u = .next v → v.reg 0 = .boolean false)

/-- 43_control.md sections on `Call` and `Return`: a `Return` that finds the call's frame on top restores the counter of the
`Call` itself and both stacks, whatever the callee did to registers, heap and its own scope. -/
def Obligations.ReturnUndoesCall : Prop :=
  ∀ (s t u : State) (func start : Nat) (argc count : Byte) (m : Mapping),
    s.run = .running → exec (.call func argc) s = .next t → t.run = .running →
    u.callStack = t.callStack → u.scopes = m :: t.scopes.tail →
      exec (.ret start count) u = .next { u with pc := s.pc, callStack := s.callStack, scopes := s.scopes }

/-! Loads and move (40_load_move.md) -/

/-- `LoadConst`: the pool entry, of any variant, or the out-of-range fatal condition (60_exceptions.md R186). -/
def Obligations.LoadConstReadsThePool : Prop :=
  ∀ (s : State) (dst : Nat) (k : U32), dst < numRegs →
    (∀ v, s.pool[k.toNat]? = some v → WritesValue (.loadConst dst k) s dst v) ∧
    (s.pool.length ≤ k.toNat → Traps (.loadConst dst k) s 0x30)

/-- `LoadUndef`, `LoadNull`, `LoadBool` and `Move` write one register and nothing else. -/
def Obligations.LoadsAndMoveWriteOneRegister : Prop :=
  ∀ (s : State) (dst src : Nat) (b : Bool), dst < numRegs → src < numRegs →
    WritesValue (.loadUndef dst) s dst .undefined ∧
    WritesValue (.loadNull dst) s dst .null ∧
    WritesValue (.loadBool dst b) s dst (.boolean b) ∧
    WritesValue (.move dst src) s dst (s.reg src)

/-! Arithmetic (41_arithmetic.md) -/

/-- `Add` and `Sub` on any two Numbers: the exact sum or difference rounded once, the sign of an exact zero, infinities, and
some NaN for the invalid operations and NaN operands. -/
def Obligations.AddSubFollowIeee : Prop :=
  ∀ (s : State) (dst a b : Nat) (x y : F64), dst < numRegs → a < numRegs → b < numRegs →
    s.reg a = .number x → s.reg b = .number y →
    (fIsFinite x = true → fIsFinite y = true →
      (fUnits x + fUnits y ≠ 0 → ∃ r, WritesValue (.add dst a b) s dst (.number r) ∧
        RoundsTo (decide (fUnits x + fUnits y < 0)) (fUnits x + fUnits y).natAbs 1 r) ∧
      (fUnits x + fUnits y = 0 →
        WritesValue (.add dst a b) s dst (.number (zeroOf (fSign x && fSign y)))) ∧
      (fUnits x - fUnits y ≠ 0 → ∃ r, WritesValue (.sub dst a b) s dst (.number r) ∧
        RoundsTo (decide (fUnits x - fUnits y < 0)) (fUnits x - fUnits y).natAbs 1 r) ∧
      (fUnits x - fUnits y = 0 →
        WritesValue (.sub dst a b) s dst (.number (zeroOf (fSign x && !fSign y))))) ∧
    (fIsNaN x = true ∨ fIsNaN y = true → WritesNaN (.add dst a b) s dst ∧ WritesNaN (.sub dst a b) s dst) ∧
    (fIsInf x = true → fIsFinite y = true →
      WritesValue (.add dst a b) s dst (.number x) ∧ WritesValue (.sub dst a b) s dst (.number x)) ∧
    (fIsFinite x = true → fIsInf y = true →
      WritesValue (.add dst a b) s dst (.number y) ∧
      WritesValue (.sub dst a b) s dst (.number (infOf (!fSign y)))) ∧
    (fIsInf x = true → fIsInf y = true →
      (fSign x = fSign y → WritesValue (.add dst a b) s dst (.number x) ∧ WritesNaN (.sub dst a b) s dst) ∧
      (fSign x ≠ fSign y → WritesNaN (.add dst a b) s dst ∧ WritesValue (.sub dst a b) s dst (.number x)))

/-- `Mul` and `Div` on any two Numbers: the exact product or quotient rounded once; division by zero is not fatal. -/
def Obligations.MulDivFollowIeee : Prop :=
  ∀ (s : State) (dst a b : Nat) (x y : F64), dst < numRegs → a < numRegs → b < numRegs →
    s.reg a = .number x → s.reg b = .number y →
    (fIsFinite x = true → fIsFinite y = true →
      (∃ r, WritesValue (.mul dst a b) s dst (.number r) ∧
        RoundsTo (fSign x != fSign y) (fMagnitude x * fMagnitude y) unitsPerOne r) ∧
      (fIsZero y = false → ∃ r, WritesValue (.div dst a b) s dst (.number r) ∧
        RoundsTo (fSign x != fSign y) (fMagnitude x * unitsPerOne) (fMagnitude y) r) ∧
      (fIsZero y = true → fIsZero x = false →
        WritesValue (.div dst a b) s dst (.number (infOf (fSign x != fSign y)))) ∧
      (fIsZero y = true → fIsZero x = true → WritesNaN (.div dst a b) s dst)) ∧
    (fIsNaN x = true ∨ fIsNaN y = true → WritesNaN (.mul dst a b) s dst ∧ WritesNaN (.div dst a b) s dst) ∧
    (fIsInf x = true → fIsFinite y = true →
      WritesValue (.div dst a b) s dst (.number (infOf (fSign x != fSign y))) ∧
      (fIsZero y = true → WritesNaN (.mul dst a b) s dst) ∧
      (fIsZero y = false → WritesValue (.mul dst a b) s dst (.number (infOf (fSign x != fSign y))))) ∧
    (fIsFinite x = true → fIsInf y = true →
      WritesValue (.div dst a b) s dst (.number (zeroOf (fSign x != fSign y))) ∧
      (fIsZero x = true → WritesNaN (.mul dst a b) s dst) ∧
      (fIsZero x = false → WritesValue (.mul dst a b) s dst (.number (infOf (fSign x != fSign y))))) ∧
    (fIsInf x = true → fIsInf y = true →
      WritesNaN (.div dst a b) s dst ∧
      WritesValue (.mul dst a b) s dst (.number (infOf (fSign x != fSign y))))

/-- `Mod`: the truncated remainder, exact, with the sign of the first operand; the NaN cases; `x mod Inf = x`. -/
def Obligations.ModIsTheExactTruncatedRemainder : Prop :=
  ∀ (s : State) (dst a b : Nat) (x y : F64), dst < numRegs → a < numRegs → b < numRegs →
    s.reg a = .number x → s.reg b = .number y →
    (fIsFinite x = true → fIsFinite y = true → fIsZero y = false →
      ∃ r, WritesValue (.mod dst a b) s dst (.number r) ∧ fIsFinite r = true ∧ fSign r = fSign x ∧
        fUnits r = (fUnits x).tmod (fUnits y)) ∧
    (fIsFinite x = true → fIsInf y = true → WritesValue (.mod dst a b) s dst (.number x)) ∧
    (fIsNaN x = true ∨ fIsNaN y = true ∨ fIsInf x = true ∨ fIsZero y = true → WritesNaN (.mod dst a b) s dst)

/-- `Pow`: the table of special cases (41_arithmetic.md section 3), each row under what the rows above it leave; for ordinary
operands some Number of the right sign that is no NaN, and an infinity where the real power is certainly too large. -/
def Obligations.PowFollowsTheSpecialCases : Prop :=
  ∀ (s : State) (dst a b : Nat) (x y : F64), dst < numRegs → a < numRegs → b < numRegs →
    s.reg a = .number x → s.reg b = .number y →
    let gives := fun r : F64 => WritesValue (.pow dst a b) s dst (.number r)
    (fIsZero y = true → gives fOne) ∧
    (x = fOne → gives fOne) ∧
    (fIsNaN x = true ∨ fIsNaN y = true → fIsZero y = false → x ≠ fOne → WritesNaN (.pow dst a b) s dst) ∧
    (fIsInf y = true → fIsNaN x = false →
      (x = fMinusOne → gives fOne) ∧
      (fIsFinite x = true → fMagnitude x < unitsPerOne →
        (y = infOf true → gives (infOf false)) ∧ (y = infOf false → gives (zeroOf false))) ∧
      (fIsInf x = true ∨ unitsPerOne < fMagnitude x →
        (y = infOf true → gives (zeroOf false)) ∧ (y = infOf false → gives (infOf false)))) ∧
    (fIsFinite y = true → fIsZero y = false →
      (x = infOf false → (fSign y = true → gives (zeroOf false)) ∧ (fSign y = false → gives (infOf false))) ∧
      (x = infOf true →
        (IsOdd y → (fSign y = true → gives (zeroOf true)) ∧ (fSign y = false → gives (infOf true))) ∧
        (¬ IsOdd y → (fSign y = true → gives (zeroOf false)) ∧ (fSign y = false → gives (infOf false)))) ∧
      (fIsZero x = true →
        (IsOdd y → (fSign y = true → gives (infOf (fSign x))) ∧ (fSign y = false → gives (zeroOf (fSign x)))) ∧
        (¬ IsOdd y → (fSign y = true → gives (infOf false)) ∧ (fSign y = false → gives (zeroOf false)))) ∧
      (fIsFinite x = true → fIsZero x = false → fSign x = true → ¬ IsIntegral y → WritesNaN (.pow dst a b) s dst) ∧
      (fIsFinite x = true → fIsZero x = false → (fSign x = true → IsIntegral y) →
        (∃ r, gives r ∧ fIsNaN r = false ∧ (fSign r = true ↔ fSign x = true ∧ IsOdd y)) ∧
        (2 * unitsPerOne ≤ fMagnitude x → 1024 * unitsPerOne ≤ fMagnitude y → fSign y = false →
          ∃ neg : Bool, gives (infOf neg) ∧ (neg = true ↔ fSign x = true ∧ IsOdd y))))

/-- `Pow`, the spec's assumptions P1 and P2 (41_arithmetic.md section 3), which the model takes as part of `POW` (log entry
4): `x^1 = x`, and an exactly representable integer power is that value. -/
def Obligations.PowIsExactWhereRepresentable : Prop :=
  ∀ (s : State) (dst a b : Nat) (x y : F64), dst < numRegs → a < numRegs → b < numRegs →
    s.reg a = .number x → s.reg b = .number y →
    (fIsNaN x = false → y = fOne → WritesValue (.pow dst a b) s dst (.number x)) ∧
    (∀ (k : Int) (r : F64), fIsFinite x = true → fIsZero x = false → fIsFinite y = true →
      fUnits y = k * unitsPerOne → fIsFinite r = true → IsPower x r k →
        WritesValue (.pow dst a b) s dst (.number r))

/-- `Neg`: bit 63 inverted, bits 62:0 unchanged, for every Number, NaNs included; no draw is made. -/
def Obligations.NegInvertsTheSignBit : Prop :=
  ∀ (s : State) (dst src : Nat) (x : F64), dst < numRegs → src < numRegs → s.reg src = .number x →
    ∃ r : F64, WritesValue (.neg dst src) s dst (.number r) ∧ fSign r = !fSign x ∧ r.toNat % 2 ^ 63 = x.toNat % 2 ^ 63

/-- 41_arithmetic.md R92, the operand check of the family: any operand that is not a Number is fatal, with no coercion, and nothing is written. -/
def Obligations.ArithmeticNeedsNumbers : Prop :=
  ∀ (s : State) (dst a b : Nat), dst < numRegs → a < numRegs → b < numRegs →
    ((∀ x, s.reg a ≠ .number x) ∨ (∀ y, s.reg b ≠ .number y) →
      Traps (.add dst a b) s 0x01 ∧ Traps (.sub dst a b) s 0x01 ∧ Traps (.mul dst a b) s 0x01 ∧
      Traps (.div dst a b) s 0x01 ∧ Traps (.mod dst a b) s 0x01 ∧ Traps (.pow dst a b) s 0x01) ∧
    ((∀ x, s.reg a ≠ .number x) → Traps (.neg dst a) s 0x01)

/-! Comparator (42_compare.md) -/

/-- `Eq`: the Boolean of 42_compare.md R105's equality goes to register 0 and nowhere else; no pair is fatal. -/
def Obligations.EqWritesValueEquality : Prop :=
  ∀ (s : State) (a b : Nat), a < numRegs → b < numRegs →
    ∃ e : Bool, WritesValue (.eq a b) s 0 (.boolean e) ∧ (e = true ↔ SameValue (s.reg a) (s.reg b))

/-- `Lt` and `Le` on a pair that has an order: the Boolean goes to register 0 and nowhere else. -/
def Obligations.LtLeWriteTheOrder : Prop :=
  ∀ (s : State) (a b : Nat), a < numRegs → b < numRegs → Comparable (s.reg a) (s.reg b) →
    (∃ e : Bool, WritesValue (.lt a b) s 0 (.boolean e) ∧ (e = true ↔ Below (s.reg a) (s.reg b))) ∧
    (∃ e : Bool, WritesValue (.le a b) s 0 (.boolean e) ∧ (e = true ↔ ¬ Below (s.reg b) (s.reg a)))

/-- 42_compare.md R116: `vord` reports a Number pair with a NaN as `Unordered`, and `Lt` and `Le` follow `NAN_ORDER`, whose
default is `ieee_false`. And a pair without an order is fatal. -/
def Obligations.NanOrderAndNoOrder : Prop :=
  Config.defaults.nanOrder = .ieeeFalse ∧
  ∀ (s : State) (a b : Nat), a < numRegs → b < numRegs →
    (∀ x y, s.reg a = .number x → s.reg b = .number y → fIsNaN x = true ∨ fIsNaN y = true →
      vord (s.reg a) (s.reg b) = .unordered ∧
      (s.cfg.nanOrder = .ieeeFalse →
        WritesValue (.lt a b) s 0 (.boolean false) ∧ WritesValue (.le a b) s 0 (.boolean false)) ∧
      (s.cfg.nanOrder = .fatal → Traps (.lt a b) s 0x04 ∧ Traps (.le a b) s 0x04)) ∧
    ((¬ ∃ x y, s.reg a = .number x ∧ s.reg b = .number y) → ¬ Comparable (s.reg a) (s.reg b) →
      Traps (.lt a b) s 0x04 ∧ Traps (.le a b) s 0x04)

/-- Consequences of 42_compare.md sections 1 and 2 (the first two the spec marks derived): `veq` is symmetric, reflexive but on NaNs, and agrees with the `Equal` of `vord` on every
ordered pair; `vord` of the swapped pair is the mirror image. -/
def Obligations.ComparatorIsCoherent : Prop :=
  ∀ v w : Value,
    veq v w = veq w v ∧
    (veq v v = false ↔ ∃ f, v = .number f ∧ fIsNaN f = true) ∧
    (vord v w ≠ .noOrder → vord v w ≠ .unordered → (veq v w = true ↔ vord v w = .equal)) ∧
    (vord v w = .less ↔ vord w v = .greater) ∧ (vord v w = .equal ↔ vord w v = .equal) ∧
    (vord v w = .unordered ↔ vord w v = .unordered) ∧ (vord v w = .noOrder ↔ vord w v = .noOrder)

/-- 42_compare.md section 3: the tag code and the key determine the Value, so two Values hash apart only by `H`; in
particular the hash of a Number depends on its bits and that of an aggregate on its handle alone. -/
def Obligations.HashReadsTagAndKey : Prop :=
  (∀ v w : Value, (tagCode v = tagCode w ∧ hashKey v = hashKey w) ↔ v = w) ∧
  (∀ v : Value, valueHash v = Config.hashOf (tagCode v) (hashKey v))

/-! Control transfer (43_control.md) -/

/-- `Jmp` and `JmpIf`: relative to the instruction's own index; taken only on exactly `Boolean(true)`, never fatal. -/
def Obligations.JumpsMoveTheCounter : Prop :=
  ∀ (s : State) (cond : Nat) (off : U32), cond < numRegs →
    exec (.jmp off) s = .next { s with pc := s.pc + off.toInt } ∧
    (s.reg cond = .boolean true → exec (.jmpIf cond off) s = .next { s with pc := s.pc + off.toInt }) ∧
    (s.reg cond ≠ .boolean true → exec (.jmpIf cond off) s = .next { s with pc := s.pc + 1 })

/-- `Call`: both pushes and the jump; the two fatal conditions, with nothing pushed. -/
def Obligations.CallPushesBothStacks : Prop :=
  ∀ (s : State) (func : Nat) (argc : Byte), func < numRegs →
    (∀ n, s.reg func = .function n →
      (HasRoom s.callStack.length s.cfg.maxCallDepth →
        exec (.call func argc) s = .next { s with
          pc := (n.toNat : Int), callStack := s.pc :: s.callStack, scopes := [] :: s.scopes }) ∧
      (¬ HasRoom s.callStack.length s.cfg.maxCallDepth → Traps (.call func argc) s 0x43)) ∧
    ((∀ n, s.reg func ≠ .function n) → Traps (.call func argc) s 0x05)

/-- `Return`: pops one entry of each stack and resumes at the popped index itself; the two fatal conditions. -/
def Obligations.ReturnPopsBothStacks : Prop :=
  ∀ (s : State) (start : Nat) (count : Byte),
    (∀ saved calls top below, s.callStack = saved :: calls → s.scopes = top :: below →
      exec (.ret start count) s = .next { s with pc := saved, callStack := calls, scopes := below }) ∧
    (s.callStack = [] → Traps (.ret start count) s 0x10) ∧
    (s.callStack ≠ [] → s.scopes = [] → Traps (.ret start count) s 0x20)

/-! Aggregates (44_aggregate.md) -/

/-- `NewObject` and `NewArray`: a fresh empty cell at `NEXT_HANDLE`, every other cell as before; or exhaustion. -/
def Obligations.NewAggregatesAllocate : Prop :=
  ∀ (s : State) (dst : Nat), dst < numRegs →
    (HasRoom s.heap.length s.cfg.maxHeapCells →
      (∃ heap', Heap.cell heap' s.nextHandle = some (.obj []) ∧
        (∀ h, h ≠ s.nextHandle → Heap.cell heap' h = Heap.cell s.heap h) ∧
        exec (.newObject dst) s = .next { s with
          regs := s.regs.setIfInBounds dst (.object s.nextHandle), heap := heap', nextHandle := s.nextHandle + 1,
          pc := s.pc + 1 }) ∧
      (∃ heap', Heap.cell heap' s.nextHandle = some (.arr []) ∧
        (∀ h, h ≠ s.nextHandle → Heap.cell heap' h = Heap.cell s.heap h) ∧
        exec (.newArray dst) s = .next { s with
          regs := s.regs.setIfInBounds dst (.array s.nextHandle), heap := heap', nextHandle := s.nextHandle + 1,
          pc := s.pc + 1 })) ∧
    (¬ HasRoom s.heap.length s.cfg.maxHeapCells → Traps (.newObject dst) s 0x43 ∧ Traps (.newArray dst) s 0x43)

/-- `GetProp`: the Value at the key, or `Undefined` for a missing key; nothing but `dst` changes. -/
def Obligations.GetPropReadsTheCell : Prop :=
  ∀ (s : State) (dst obj key h : Nat) (k : Str) (m : Mapping), dst < numRegs → obj < numRegs → key < numRegs →
    s.reg obj = .object h → s.reg key = .string k → Heap.cell s.heap h = some (.obj m) →
      (∀ v, Mapping.get m k = some v → WritesValue (.getProp dst obj key) s dst v) ∧
      (Mapping.get m k = none → WritesValue (.getProp dst obj key) s dst .undefined)

/-- `SetProp`: the key maps to the Value, every other key and every other cell is as before; or exhaustion. -/
def Obligations.SetPropWritesTheCell : Prop :=
  ∀ (s : State) (obj key val h : Nat) (k : Str) (m : Mapping), obj < numRegs → key < numRegs → val < numRegs →
    s.reg obj = .object h → s.reg key = .string k → Heap.cell s.heap h = some (.obj m) →
      (Mapping.get m k ≠ none ∨ HasRoom m.length s.cfg.maxObjectKeys →
        ∃ heap' m', Heap.cell heap' h = some (.obj m') ∧ Mapping.get m' k = some (s.reg val) ∧
          (∀ j, j ≠ k → Mapping.get m' j = Mapping.get m j) ∧
          (∀ i, i ≠ h → Heap.cell heap' i = Heap.cell s.heap i) ∧
          exec (.setProp obj key val) s = .next { s with heap := heap', pc := s.pc + 1 }) ∧
      (Mapping.get m k = none → ¬ HasRoom m.length s.cfg.maxObjectKeys → Traps (.setProp obj key val) s 0x43)

/-- `GetElem`: the element at the truncated index, or `Undefined` beyond the length; nothing but `dst` changes. -/
def Obligations.GetElemReadsTheCell : Prop :=
  ∀ (s : State) (dst arr idx h p : Nat) (f : F64) (a : List Value), dst < numRegs → arr < numRegs → idx < numRegs →
    s.reg arr = .array h → s.reg idx = .number f → IndexNames f p → Heap.cell s.heap h = some (.arr a) →
      (∀ v, a[p]? = some v → WritesValue (.getElem dst arr idx) s dst v) ∧
      (a.length ≤ p → WritesValue (.getElem dst arr idx) s dst .undefined)

/-- `SetElem`: the element at the truncated index, the array grown with `Undefined` where it was too short, every other
element and cell as before; or exhaustion. -/
def Obligations.SetElemWritesTheCell : Prop :=
  ∀ (s : State) (arr idx val h p : Nat) (f : F64) (a : List Value), arr < numRegs → idx < numRegs → val < numRegs →
    s.reg arr = .array h → s.reg idx = .number f → IndexNames f p → Heap.cell s.heap h = some (.arr a) →
      (p < s.cfg.maxArrayLen →
        ∃ heap' a', Heap.cell heap' h = some (.arr a') ∧ a'.length = max a.length (p + 1) ∧
          a'[p]? = some (s.reg val) ∧ (∀ q, q < a.length → q ≠ p → a'[q]? = a[q]?) ∧
          (∀ q, a.length ≤ q → q < p → a'[q]? = some .undefined) ∧
          (∀ i, i ≠ h → Heap.cell heap' i = Heap.cell s.heap i) ∧
          exec (.setElem arr idx val) s = .next { s with heap := heap', pc := s.pc + 1 }) ∧
      (s.cfg.maxArrayLen ≤ p → Traps (.setElem arr idx val) s 0x43)

/-- The type checks and the index conversion of the family, with nothing changed. -/
def Obligations.AggregateOperandChecks : Prop :=
  ∀ (s : State) (p q r : Nat), p < numRegs → q < numRegs → r < numRegs →
    ((∀ h, s.reg q ≠ .object h) ∨ (∀ k, s.reg r ≠ .string k) → Traps (.getProp p q r) s 0x02) ∧
    ((∀ h, s.reg p ≠ .object h) ∨ (∀ k, s.reg q ≠ .string k) → Traps (.setProp p q r) s 0x02) ∧
    ((∀ h, s.reg q ≠ .array h) ∨ (∀ f, s.reg r ≠ .number f) → Traps (.getElem p q r) s 0x03) ∧
    ((∀ h, s.reg p ≠ .array h) ∨ (∀ f, s.reg q ≠ .number f) → Traps (.setElem p q r) s 0x03) ∧
    (∀ h f, s.reg q = .array h → s.reg r = .number f → (¬ ∃ n, IndexNames f n) → Traps (.getElem p q r) s 0x42) ∧
    (∀ h f, s.reg p = .array h → s.reg q = .number f → (¬ ∃ n, IndexNames f n) → Traps (.setElem p q r) s 0x42)

/-- "SetProp followed by GetProp with the same key round-trips the stored value exactly", through any alias of the object
and any register holding the same key. -/
def Obligations.SetPropThenGetPropRoundTrips : Prop :=
  ∀ (s t u : State) (obj key val dst obj' key' : Nat), s.run = .running → dst < numRegs →
    s.reg obj' = s.reg obj → s.reg key' = s.reg key →
    exec (.setProp obj key val) s = .next t → t.run = .running →
    exec (.getProp dst obj' key') t = .next u → u.run = .running → u.reg dst = s.reg val

/-- The model's own stop (log entry 10): a handle without a cell of its kind, which 20_memory.md section 4 excludes from
every well-formed input, is refused by name. -/
def Obligations.DanglingHandleIsRefused : Prop :=
  ∀ (s : State) (p q r h n : Nat) (k : Str) (f : F64), p < numRegs → q < numRegs → r < numRegs →
    ((∀ m, Heap.cell s.heap h ≠ some (.obj m)) →
      (s.reg q = .object h → s.reg r = .string k → exec (.getProp p q r) s = .refused .illFormedHeap) ∧
      (s.reg p = .object h → s.reg q = .string k → exec (.setProp p q r) s = .refused .illFormedHeap)) ∧
    ((∀ a, Heap.cell s.heap h ≠ some (.arr a)) → IndexNames f n →
      (s.reg q = .array h → s.reg r = .number f → exec (.getElem p q r) s = .refused .illFormedHeap) ∧
      (s.reg p = .array h → s.reg q = .number f → n < s.cfg.maxArrayLen →
        exec (.setElem p q r) s = .refused .illFormedHeap))

/-! Function values, scope variables, strict mode (45_scope_func.md) -/

/-- `Closure`, `DeclareFunc` and `UseStrict`: the absolute target; the instruction's own index; the flag. -/
def Obligations.FunctionValuesAndStrictMode : Prop :=
  ∀ (s : State) (dst : Nat) (target : U32), dst < numRegs →
    WritesValue (.closure dst target) s dst (.function target) ∧
    (0 ≤ s.pc → s.pc < 2 ^ 32 →
      ∃ n : U32, (n.toNat : Int) = s.pc ∧ WritesValue (.declareFunc dst) s dst (.function n)) ∧
    exec .useStrict s = .next { s with strict := true, pc := s.pc + 1 }

/-- `GetScope`: the top scope alone, at the synthesized key; the miss by `GETSCOPE_MISS`; the empty scope stack. -/
def Obligations.GetScopeReadsTheTop : Prop :=
  ∀ (s : State) (dst : Nat) (var : U32), dst < numRegs →
    (∀ top below, s.scopes = top :: below →
      (∀ v, Mapping.get top (scopeKey s.cfg var) = some v → WritesValue (.getScope dst var) s dst v) ∧
      (Mapping.get top (scopeKey s.cfg var) = none →
        (s.cfg.getScopeMiss = .fault → Traps (.getScope dst var) s 0x41) ∧
        (s.cfg.getScopeMiss = .undefined → WritesValue (.getScope dst var) s dst .undefined))) ∧
    (s.scopes = [] → Traps (.getScope dst var) s 0x20)

/-- `SetScope` and `DeclareVar`: the entry of the top scope at the synthesized key is written (with `Undefined` by
`DeclareVar`, also where the variable exists), every other entry is as before; exhaustion; the empty scope stack. The length of the key is no condition (log entry 13). -/
def Obligations.ScopeWritesReachTheTop : Prop :=
  ∀ (s : State) (src : Nat) (var : U32), src < numRegs →
    (∀ top below, s.scopes = top :: below →
      (Mapping.get top (scopeKey s.cfg var) ≠ none ∨ HasRoom top.length s.cfg.maxScopeEntries →
        (∃ top', Mapping.get top' (scopeKey s.cfg var) = some (s.reg src) ∧
          (∀ k, k ≠ scopeKey s.cfg var → Mapping.get top' k = Mapping.get top k) ∧
          exec (.setScope var src) s = .next { s with scopes := top' :: below, pc := s.pc + 1 }) ∧
        (∃ top', Mapping.get top' (scopeKey s.cfg var) = some .undefined ∧
          (∀ k, k ≠ scopeKey s.cfg var → Mapping.get top' k = Mapping.get top k) ∧
          exec (.declareVar var) s = .next { s with scopes := top' :: below, pc := s.pc + 1 })) ∧
      (Mapping.get top (scopeKey s.cfg var) = none → ¬ HasRoom top.length s.cfg.maxScopeEntries →
        Traps (.setScope var src) s 0x43 ∧ Traps (.declareVar var) s 0x43)) ∧
    (s.scopes = [] → Traps (.setScope var src) s 0x20 ∧ Traps (.declareVar var) s 0x20)

/-- 45_scope_func.md section 1: `SCOPE_KEY` is injective, whichever function the construction chose; so a write of one
variable, by `SetScope` or `DeclareVar`, is not seen by a read of another. -/
def Obligations.ScopeVariablesAreIndependent : Prop :=
  (∀ cfg : Config, Function.Injective (scopeKey cfg)) ∧
  (∀ (s t : State) (writer : Instr) (i j : U32), s.run = .running → i ≠ j →
    ((∃ src, writer = .setScope i src) ∨ writer = .declareVar i) → exec writer s = .next t → t.run = .running →
      ∃ top below top', s.scopes = top :: below ∧ t.scopes = top' :: below ∧
        Mapping.get top' (scopeKey t.cfg j) = Mapping.get top (scopeKey s.cfg j))

/-! Type tags (46_type.md) -/

/-- `TypeOf` writes the exact type name for each of the eight variants; that its bytes are ASCII the spec marks as general
knowledge (46_type.md, the type-tag names). -/
def Obligations.TypeOfWritesTheTypeName : Prop :=
  ∀ (s : State) (dst src : Nat), dst < numRegs → src < numRegs →
    let writes := fun name : String => WritesValue (.typeOf dst src) s dst (.string (name.toList.map fun c => BitVec.ofNat 8 c.toNat))
    (s.reg src = .undefined → writes "undefined") ∧
    (s.reg src = .null → writes "object") ∧
    (∀ b, s.reg src = .boolean b → writes "boolean") ∧
    (∀ f, s.reg src = .number f → writes "number") ∧
    (∀ t, s.reg src = .string t → writes "string") ∧
    (∀ h, s.reg src = .object h → writes "object") ∧
    (∀ h, s.reg src = .array h → writes "object") ∧
    (∀ n, s.reg src = .function n → writes "function")

/-- `InstanceOf`: true exactly for the pairs (Object, Function) and (Array, Function), total on all pairs, written to `dst`. -/
def Obligations.InstanceOfTestsTheTagPair : Prop :=
  ∀ (s : State) (dst obj ctor : Nat), dst < numRegs → obj < numRegs → ctor < numRegs →
    ∃ e : Bool, WritesValue (.instanceOf dst obj ctor) s dst (.boolean e) ∧
      (e = true ↔ ((∃ h, s.reg obj = .object h) ∨ (∃ h, s.reg obj = .array h)) ∧ ∃ n, s.reg ctor = .function n)

/-! The range of `Pow` and the run operation -/

/-- `Pow` on ordinary operands, the last row of the table (41_arithmetic.md section 3): the result has the sign of the real
power and is no NaN; it is an infinity where the real power overflows, a zero or a subnormal where it underflows, and a
finite value that is not zero between. Within a few last bits of the two limits, where an approximation may fall on
either side, nothing is said (log entry 4, the model's choice). -/
def Obligations.PowOverflowsAndUnderflows : Prop :=
  ∀ (s : State) (dst a b : Nat) (x y : F64), dst < numRegs → a < numRegs → b < numRegs →
    s.reg a = .number x → s.reg b = .number y →
    fIsFinite x = true → fIsZero x = false → fIsFinite y = true → fIsZero y = false →
    (fSign x = true → IsIntegral y) →
      ∃ r, WritesValue (.pow dst a b) s dst (.number r) ∧
        fIsNaN r = false ∧ (fSign r = true ↔ fSign x = true ∧ IsOdd y) ∧
        ((2 : ℝ) ^ 1024 * (1 + 1 / 2 ^ 50) ≤ realPower x y → fIsInf r = true) ∧
        (realPower x y ≤ (1 / 2 : ℝ) ^ 1022 * (1 - 1 / 2 ^ 49) → fMagnitude r < 2 ^ 52) ∧
        ((1 / 2 : ℝ) ^ 1022 ≤ realPower x y → realPower x y ≤ (2 : ℝ) ^ 1024 * (1 - 1 / 2 ^ 49) →
          fIsFinite r = true ∧ fIsZero r = false)

/-- 70_reset_and_hazards.md section 2, the run: it is the loop of `step` while `RUN` is running; it ends in one state at
most, in `halted_ok` exactly where the fetch found `pc = PROG_LEN`, else in `halted_fault` with its record; from
well-formed handles no step of it is refused. -/
def Obligations.RunLoopsUntilHalted : Prop :=
  (∀ (s : State) (fuel : Nat), s.run ≠ .running → runFor fuel s = .next s) ∧
  (∀ (s t : State) (fuel : Nat), s.run = .running → step s = .next t → runFor (fuel + 1) s = runFor fuel t) ∧
  (∀ s t u : State, RunsTo s t → RunsTo s u → t = u) ∧
  (∀ s t : State, s.run = .running → RunsTo s t →
    (t.run = .haltedOk ↔ t.pc = t.prog.length) ∧
    (t.run = .haltedFault → (∃ c : Cause, t.faultCause = c.code) ∧ t.faultPc = t.pc)) ∧
  (∀ (s : State) (fuel : Nat), HandlesOk s → ∃ t, runFor fuel s = .next t ∧ HandlesOk t)
end

