-- ==== Sys2Proof/Laws/Decode.lean ====
section
/-! SUPPORT. Laws/Decode.lean: the five fields of a word and the word of five fields are each other's inverse. -/

namespace Sys2Proof
@[simp] theorem fieldOp_assemble (op a b c : Byte) (imm : U32) : fieldOp (assemble op a b c imm) = op := by
  apply BitVec.eq_of_getLsbD_eq
  intro i hi
  simp only [fieldOp, assemble, BitVec.getLsbD_extractLsb', BitVec.getLsbD_append]
  simp [hi, show ¬ (56 + i < 32) by omega, show ¬ (56 + i - 32 < 8) by omega, show ¬ (56 + i - 32 - 8 < 8) by omega, show ¬ (56 + i - 32 - 8 - 8< 8) by omega, show 56 + i - 32 - 8 - 8 - 8 = i by omega]
@[simp] theorem fieldA_assemble (op a b c : Byte) (imm : U32) : fieldA (assemble op a b c imm) = a := by
  apply BitVec.eq_of_getLsbD_eq
  intro i hi
  simp only [fieldA, assemble, BitVec.getLsbD_extractLsb', BitVec.getLsbD_append]
  simp [hi, show ¬ (48 + i < 32) by omega, show ¬ (48 + i - 32 < 8) by omega, show ¬ (48 + i - 32 - 8 < 8) by omega, show 48 + i - 32 - 8 - 8 = i by omega]
@[simp] theorem fieldB_assemble (op a b c : Byte) (imm : U32) : fieldB (assemble op a b c imm) = b := by
  apply BitVec.eq_of_getLsbD_eq
  intro i hi
  simp only [fieldB, assemble, BitVec.getLsbD_extractLsb', BitVec.getLsbD_append]
  simp [hi, show ¬ (40 + i < 32) by omega, show ¬ (40 + i - 32 < 8) by omega, show 40 + i - 32 - 8 = i by omega]
@[simp] theorem fieldC_assemble (op a b c : Byte) (imm : U32) : fieldC (assemble op a b c imm) = c := by
  apply BitVec.eq_of_getLsbD_eq
  intro i hi
  simp only [fieldC, assemble, BitVec.getLsbD_extractLsb', BitVec.getLsbD_append]
  simp [hi]
@[simp] theorem fieldImm_assemble (op a b c : Byte) (imm : U32) : fieldImm (assemble op a b c imm) = imm := by
  apply BitVec.eq_of_getLsbD_eq
  intro i hi
  simp only [fieldImm, assemble, BitVec.getLsbD_extractLsb', BitVec.getLsbD_append]
  simp [hi]
/-- A word is its five fields (30_encoding.md R63). -/
theorem assemble_fields (w : Word) :
    assemble (fieldOp w) (fieldA w) (fieldB w) (fieldC w) (fieldImm w) = w := by
  apply BitVec.eq_of_getLsbD_eq
  intro i hi
  simp only [fieldOp, fieldA, fieldB, fieldC, fieldImm, assemble, BitVec.getLsbD_extractLsb', BitVec.getLsbD_append]
  split_ifs with h1 h2 h3 h4
  · simp [h1]
  · simp [h2]; congr 1; omega
  · simp [h3]; congr 1; omega
  · simp [h4]; congr 1; omega
  · have : i - 32 - 8 - 8 - 8 < 8 := by omega
    simp [this]; congr 1; omega

/-- A register index within its width survives its field (30_encoding.md R65). -/
@[simp] theorem toNat_regField {r : Nat} (h : r < numRegs) : (regField r).toNat = r := by
  simpa [regField] using h

/-- A legal word's instruction is the one its row builds. -/
theorem ifReservedZero_ok {w : Word} {z : Bool} {i j : Instr} (h : ifReservedZero w z i = .ok j) : z = true ∧ i = j := by
  unfold ifReservedZero at h
  split at h
  · rename_i hz
    exact ⟨hz, by simpa using h⟩
  · cases h

end Sys2Proof
end

