-- ==== Sys2Proof/Laws/Mapping.lean ====
section
/-! SUPPORT. Laws/Mapping.lean: the laws of the finite maps: read after write, canonical form kept, sizes. -/

namespace Sys2Proof.Machine

/-- An order whose `eq` is equality and whose `gt` is the reverse of `lt`. -/
structure IsKeyOrder {κ : Type} (order : κ → κ → Ordering) : Prop where
  eq_iff : ∀ a b, order a b = .eq ↔ a = b
  gt_iff : ∀ a b, order a b = .gt ↔ order b a = .lt
  lt_trans : ∀ a b c, order a b = .lt → order b c = .lt → order a c = .lt

theorem strOrder_eq_iff (s t : Str) : strOrder s t = .eq ↔ s = t := by
  induction s generalizing t with
  | nil => cases t <;> simp [strOrder]
  | cons b s ih =>
    cases t with
    | nil => simp [strOrder]
    | cons c t =>
      simp only [strOrder]
      split
      · rename_i h; simp; rintro rfl; omega
      · split
        · rename_i h; simp; rintro rfl; omega
        · rw [ih]; simp
          intro _
          exact BitVec.eq_of_toNat_eq (by omega)

theorem strOrder_gt_iff (s t : Str) : strOrder s t = .gt ↔ strOrder t s = .lt := by
  induction s generalizing t with
  | nil => cases t <;> simp [strOrder]
  | cons b s ih =>
    cases t with
    | nil => simp [strOrder]
    | cons c t =>
      simp only [strOrder]
      split_ifs with h₁ h₂ h₂
      · omega
      · simp
      · simp
      · exact ih t

theorem strOrder_lt_trans (s t u : Str) (h₁ : strOrder s t = .lt) (h₂ : strOrder t u = .lt) : strOrder s u = .lt := by
  induction s generalizing t u with
  | nil => cases t <;> cases u <;> simp_all [strOrder]
  | cons b s ih =>
    cases t with
    | nil => simp [strOrder] at h₁
    | cons c t =>
      cases u with
      | nil => simp [strOrder] at h₂
      | cons d u =>
        simp only [strOrder] at h₁ h₂ ⊢
        split_ifs at h₁ h₂ ⊢ <;> first | exact ih _ _ h₁ h₂ | omega

/-- The order of Strings is the lexicographic one (42_compare.md R108). -/
theorem strOrder_lt_iff (s t : Str) : strOrder s t = .lt ↔ List.Lex (fun b c : Byte => b.toNat < c.toNat) s t := by
  induction s generalizing t with
  | nil => cases t <;> simp [strOrder]
  | cons b s ih =>
    cases t with
    | nil => simp [strOrder]
    | cons c t =>
      simp only [strOrder]
      split_ifs with h₁ h₂
      · exact iff_of_true rfl (.rel h₁)
      · simp only [false_iff]
        intro h
        cases h with
        | rel h => omega
        | cons h => omega
      · have hbc : b = c := BitVec.eq_of_toNat_eq (by omega)
        subst hbc
        rw [ih]
        constructor
        · exact .cons
        · intro h
          cases h with
          | rel h => omega
          | cons h => exact h

/-- Strings are ordered by their bytes (42_compare.md R108). -/
theorem strOrder_isKeyOrder : IsKeyOrder strOrder :=
  ⟨strOrder_eq_iff, strOrder_gt_iff, strOrder_lt_trans⟩

theorem handleOrder_isKeyOrder : IsKeyOrder handleOrder where
  eq_iff a b := by simp [handleOrder]
  gt_iff a b := by simp [handleOrder, Nat.compare_eq_gt, Nat.compare_eq_lt]
  lt_trans a b c := by simp only [handleOrder, Nat.compare_eq_lt]; omega

section Generic

variable {κ β : Type} [DecidableEq κ] {order : κ → κ → Ordering}

/-- A read after a write to the same key. -/
theorem lookup_insertAt_same (ho : IsKeyOrder order) (k : κ) (v : β) (m : List (κ × β)) :
    lookup k (insertAt order k v m) = some v := by
  induction m with
  | nil => simp [insertAt, lookup]
  | cons p rest ih =>
    simp only [insertAt]
    cases h : order k p.1 with
    | lt => simp [lookup]
    | eq => simp [lookup]
    | gt =>
      have hne : p.1 ≠ k := by
        rintro rfl
        have := (ho.eq_iff p.1 p.1).mpr rfl
        simp_all
      simp [lookup, hne, ih]

/-- A write leaves every other key alone. -/
theorem lookup_insertAt_other (ho : IsKeyOrder order) {k j : κ} (hne : j ≠ k) (v : β) (m : List (κ × β)) :
    lookup j (insertAt order k v m) = lookup j m := by
  induction m with
  | nil => simp [insertAt, lookup, Ne.symm hne]
  | cons p rest ih =>
    simp only [insertAt]
    cases h : order k p.1 with
    | lt => simp [lookup, Ne.symm hne]
    | eq => rw [ho.eq_iff] at h; subst h; simp [lookup, Ne.symm hne]
    | gt => simp [lookup, ih]

/-- What an entry of the map after a write can be. -/
theorem mem_insertAt {k : κ} {v : β} {m : List (κ × β)} {p : κ × β} (h : p ∈ insertAt order k v m) :
    p = (k, v) ∨ p ∈ m := by
  induction m with
  | nil => simpa [insertAt] using h
  | cons q rest ih =>
    simp only [insertAt] at h
    cases ho : order k q.1 <;> simp only [ho, List.mem_cons] at h ⊢
    · tauto
    · tauto
    · rcases h with rfl | h
      · tauto
      · rcases ih h with h | h <;> tauto

/-- A write keeps the canonical form. -/
theorem rising_insertAt (ho : IsKeyOrder order) (k : κ) (v : β) {m : List (κ × β)} (hm : Rising order m) :
    Rising order (insertAt order k v m) := by
  induction m with
  | nil => simp [insertAt, Rising]
  | cons p rest ih =>
    obtain ⟨j, w⟩ := p
    simp only [Rising, List.pairwise_cons] at hm ih
    simp only [insertAt]
    cases h : order k j with
    | lt =>
      simp only [Rising, List.pairwise_cons]
      refine ⟨?_, hm⟩
      intro q hq
      rcases List.mem_cons.mp hq with rfl | hq
      · exact h
      · exact ho.lt_trans _ _ _ h (hm.1 q hq)
    | eq =>
      rw [ho.eq_iff] at h
      subst h
      simp only [Rising, List.pairwise_cons]
      exact hm
    | gt =>
      simp only [Rising, List.pairwise_cons]
      refine ⟨?_, ih hm.2⟩
      intro q hq
      rcases mem_insertAt hq with rfl | hq
      · exact (ho.gt_iff _ _).mp h
      · exact hm.1 q hq

/-- A write of an absent key adds one entry. -/
theorem length_insertAt_absent (ho : IsKeyOrder order) {k : κ} (v : β) {m : List (κ × β)} (h : lookup k m = none) :
    (insertAt order k v m).length = m.length + 1 := by
  induction m with
  | nil => rfl
  | cons p rest ih =>
    simp only [lookup] at h
    split at h
    · simp at h
    · rename_i hne
      simp only [insertAt]
      cases hk : order k p.1 with
      | lt => simp
      | eq => rw [ho.eq_iff] at hk; exact absurd hk.symm hne
      | gt => simp [ih h]

/-- An entry that is found is in the map. -/
theorem mem_of_lookup {k : κ} {v : β} {m : List (κ × β)} (h : lookup k m = some v) : (k, v) ∈ m := by
  induction m with
  | nil => simp [lookup] at h
  | cons p rest ih =>
    simp only [lookup] at h
    split at h
    · rename_i he; simp at h; subst h; subst he; simp
    · exact List.mem_cons_of_mem _ (ih h)

/-- A write of a key that a canonical map holds keeps its size. -/
theorem length_insertAt_present (ho : IsKeyOrder order) {k : κ} (v : β) {m : List (κ × β)} (hm : Rising order m)
    (h : (lookup k m).isSome) : (insertAt order k v m).length = m.length := by
  induction m with
  | nil => simp [lookup] at h
  | cons p rest ih =>
    simp only [Rising, List.pairwise_cons] at hm
    simp only [insertAt]
    cases hk : order k p.1 with
    | eq => simp
    | gt =>
      have hne : p.1 ≠ k := by
        rintro rfl
        have := (ho.eq_iff p.1 p.1).mpr rfl
        simp_all
      simp only [lookup, hne, if_false] at h
      simp [ih hm.2 h]
    | lt =>
      exfalso
      have hself : order k k = .eq := (ho.eq_iff k k).mpr rfl
      simp only [lookup] at h
      split at h
      · rename_i he; subst he; rw [hself] at hk; cases hk
      · obtain ⟨v', hv'⟩ := Option.isSome_iff_exists.mp h
        have := hm.1 _ (mem_of_lookup hv')
        have := ho.lt_trans _ _ _ hk this
        rw [hself] at this; cases this

end Generic

/-- `SetProp` then `GetProp` of the same key (20_memory.md R44). -/
@[simp] theorem get_set_same (m : Mapping) (k : Str) (v : Value) : Mapping.get (Mapping.set m k v) k = some v :=
  lookup_insertAt_same strOrder_isKeyOrder k v m

/-- Every other key is unchanged (20_memory.md R44). -/
theorem get_set_other (m : Mapping) {k j : Str} (v : Value) (h : j ≠ k) :
    Mapping.get (Mapping.set m k v) j = Mapping.get m j :=
  lookup_insertAt_other strOrder_isKeyOrder h v m

/-- A write keeps a mapping's canonical form. -/
theorem mapping_set_wf (m : Mapping) (k : Str) (v : Value) (h : Mapping.wf m) : Mapping.wf (Mapping.set m k v) :=
  rising_insertAt strOrder_isKeyOrder k v h

/-- A cell after a write to it (20_memory.md R46). -/
@[simp] theorem cell_setCell_same (m : Heap) (h : Nat) (c : HeapCell) : Heap.cell (Heap.setCell m h c) h = some c :=
  lookup_insertAt_same handleOrder_isKeyOrder h c m

/-- Every other cell is unchanged. -/
theorem cell_setCell_other (m : Heap) {h i : Nat} (c : HeapCell) (hne : i ≠ h) :
    Heap.cell (Heap.setCell m h c) i = Heap.cell m i :=
  lookup_insertAt_other handleOrder_isKeyOrder hne c m

/-- A write of a canonical cell keeps the heap's canonical form. -/
theorem heap_setCell_wf (m : Heap) (h : Nat) (c : HeapCell) (hm : Heap.wf m) (hc : c.wf = true) :
    Heap.wf (Heap.setCell m h c) := by
  refine ⟨rising_insertAt handleOrder_isKeyOrder h c hm.1, ?_⟩
  intro p hp
  rcases mem_insertAt hp with rfl | hp
  · exact hc
  · exact hm.2 p hp

end Sys2Proof.Machine
end

