-- ==== Sys2Proof/Laws/State.lean ====
section
/-! SUPPORT. Laws/State.lean: one lemma per field per update of the state, true by rfl, and the two register laws, so that no
later proof unfolds a record update. -/

namespace Sys2Proof.Machine

@[simp] theorem enterFatal_regs (s : State) (c : Cause) : (s.enterFatal c).regs = s.regs := rfl
@[simp] theorem enterFatal_pc (s : State) (c : Cause) : (s.enterFatal c).pc = s.pc := rfl
@[simp] theorem enterFatal_callStack (s : State) (c : Cause) : (s.enterFatal c).callStack = s.callStack := rfl
@[simp] theorem enterFatal_scopes (s : State) (c : Cause) : (s.enterFatal c).scopes = s.scopes := rfl
@[simp] theorem enterFatal_strict (s : State) (c : Cause) : (s.enterFatal c).strict = s.strict := rfl
@[simp] theorem enterFatal_run (s : State) (c : Cause) : (s.enterFatal c).run = .haltedFault := rfl
@[simp] theorem enterFatal_faultCause (s : State) (c : Cause) : (s.enterFatal c).faultCause = c.code := rfl
@[simp] theorem enterFatal_faultPc (s : State) (c : Cause) : (s.enterFatal c).faultPc = s.pc := rfl
@[simp] theorem enterFatal_heap (s : State) (c : Cause) : (s.enterFatal c).heap = s.heap := rfl
@[simp] theorem enterFatal_nextHandle (s : State) (c : Cause) : (s.enterFatal c).nextHandle = s.nextHandle := rfl
@[simp] theorem enterFatal_prog (s : State) (c : Cause) : (s.enterFatal c).prog = s.prog := rfl
@[simp] theorem enterFatal_pool (s : State) (c : Cause) : (s.enterFatal c).pool = s.pool := rfl
@[simp] theorem enterFatal_cfg (s : State) (c : Cause) : (s.enterFatal c).cfg = s.cfg := rfl
@[simp] theorem enterFatal_nanDraws (s : State) (c : Cause) : (s.enterFatal c).nanDraws = s.nanDraws := rfl

@[simp] theorem haltOk_regs (s : State) : (s.haltOk).regs = s.regs := rfl
@[simp] theorem haltOk_pc (s : State) : (s.haltOk).pc = s.pc := rfl
@[simp] theorem haltOk_callStack (s : State) : (s.haltOk).callStack = s.callStack := rfl
@[simp] theorem haltOk_scopes (s : State) : (s.haltOk).scopes = s.scopes := rfl
@[simp] theorem haltOk_strict (s : State) : (s.haltOk).strict = s.strict := rfl
@[simp] theorem haltOk_run (s : State) : (s.haltOk).run = .haltedOk := rfl
@[simp] theorem haltOk_faultCause (s : State) : (s.haltOk).faultCause = s.faultCause := rfl
@[simp] theorem haltOk_faultPc (s : State) : (s.haltOk).faultPc = s.faultPc := rfl
@[simp] theorem haltOk_heap (s : State) : (s.haltOk).heap = s.heap := rfl
@[simp] theorem haltOk_nextHandle (s : State) : (s.haltOk).nextHandle = s.nextHandle := rfl
@[simp] theorem haltOk_prog (s : State) : (s.haltOk).prog = s.prog := rfl
@[simp] theorem haltOk_pool (s : State) : (s.haltOk).pool = s.pool := rfl
@[simp] theorem haltOk_cfg (s : State) : (s.haltOk).cfg = s.cfg := rfl
@[simp] theorem haltOk_nanDraws (s : State) : (s.haltOk).nanDraws = s.nanDraws := rfl

@[simp] theorem setReg_regs (s : State) (r : Nat) (v : Value) : (s.setReg r v).regs = s.regs.setIfInBounds r v := rfl
@[simp] theorem setReg_pc (s : State) (r : Nat) (v : Value) : (s.setReg r v).pc = s.pc := rfl
@[simp] theorem setReg_callStack (s : State) (r : Nat) (v : Value) : (s.setReg r v).callStack = s.callStack := rfl
@[simp] theorem setReg_scopes (s : State) (r : Nat) (v : Value) : (s.setReg r v).scopes = s.scopes := rfl
@[simp] theorem setReg_strict (s : State) (r : Nat) (v : Value) : (s.setReg r v).strict = s.strict := rfl
@[simp] theorem setReg_run (s : State) (r : Nat) (v : Value) : (s.setReg r v).run = s.run := rfl
@[simp] theorem setReg_faultCause (s : State) (r : Nat) (v : Value) : (s.setReg r v).faultCause = s.faultCause := rfl
@[simp] theorem setReg_faultPc (s : State) (r : Nat) (v : Value) : (s.setReg r v).faultPc = s.faultPc := rfl
@[simp] theorem setReg_heap (s : State) (r : Nat) (v : Value) : (s.setReg r v).heap = s.heap := rfl
@[simp] theorem setReg_nextHandle (s : State) (r : Nat) (v : Value) : (s.setReg r v).nextHandle = s.nextHandle := rfl
@[simp] theorem setReg_prog (s : State) (r : Nat) (v : Value) : (s.setReg r v).prog = s.prog := rfl
@[simp] theorem setReg_pool (s : State) (r : Nat) (v : Value) : (s.setReg r v).pool = s.pool := rfl
@[simp] theorem setReg_cfg (s : State) (r : Nat) (v : Value) : (s.setReg r v).cfg = s.cfg := rfl
@[simp] theorem setReg_nanDraws (s : State) (r : Nat) (v : Value) : (s.setReg r v).nanDraws = s.nanDraws := rfl

@[simp] theorem jumpTo_regs (s : State) (t : Int) : (s.jumpTo t).regs = s.regs := rfl
@[simp] theorem jumpTo_pc (s : State) (t : Int) : (s.jumpTo t).pc = t := rfl
@[simp] theorem jumpTo_callStack (s : State) (t : Int) : (s.jumpTo t).callStack = s.callStack := rfl
@[simp] theorem jumpTo_scopes (s : State) (t : Int) : (s.jumpTo t).scopes = s.scopes := rfl
@[simp] theorem jumpTo_strict (s : State) (t : Int) : (s.jumpTo t).strict = s.strict := rfl
@[simp] theorem jumpTo_run (s : State) (t : Int) : (s.jumpTo t).run = s.run := rfl
@[simp] theorem jumpTo_faultCause (s : State) (t : Int) : (s.jumpTo t).faultCause = s.faultCause := rfl
@[simp] theorem jumpTo_faultPc (s : State) (t : Int) : (s.jumpTo t).faultPc = s.faultPc := rfl
@[simp] theorem jumpTo_heap (s : State) (t : Int) : (s.jumpTo t).heap = s.heap := rfl
@[simp] theorem jumpTo_nextHandle (s : State) (t : Int) : (s.jumpTo t).nextHandle = s.nextHandle := rfl
@[simp] theorem jumpTo_prog (s : State) (t : Int) : (s.jumpTo t).prog = s.prog := rfl
@[simp] theorem jumpTo_pool (s : State) (t : Int) : (s.jumpTo t).pool = s.pool := rfl
@[simp] theorem jumpTo_cfg (s : State) (t : Int) : (s.jumpTo t).cfg = s.cfg := rfl
@[simp] theorem jumpTo_nanDraws (s : State) (t : Int) : (s.jumpTo t).nanDraws = s.nanDraws := rfl

@[simp] theorem advance_regs (s : State) : (s.advance).regs = s.regs := rfl
@[simp] theorem advance_pc (s : State) : (s.advance).pc = s.pc + 1 := rfl
@[simp] theorem advance_callStack (s : State) : (s.advance).callStack = s.callStack := rfl
@[simp] theorem advance_scopes (s : State) : (s.advance).scopes = s.scopes := rfl
@[simp] theorem advance_strict (s : State) : (s.advance).strict = s.strict := rfl
@[simp] theorem advance_run (s : State) : (s.advance).run = s.run := rfl
@[simp] theorem advance_faultCause (s : State) : (s.advance).faultCause = s.faultCause := rfl
@[simp] theorem advance_faultPc (s : State) : (s.advance).faultPc = s.faultPc := rfl
@[simp] theorem advance_heap (s : State) : (s.advance).heap = s.heap := rfl
@[simp] theorem advance_nextHandle (s : State) : (s.advance).nextHandle = s.nextHandle := rfl
@[simp] theorem advance_prog (s : State) : (s.advance).prog = s.prog := rfl
@[simp] theorem advance_pool (s : State) : (s.advance).pool = s.pool := rfl
@[simp] theorem advance_cfg (s : State) : (s.advance).cfg = s.cfg := rfl
@[simp] theorem advance_nanDraws (s : State) : (s.advance).nanDraws = s.nanDraws := rfl

@[simp] theorem pushFrame_regs (s : State) : (s.pushFrame).regs = s.regs := rfl
@[simp] theorem pushFrame_pc (s : State) : (s.pushFrame).pc = s.pc := rfl
@[simp] theorem pushFrame_callStack (s : State) : (s.pushFrame).callStack = s.pc :: s.callStack := rfl
@[simp] theorem pushFrame_scopes (s : State) : (s.pushFrame).scopes = [] :: s.scopes := rfl
@[simp] theorem pushFrame_strict (s : State) : (s.pushFrame).strict = s.strict := rfl
@[simp] theorem pushFrame_run (s : State) : (s.pushFrame).run = s.run := rfl
@[simp] theorem pushFrame_faultCause (s : State) : (s.pushFrame).faultCause = s.faultCause := rfl
@[simp] theorem pushFrame_faultPc (s : State) : (s.pushFrame).faultPc = s.faultPc := rfl
@[simp] theorem pushFrame_heap (s : State) : (s.pushFrame).heap = s.heap := rfl
@[simp] theorem pushFrame_nextHandle (s : State) : (s.pushFrame).nextHandle = s.nextHandle := rfl
@[simp] theorem pushFrame_prog (s : State) : (s.pushFrame).prog = s.prog := rfl
@[simp] theorem pushFrame_pool (s : State) : (s.pushFrame).pool = s.pool := rfl
@[simp] theorem pushFrame_cfg (s : State) : (s.pushFrame).cfg = s.cfg := rfl
@[simp] theorem pushFrame_nanDraws (s : State) : (s.pushFrame).nanDraws = s.nanDraws := rfl

@[simp] theorem withStacks_regs (s : State) (calls : List Int) (ms : List Mapping) : (s.withStacks calls ms).regs = s.regs := rfl
@[simp] theorem withStacks_pc (s : State) (calls : List Int) (ms : List Mapping) : (s.withStacks calls ms).pc = s.pc := rfl
@[simp] theorem withStacks_callStack (s : State) (calls : List Int) (ms : List Mapping) : (s.withStacks calls ms).callStack = calls := rfl
@[simp] theorem withStacks_scopes (s : State) (calls : List Int) (ms : List Mapping) : (s.withStacks calls ms).scopes = ms := rfl
@[simp] theorem withStacks_strict (s : State) (calls : List Int) (ms : List Mapping) : (s.withStacks calls ms).strict = s.strict := rfl
@[simp] theorem withStacks_run (s : State) (calls : List Int) (ms : List Mapping) : (s.withStacks calls ms).run = s.run := rfl
@[simp] theorem withStacks_faultCause (s : State) (calls : List Int) (ms : List Mapping) : (s.withStacks calls ms).faultCause = s.faultCause := rfl
@[simp] theorem withStacks_faultPc (s : State) (calls : List Int) (ms : List Mapping) : (s.withStacks calls ms).faultPc = s.faultPc := rfl
@[simp] theorem withStacks_heap (s : State) (calls : List Int) (ms : List Mapping) : (s.withStacks calls ms).heap = s.heap := rfl
@[simp] theorem withStacks_nextHandle (s : State) (calls : List Int) (ms : List Mapping) : (s.withStacks calls ms).nextHandle = s.nextHandle := rfl
@[simp] theorem withStacks_prog (s : State) (calls : List Int) (ms : List Mapping) : (s.withStacks calls ms).prog = s.prog := rfl
@[simp] theorem withStacks_pool (s : State) (calls : List Int) (ms : List Mapping) : (s.withStacks calls ms).pool = s.pool := rfl
@[simp] theorem withStacks_cfg (s : State) (calls : List Int) (ms : List Mapping) : (s.withStacks calls ms).cfg = s.cfg := rfl
@[simp] theorem withStacks_nanDraws (s : State) (calls : List Int) (ms : List Mapping) : (s.withStacks calls ms).nanDraws = s.nanDraws := rfl

@[simp] theorem withScopes_regs (s : State) (ms : List Mapping) : (s.withScopes ms).regs = s.regs := rfl
@[simp] theorem withScopes_pc (s : State) (ms : List Mapping) : (s.withScopes ms).pc = s.pc := rfl
@[simp] theorem withScopes_callStack (s : State) (ms : List Mapping) : (s.withScopes ms).callStack = s.callStack := rfl
@[simp] theorem withScopes_scopes (s : State) (ms : List Mapping) : (s.withScopes ms).scopes = ms := rfl
@[simp] theorem withScopes_strict (s : State) (ms : List Mapping) : (s.withScopes ms).strict = s.strict := rfl
@[simp] theorem withScopes_run (s : State) (ms : List Mapping) : (s.withScopes ms).run = s.run := rfl
@[simp] theorem withScopes_faultCause (s : State) (ms : List Mapping) : (s.withScopes ms).faultCause = s.faultCause := rfl
@[simp] theorem withScopes_faultPc (s : State) (ms : List Mapping) : (s.withScopes ms).faultPc = s.faultPc := rfl
@[simp] theorem withScopes_heap (s : State) (ms : List Mapping) : (s.withScopes ms).heap = s.heap := rfl
@[simp] theorem withScopes_nextHandle (s : State) (ms : List Mapping) : (s.withScopes ms).nextHandle = s.nextHandle := rfl
@[simp] theorem withScopes_prog (s : State) (ms : List Mapping) : (s.withScopes ms).prog = s.prog := rfl
@[simp] theorem withScopes_pool (s : State) (ms : List Mapping) : (s.withScopes ms).pool = s.pool := rfl
@[simp] theorem withScopes_cfg (s : State) (ms : List Mapping) : (s.withScopes ms).cfg = s.cfg := rfl
@[simp] theorem withScopes_nanDraws (s : State) (ms : List Mapping) : (s.withScopes ms).nanDraws = s.nanDraws := rfl

@[simp] theorem setCell_regs (s : State) (h : Nat) (c : HeapCell) : (s.setCell h c).regs = s.regs := rfl
@[simp] theorem setCell_pc (s : State) (h : Nat) (c : HeapCell) : (s.setCell h c).pc = s.pc := rfl
@[simp] theorem setCell_callStack (s : State) (h : Nat) (c : HeapCell) : (s.setCell h c).callStack = s.callStack := rfl
@[simp] theorem setCell_scopes (s : State) (h : Nat) (c : HeapCell) : (s.setCell h c).scopes = s.scopes := rfl
@[simp] theorem setCell_strict (s : State) (h : Nat) (c : HeapCell) : (s.setCell h c).strict = s.strict := rfl
@[simp] theorem setCell_run (s : State) (h : Nat) (c : HeapCell) : (s.setCell h c).run = s.run := rfl
@[simp] theorem setCell_faultCause (s : State) (h : Nat) (c : HeapCell) : (s.setCell h c).faultCause = s.faultCause := rfl
@[simp] theorem setCell_faultPc (s : State) (h : Nat) (c : HeapCell) : (s.setCell h c).faultPc = s.faultPc := rfl
@[simp] theorem setCell_heap (s : State) (h : Nat) (c : HeapCell) : (s.setCell h c).heap = Heap.setCell s.heap h c := rfl
@[simp] theorem setCell_nextHandle (s : State) (h : Nat) (c : HeapCell) : (s.setCell h c).nextHandle = s.nextHandle := rfl
@[simp] theorem setCell_prog (s : State) (h : Nat) (c : HeapCell) : (s.setCell h c).prog = s.prog := rfl
@[simp] theorem setCell_pool (s : State) (h : Nat) (c : HeapCell) : (s.setCell h c).pool = s.pool := rfl
@[simp] theorem setCell_cfg (s : State) (h : Nat) (c : HeapCell) : (s.setCell h c).cfg = s.cfg := rfl
@[simp] theorem setCell_nanDraws (s : State) (h : Nat) (c : HeapCell) : (s.setCell h c).nanDraws = s.nanDraws := rfl

@[simp] theorem setStrict_regs (s : State) : (s.setStrict).regs = s.regs := rfl
@[simp] theorem setStrict_pc (s : State) : (s.setStrict).pc = s.pc := rfl
@[simp] theorem setStrict_callStack (s : State) : (s.setStrict).callStack = s.callStack := rfl
@[simp] theorem setStrict_scopes (s : State) : (s.setStrict).scopes = s.scopes := rfl
@[simp] theorem setStrict_strict (s : State) : (s.setStrict).strict = true := rfl
@[simp] theorem setStrict_run (s : State) : (s.setStrict).run = s.run := rfl
@[simp] theorem setStrict_faultCause (s : State) : (s.setStrict).faultCause = s.faultCause := rfl
@[simp] theorem setStrict_faultPc (s : State) : (s.setStrict).faultPc = s.faultPc := rfl
@[simp] theorem setStrict_heap (s : State) : (s.setStrict).heap = s.heap := rfl
@[simp] theorem setStrict_nextHandle (s : State) : (s.setStrict).nextHandle = s.nextHandle := rfl
@[simp] theorem setStrict_prog (s : State) : (s.setStrict).prog = s.prog := rfl
@[simp] theorem setStrict_pool (s : State) : (s.setStrict).pool = s.pool := rfl
@[simp] theorem setStrict_cfg (s : State) : (s.setStrict).cfg = s.cfg := rfl
@[simp] theorem setStrict_nanDraws (s : State) : (s.setStrict).nanDraws = s.nanDraws := rfl

@[simp] theorem writeAccumulator_regs (s : State) (b : Bool) : (s.writeAccumulator b).regs = s.regs.setIfInBounds 0 (.boolean b) := rfl
@[simp] theorem writeAccumulator_pc (s : State) (b : Bool) : (s.writeAccumulator b).pc = s.pc := rfl
@[simp] theorem writeAccumulator_callStack (s : State) (b : Bool) : (s.writeAccumulator b).callStack = s.callStack := rfl
@[simp] theorem writeAccumulator_scopes (s : State) (b : Bool) : (s.writeAccumulator b).scopes = s.scopes := rfl
@[simp] theorem writeAccumulator_strict (s : State) (b : Bool) : (s.writeAccumulator b).strict = s.strict := rfl
@[simp] theorem writeAccumulator_run (s : State) (b : Bool) : (s.writeAccumulator b).run = s.run := rfl
@[simp] theorem writeAccumulator_faultCause (s : State) (b : Bool) : (s.writeAccumulator b).faultCause = s.faultCause := rfl
@[simp] theorem writeAccumulator_faultPc (s : State) (b : Bool) : (s.writeAccumulator b).faultPc = s.faultPc := rfl
@[simp] theorem writeAccumulator_heap (s : State) (b : Bool) : (s.writeAccumulator b).heap = s.heap := rfl
@[simp] theorem writeAccumulator_nextHandle (s : State) (b : Bool) : (s.writeAccumulator b).nextHandle = s.nextHandle := rfl
@[simp] theorem writeAccumulator_prog (s : State) (b : Bool) : (s.writeAccumulator b).prog = s.prog := rfl
@[simp] theorem writeAccumulator_pool (s : State) (b : Bool) : (s.writeAccumulator b).pool = s.pool := rfl
@[simp] theorem writeAccumulator_cfg (s : State) (b : Bool) : (s.writeAccumulator b).cfg = s.cfg := rfl
@[simp] theorem writeAccumulator_nanDraws (s : State) (b : Bool) : (s.writeAccumulator b).nanDraws = s.nanDraws := rfl

@[simp] theorem writeFloat_num_regs (s : State) (dst : Nat) (f : F64) : (s.writeFloat dst (.num f)).regs = s.regs.setIfInBounds dst (.number f) := rfl
@[simp] theorem writeFloat_num_pc (s : State) (dst : Nat) (f : F64) : (s.writeFloat dst (.num f)).pc = s.pc := rfl
@[simp] theorem writeFloat_num_callStack (s : State) (dst : Nat) (f : F64) : (s.writeFloat dst (.num f)).callStack = s.callStack := rfl
@[simp] theorem writeFloat_num_scopes (s : State) (dst : Nat) (f : F64) : (s.writeFloat dst (.num f)).scopes = s.scopes := rfl
@[simp] theorem writeFloat_num_strict (s : State) (dst : Nat) (f : F64) : (s.writeFloat dst (.num f)).strict = s.strict := rfl
@[simp] theorem writeFloat_num_run (s : State) (dst : Nat) (f : F64) : (s.writeFloat dst (.num f)).run = s.run := rfl
@[simp] theorem writeFloat_num_faultCause (s : State) (dst : Nat) (f : F64) : (s.writeFloat dst (.num f)).faultCause = s.faultCause := rfl
@[simp] theorem writeFloat_num_faultPc (s : State) (dst : Nat) (f : F64) : (s.writeFloat dst (.num f)).faultPc = s.faultPc := rfl
@[simp] theorem writeFloat_num_heap (s : State) (dst : Nat) (f : F64) : (s.writeFloat dst (.num f)).heap = s.heap := rfl
@[simp] theorem writeFloat_num_nextHandle (s : State) (dst : Nat) (f : F64) : (s.writeFloat dst (.num f)).nextHandle = s.nextHandle := rfl
@[simp] theorem writeFloat_num_prog (s : State) (dst : Nat) (f : F64) : (s.writeFloat dst (.num f)).prog = s.prog := rfl
@[simp] theorem writeFloat_num_pool (s : State) (dst : Nat) (f : F64) : (s.writeFloat dst (.num f)).pool = s.pool := rfl
@[simp] theorem writeFloat_num_cfg (s : State) (dst : Nat) (f : F64) : (s.writeFloat dst (.num f)).cfg = s.cfg := rfl
@[simp] theorem writeFloat_num_nanDraws (s : State) (dst : Nat) (f : F64) : (s.writeFloat dst (.num f)).nanDraws = s.nanDraws := rfl

@[simp] theorem writeFloat_nan_regs (s : State) (dst : Nat) : (s.writeFloat dst .nan).regs = s.regs.setIfInBounds dst (.number (nanFrom (Config.nanGen s.nanDraws))) := rfl
@[simp] theorem writeFloat_nan_pc (s : State) (dst : Nat) : (s.writeFloat dst .nan).pc = s.pc := rfl
@[simp] theorem writeFloat_nan_callStack (s : State) (dst : Nat) : (s.writeFloat dst .nan).callStack = s.callStack := rfl
@[simp] theorem writeFloat_nan_scopes (s : State) (dst : Nat) : (s.writeFloat dst .nan).scopes = s.scopes := rfl
@[simp] theorem writeFloat_nan_strict (s : State) (dst : Nat) : (s.writeFloat dst .nan).strict = s.strict := rfl
@[simp] theorem writeFloat_nan_run (s : State) (dst : Nat) : (s.writeFloat dst .nan).run = s.run := rfl
@[simp] theorem writeFloat_nan_faultCause (s : State) (dst : Nat) : (s.writeFloat dst .nan).faultCause = s.faultCause := rfl
@[simp] theorem writeFloat_nan_faultPc (s : State) (dst : Nat) : (s.writeFloat dst .nan).faultPc = s.faultPc := rfl
@[simp] theorem writeFloat_nan_heap (s : State) (dst : Nat) : (s.writeFloat dst .nan).heap = s.heap := rfl
@[simp] theorem writeFloat_nan_nextHandle (s : State) (dst : Nat) : (s.writeFloat dst .nan).nextHandle = s.nextHandle := rfl
@[simp] theorem writeFloat_nan_prog (s : State) (dst : Nat) : (s.writeFloat dst .nan).prog = s.prog := rfl
@[simp] theorem writeFloat_nan_pool (s : State) (dst : Nat) : (s.writeFloat dst .nan).pool = s.pool := rfl
@[simp] theorem writeFloat_nan_cfg (s : State) (dst : Nat) : (s.writeFloat dst .nan).cfg = s.cfg := rfl
@[simp] theorem writeFloat_nan_nanDraws (s : State) (dst : Nat) : (s.writeFloat dst .nan).nanDraws = s.nanDraws + 1 := rfl

/-- Reading a register reads the register file. -/
theorem reg_eq (s : State) (r : Nat) : s.reg r = s.regs[r]?.getD .undefined := rfl

/-- A register holds what was last written to it (10_state.md R15). -/
@[simp] theorem reg_setReg_same (s : State) {r : Nat} (v : Value) (h : r < numRegs) : (s.setReg r v).reg r = v := by
  simp [State.reg, h]

/-- A write leaves every other register alone (10_state.md R15). -/
@[simp] theorem reg_setReg_other (s : State) {r q : Nat} (v : Value) (h : q ≠ r) : (s.setReg r v).reg q = s.reg q := by
  simp [State.reg, Vector.getElem?_setIfInBounds_ne (Ne.symm h)]

/-- Registers are read through any update that leaves the register file alone. -/
theorem reg_congr {s t : State} (h : t.regs = s.regs) (r : Nat) : t.reg r = s.reg r := by
  simp [State.reg, h]

@[simp] theorem reg_enterFatal (s : State) (c : Cause) (r : Nat) : (s.enterFatal c).reg r = s.reg r := rfl
@[simp] theorem reg_haltOk (s : State) (r : Nat) : s.haltOk.reg r = s.reg r := rfl
@[simp] theorem reg_jumpTo (s : State) (t : Int) (r : Nat) : (s.jumpTo t).reg r = s.reg r := rfl
@[simp] theorem reg_advance (s : State) (r : Nat) : s.advance.reg r = s.reg r := rfl
@[simp] theorem reg_pushFrame (s : State) (r : Nat) : s.pushFrame.reg r = s.reg r := rfl
@[simp] theorem reg_withStacks (s : State) (calls : List Int) (ms : List Mapping) (r : Nat) :
    (s.withStacks calls ms).reg r = s.reg r := rfl
@[simp] theorem reg_withScopes (s : State) (ms : List Mapping) (r : Nat) : (s.withScopes ms).reg r = s.reg r := rfl
@[simp] theorem reg_setCell (s : State) (h : Nat) (c : HeapCell) (r : Nat) : (s.setCell h c).reg r = s.reg r := rfl
@[simp] theorem reg_setStrict (s : State) (r : Nat) : s.setStrict.reg r = s.reg r := rfl

/-- The accumulator is register 0 (42_compare.md R115). -/
theorem writeAccumulator_eq (s : State) (b : Bool) : s.writeAccumulator b = s.setReg 0 (.boolean b) := rfl

/-- A write of a definite Number is a register write. -/
theorem writeFloat_num (s : State) (dst : Nat) (f : F64) : s.writeFloat dst (.num f) = s.setReg dst (.number f) := rfl

end Sys2Proof.Machine
end

