-- ==== Sys2Proof/Laws/Ops.lean ====
section
/-! SUPPORT. Laws/Ops.lean: what each shared operation can do, said once: when it runs its continuation, and, if it answers
a next state, which. -/

namespace Sys2Proof.Machine

/-- Raising is a next state (60_exceptions.md R181). -/
@[simp] theorem raise_next {c : Cause} {s t : State} : raise c s = .next t ↔ s.enterFatal c = t := by
  simp [raise]

theorem withRegisters_ok {used : List Nat} {s : State} {k : Result} (h : ∀ r ∈ used, r < numRegs) :
    withRegisters used s k = k := by
  simp only [withRegisters]
  rw [if_pos]
  simpa using h

theorem withRegisters_out {used : List Nat} {s : State} {k : Result} (h : ∃ r ∈ used, numRegs ≤ r) :
    withRegisters used s k = raise .registerIndexOutOfRange s := by
  simp only [withRegisters]
  rw [if_neg]
  simpa using h

/-- With registers in range the continuation ran; otherwise the check was fatal (10_state.md R18). -/
theorem withRegisters_next {used : List Nat} {s t : State} {k : Result} (h : withRegisters used s k = .next t) :
    ((∀ r ∈ used, r < numRegs) ∧ k = .next t) ∨ t = s.enterFatal .registerIndexOutOfRange := by
  by_cases hr : ∀ r ∈ used, r < numRegs
  · exact .inl ⟨hr, by rwa [withRegisters_ok hr] at h⟩
  · right
    rw [withRegisters_out (by simpa using hr), raise_next] at h
    exact h.symm

theorem withNumbers_ok {s : State} {a b : Nat} {x y : F64} {k : F64 → F64 → Result} (ha : s.reg a = .number x)
    (hb : s.reg b = .number y) : withNumbers s a b k = k x y := by
  simp [withNumbers, ha, hb]

theorem withNumbers_mismatch {s : State} {a b : Nat} {k : F64 → F64 → Result}
    (h : (∀ x, s.reg a ≠ .number x) ∨ (∀ y, s.reg b ≠ .number y)) :
    withNumbers s a b k = raise .typeMismatchArith s := by
  unfold withNumbers
  split
  · rename_i x y ha hb
    rcases h with h | h
    · exact absurd ha (h x)
    · exact absurd hb (h y)
  · rfl

theorem withNumbers_next {s t : State} {a b : Nat} {k : F64 → F64 → Result} (h : withNumbers s a b k = .next t) :
    (∃ x y, s.reg a = .number x ∧ s.reg b = .number y ∧ k x y = .next t) ∨ t = s.enterFatal .typeMismatchArith := by
  unfold withNumbers at h
  split at h
  · rename_i x y ha hb
    exact .inl ⟨x, y, ha, hb, h⟩
  · exact .inr (raise_next.mp h).symm

/-- A binary arithmetic instruction on two Numbers (41_arithmetic.md R92). -/
theorem binaryArith_ok {op : F64 → F64 → FloatResult} {dst a b : Nat} {s : State} {x y : F64} (hd : dst < numRegs)
    (ha : a < numRegs) (hb : b < numRegs) (hx : s.reg a = .number x) (hy : s.reg b = .number y) :
    binaryArith op dst a b s = .next (s.writeFloat dst (op x y)).advance := by
  rw [binaryArith, withRegisters_ok (by simp [hd, ha, hb]), withNumbers_ok hx hy]

theorem binaryArith_next {op : F64 → F64 → FloatResult} {dst a b : Nat} {s t : State}
    (h : binaryArith op dst a b s = .next t) :
    (∃ c, t = s.enterFatal c) ∨ (dst < numRegs ∧ ∃ r, t = (s.writeFloat dst r).advance) := by
  rcases withRegisters_next h with ⟨hr, h⟩ | rfl
  · rcases withNumbers_next h with ⟨x, y, -, -, h⟩ | rfl
    · simp only [Host.Outcome.next.injEq] at h
      exact .inr ⟨hr dst (by simp), _, h.symm⟩
    · exact .inl ⟨_, rfl⟩
  · exact .inl ⟨_, rfl⟩

theorem withObjectKey_ok {s : State} {obj key h : Nat} {t : Str} {k : Nat → Str → Result} (ho : s.reg obj = .object h)
    (hk : s.reg key = .string t) : withObjectKey s obj key k = k h t := by
  simp [withObjectKey, ho, hk]

theorem withObjectKey_mismatch {s : State} {obj key : Nat} {k : Nat → Str → Result}
    (h : (∀ i, s.reg obj ≠ .object i) ∨ (∀ t, s.reg key ≠ .string t)) :
    withObjectKey s obj key k = raise .typeMismatchProp s := by
  unfold withObjectKey
  split
  · rename_i i t ho hk
    rcases h with h | h
    · exact absurd ho (h i)
    · exact absurd hk (h t)
  · rfl

theorem withObjectKey_next {s t : State} {obj key : Nat} {k : Nat → Str → Result}
    (h : withObjectKey s obj key k = .next t) :
    (∃ i u, s.reg obj = .object i ∧ s.reg key = .string u ∧ k i u = .next t) ∨
      t = s.enterFatal .typeMismatchProp := by
  unfold withObjectKey at h
  split at h
  · rename_i i u ho hk
    exact .inl ⟨i, u, ho, hk, h⟩
  · exact .inr (raise_next.mp h).symm

theorem withArrayPosition_ok {s : State} {arr idx h p : Nat} {f : F64} {k : Nat → Nat → Result}
    (ha : s.reg arr = .array h) (hi : s.reg idx = .number f) (hp : position f = some p) :
    withArrayPosition s arr idx k = k h p := by
  simp [withArrayPosition, ha, hi, hp]

theorem withArrayPosition_mismatch {s : State} {arr idx : Nat} {k : Nat → Nat → Result}
    (h : (∀ i, s.reg arr ≠ .array i) ∨ (∀ f, s.reg idx ≠ .number f)) :
    withArrayPosition s arr idx k = raise .typeMismatchElem s := by
  unfold withArrayPosition
  split
  · rename_i i f ha hi
    rcases h with h | h
    · exact absurd ha (h i)
    · exact absurd hi (h f)
  · rfl

theorem withArrayPosition_next {s t : State} {arr idx : Nat} {k : Nat → Nat → Result}
    (h : withArrayPosition s arr idx k = .next t) :
    (∃ i f p, s.reg arr = .array i ∧ s.reg idx = .number f ∧ position f = some p ∧ k i p = .next t) ∨
      t = s.enterFatal .badIndex ∨ t = s.enterFatal .typeMismatchElem := by
  unfold withArrayPosition at h
  split at h
  · rename_i i f ha hi
    split at h
    · rename_i p hp
      exact .inl ⟨i, f, p, ha, hi, hp, h⟩
    · exact .inr (.inl (raise_next.mp h).symm)
  · exact .inr (.inr (raise_next.mp h).symm)

theorem withObject_ok {s : State} {h : Nat} {m : Mapping} {k : Mapping → Result}
    (hc : Heap.cell s.heap h = some (.obj m)) : withObject s h k = k m := by
  simp [withObject, hc]

theorem withObject_next {s t : State} {h : Nat} {k : Mapping → Result} (hk : withObject s h k = .next t) :
    ∃ m, Heap.cell s.heap h = some (.obj m) ∧ k m = .next t := by
  unfold withObject at hk
  split at hk
  · rename_i m hc
    exact ⟨m, hc, hk⟩
  · cases hk
  · cases hk

theorem withArray_ok {s : State} {h : Nat} {a : List Value} {k : List Value → Result}
    (hc : Heap.cell s.heap h = some (.arr a)) : withArray s h k = k a := by
  simp [withArray, hc]

theorem withArray_next {s t : State} {h : Nat} {k : List Value → Result} (hk : withArray s h k = .next t) :
    ∃ a, Heap.cell s.heap h = some (.arr a) ∧ k a = .next t := by
  unfold withArray at hk
  split at hk
  · rename_i a hc
    exact ⟨a, hc, hk⟩
  · cases hk
  · cases hk

theorem withTopScope_ok {s : State} {top : Mapping} {below : List Mapping} {k : Mapping → List Mapping → Result}
    (h : s.scopes = top :: below) : withTopScope s k = k top below := by
  simp [withTopScope, h]

theorem withTopScope_next {s t : State} {k : Mapping → List Mapping → Result} (h : withTopScope s k = .next t) :
    (∃ top below, s.scopes = top :: below ∧ k top below = .next t) ∨ t = s.enterFatal .scopeEmpty := by
  unfold withTopScope at h
  split at h
  · exact .inr (raise_next.mp h).symm
  · rename_i top below hs
    exact .inl ⟨top, below, hs, h⟩

/-- A write under a capacity is the write, and there was room for it (20_memory.md R59). -/
theorem setWithin_some {cap : Option Nat} {m m' : Mapping} {k : Str} {v : Value} (h : setWithin cap m k v = some m') :
    (Mapping.has m k = true ∨ fits m.length cap = true) ∧ m' = Mapping.set m k v := by
  unfold setWithin at h
  split at h
  · rename_i hc
    simp only [Option.some.injEq] at h
    exact ⟨by simpa using hc, h.symm⟩
  · cases h

/-- An allocation takes `NEXT_HANDLE`, and there was room for it (20_memory.md R46, R59). -/
theorem alloc_some {s t : State} {c : HeapCell} {h : Nat} (ha : s.alloc c = some (h, t)) :
    fits s.heap.length s.cfg.maxHeapCells = true ∧ h = s.nextHandle ∧
      t = { s.setCell s.nextHandle c with nextHandle := s.nextHandle + 1 } := by
  unfold State.alloc at ha
  split at ha
  · rename_i hf
    simp only [Option.some.injEq, Prod.mk.injEq] at ha
    exact ⟨hf, ha.1.symm, ha.2.symm⟩
  · cases ha

/-- A capacity has room exactly when one more does not exceed it. -/
theorem fits_iff {used : Nat} {cap : Option Nat} : fits used cap = true ↔ ∀ m, cap = some m → used < m := by
  cases cap <;> simp [fits]

/-- The length of a sequence after a write (44_aggregate.md R145). -/
theorem length_writeElement (a : List Value) (p : Nat) (v : Value) :
    (writeElement a p v).length = max a.length (p + 1) := by
  unfold writeElement
  split
  · simp; omega
  · simp; omega

/-- What an element of the sequence after a write can be. -/
theorem mem_writeElement {a : List Value} {p : Nat} {v w : Value} (h : w ∈ writeElement a p v) :
    w ∈ a ∨ w = v ∨ w = .undefined := by
  unfold writeElement at h
  split at h
  · rcases List.mem_or_eq_of_mem_set h with h | h <;> tauto
  · simp only [List.mem_append, List.mem_replicate, List.mem_singleton] at h
    tauto

/-- A key that is present has a Value. -/
theorem has_iff {m : Mapping} {k : Str} : Mapping.has m k = true ↔ Mapping.get m k ≠ none := by
  simp [Mapping.has, Mapping.get, Option.isSome_iff_ne_none]

/-- The key of the spec's default is a numeral, and a numeral has one value (45_scope_func.md R161). -/
theorem decimalKey_injective : Function.Injective decimalKey := by
  intro i j h
  apply BitVec.eq_of_toNat_eq
  have hc : ∀ (n : Nat) (c : Char), c ∈ Nat.toDigits 10 n → c.toNat < 2 ^ 8 := by
    intro n c hc
    have := Nat.isDigit_of_mem_toDigits (by omega) (by omega) hc
    simp only [Char.isDigit, Bool.and_eq_true, decide_eq_true_eq, ge_iff_le] at this
    have h2 := this.2
    rw [UInt32.le_iff_toNat_le] at h2
    have h3 : ('9'.val).toNat = 57 := by decide
    simp only [Char.toNat]
    omega
  have hd : Nat.toDigits 10 i.toNat = Nat.toDigits 10 j.toNat := by
    have hi := hc i.toNat
    have hj := hc j.toNat
    unfold decimalKey at h
    revert h hi hj
    generalize Nat.toDigits 10 i.toNat = a
    generalize Nat.toDigits 10 j.toNat = b
    intro h ha hb
    induction a generalizing b with
    | nil => cases b <;> simp_all
    | cons p a ih =>
      cases b with
      | nil => simp at h
      | cons q b =>
        simp only [List.map_cons, List.cons.injEq, List.forall_mem_cons] at h ha hb
        have hpq : p = q := by
          have := congrArg BitVec.toNat h.1
          simp only [BitVec.toNat_ofNat, Nat.mod_eq_of_lt ha.1, Nat.mod_eq_of_lt hb.1] at this
          exact Char.toNat_inj.mp this
        rw [hpq, ih b h.2 ha.2 hb.2]
  rw [← Nat.ofDigitChars_ten_toDigits (n := i.toNat), hd, Nat.ofDigitChars_ten_toDigits]

end Sys2Proof.Machine
end

