-- ==== Sys2Proof/Laws/Exec.lean ====
section
/-! SUPPORT. Laws/Exec.lean: everything an instruction, and a step, can do to the state, said once (`exec_effect`,
`step_effect`); the invariants follow by cases on it. -/

namespace Sys2Proof.Machine

/-- Where a Value that an instruction writes comes from: it carries no handle, or it was already somewhere in the machine. -/
inductive Sourced (s : State) : Value → Prop
  | undefined : Sourced s .undefined
  | null : Sourced s .null
  | boolean (b : Bool) : Sourced s (.boolean b)
  | number (f : F64) : Sourced s (.number f)
  | string (t : Str) : Sourced s (.string t)
  | function (n : U32) : Sourced s (.function n)
  | register (r : Nat) (hr : r < numRegs) : Sourced s (s.reg r)
  | pool {v : Value} (h : v ∈ s.pool) : Sourced s v
  | property {v : Value} {h : Nat} {m : Mapping} {k : Str} (hc : Heap.cell s.heap h = some (.obj m))
      (hg : Mapping.get m k = some v) : Sourced s v
  | element {v : Value} {h : Nat} {a : List Value} {p : Nat} (hc : Heap.cell s.heap h = some (.arr a))
      (hg : a[p]? = some v) : Sourced s v
  | variable {v : Value} {top : Mapping} {below : List Mapping} {k : Str} (hs : s.scopes = top :: below)
      (hg : Mapping.get top k = some v) : Sourced s v

/-- Everything an instruction can do, from one state to the next. -/
inductive Effect (s : State) : State → Prop
  | fatal (c : Cause) : Effect s (s.enterFatal c)
  | writes (dst : Nat) (v : Value) (hd : dst < numRegs) (hv : Sourced s v) : Effect s (s.setReg dst v).advance
  | draws (dst : Nat) (hd : dst < numRegs) : Effect s (s.writeFloat dst .nan).advance
  | jumps (off : U32) : Effect s (s.jumpTo (s.pc + offsetOf off))
  | falls : Effect s s.advance
  | calls (n : U32) (room : fits s.callStack.length s.cfg.maxCallDepth = true) :
      Effect s (s.pushFrame.jumpTo (n.toNat : Int))
  | returns (saved : Int) (calls : List Int) (top : Mapping) (below : List Mapping)
      (hc : s.callStack = saved :: calls) (hs : s.scopes = top :: below) :
      Effect s ((s.withStacks calls below).jumpTo saved)
  | allocatesObject (dst : Nat) (hd : dst < numRegs) (room : fits s.heap.length s.cfg.maxHeapCells = true) :
      Effect s (State.setReg { s.setCell s.nextHandle (.obj []) with nextHandle := s.nextHandle + 1 } dst
        (.object s.nextHandle)).advance
  | allocatesArray (dst : Nat) (hd : dst < numRegs) (room : fits s.heap.length s.cfg.maxHeapCells = true) :
      Effect s (State.setReg { s.setCell s.nextHandle (.arr []) with nextHandle := s.nextHandle + 1 } dst
        (.array s.nextHandle)).advance
  | setsProperty (h r : Nat) (m : Mapping) (k : Str) (hr : r < numRegs) (hc : Heap.cell s.heap h = some (.obj m))
      (room : Mapping.has m k = true ∨ fits m.length s.cfg.maxObjectKeys = true) :
      Effect s (s.setCell h (.obj (Mapping.set m k (s.reg r)))).advance
  | setsElement (h r p : Nat) (a : List Value) (hr : r < numRegs) (hc : Heap.cell s.heap h = some (.arr a))
      (room : p < s.cfg.maxArrayLen) : Effect s (s.setCell h (.arr (writeElement a p (s.reg r)))).advance
  | setsVariable (top : Mapping) (below : List Mapping) (var : U32) (v : Value) (hs : s.scopes = top :: below)
      (hv : v = .undefined ∨ ∃ r < numRegs, v = s.reg r)
      (room : Mapping.has top (scopeKey s.cfg var) = true ∨ fits top.length s.cfg.maxScopeEntries = true) :
      Effect s (s.withScopes (Mapping.set top (scopeKey s.cfg var) v :: below)).advance
  | setsStrict : Effect s s.setStrict.advance

theorem next_inj {s t : State} (h : (Host.Outcome.next s : Result) = .next t) : t = s := by
  simp only [Host.Outcome.next.injEq] at h
  exact h.symm

/-- An arithmetic write is a register write or a draw. -/
theorem effect_writeFloat (s : State) {dst : Nat} (hd : dst < numRegs) (r : FloatResult) :
    Effect s (s.writeFloat dst r).advance := by
  cases r with
  | num f => exact .writes dst (.number f) hd (.number f)
  | nan => exact .draws dst hd

theorem effect_binaryArith {op : F64 → F64 → FloatResult} {dst a b : Nat} {s t : State}
    (h : binaryArith op dst a b s = .next t) : Effect s t := by
  rcases binaryArith_next h with ⟨c, rfl⟩ | ⟨hd, r, rfl⟩
  · exact .fatal c
  · exact effect_writeFloat s hd r

/-- A check of registers followed by an effect is an effect. -/
theorem effect_withRegisters {used : List Nat} {s t : State} {k : Result} (h : withRegisters used s k = .next t)
    (hk : (∀ r ∈ used, r < numRegs) → k = .next t → Effect s t) : Effect s t := by
  rcases withRegisters_next h with ⟨hr, h⟩ | rfl
  · exact hk hr h
  · exact .fatal _

theorem effect_ordered {holds : ValueOrder → Bool} {a b : Nat} {s t : State} (h : ordered holds a b s = .next t) :
    Effect s t := by
  refine effect_withRegisters h fun _ h => ?_
  have acc (e : Bool) : Effect s (s.writeAccumulator e).advance := .writes 0 (.boolean e) (by decide) (.boolean e)
  split at h
  · rw [raise_next] at h; exact h ▸ .fatal _
  · split at h
    · rw [raise_next] at h; exact h ▸ .fatal _
    · exact next_inj h ▸ acc _
  · exact next_inj h ▸ acc _

theorem effect_writeScope {var : U32} {v : Value} {s t : State} (hv : v = .undefined ∨ ∃ r < numRegs, v = s.reg r)
    (h : writeScope var v s = .next t) : Effect s t := by
  rcases withTopScope_next h with ⟨top, below, hs, h⟩ | rfl
  · split at h
    · rename_i top' ht
      obtain ⟨room, rfl⟩ := setWithin_some ht
      exact next_inj h ▸ .setsVariable top below var v hs hv room
    · rw [raise_next] at h; exact h ▸ .fatal _
  · exact .fatal _

/-- Whatever an instruction does is one of the effects above. -/
theorem exec_effect {i : Instr} {s t : State} (h : exec i s = .next t) : Effect s t := by
  cases i with
  | loadConst dst k =>
    refine effect_withRegisters h fun hr h => ?_
    split at h
    · rename_i v hv
      exact next_inj h ▸ .writes dst v (hr dst (by simp)) (.pool (List.mem_of_getElem? hv))
    · rw [raise_next] at h; exact h ▸ .fatal _
  | loadUndef dst =>
    exact effect_withRegisters h fun hr h => next_inj h ▸ .writes dst _ (hr dst (by simp)) .undefined
  | loadNull dst =>
    exact effect_withRegisters h fun hr h => next_inj h ▸ .writes dst _ (hr dst (by simp)) .null
  | loadBool dst b =>
    exact effect_withRegisters h fun hr h => next_inj h ▸ .writes dst _ (hr dst (by simp)) (.boolean b)
  | move dst src =>
    exact effect_withRegisters h fun hr h =>
      next_inj h ▸ .writes dst _ (hr dst (by simp)) (.register src (hr src (by simp)))
  | add dst a b => exact effect_binaryArith h
  | sub dst a b => exact effect_binaryArith h
  | mul dst a b => exact effect_binaryArith h
  | div dst a b => exact effect_binaryArith h
  | mod dst a b => exact effect_binaryArith h
  | pow dst a b => exact effect_binaryArith h
  | neg dst src =>
    refine effect_withRegisters h fun hr h => ?_
    split at h
    · exact next_inj h ▸ .writes dst _ (hr dst (by simp)) (.number _)
    · rw [raise_next] at h; exact h ▸ .fatal _
  | eq a b =>
    exact effect_withRegisters h fun _ h => next_inj h ▸ .writes 0 _ (by decide) (.boolean _)
  | lt a b => exact effect_ordered h
  | le a b => exact effect_ordered h
  | jmp off => exact next_inj h ▸ .jumps off
  | jmpIf cond off =>
    refine effect_withRegisters h fun _ h => ?_
    split at h
    · exact next_inj h ▸ .jumps off
    · exact next_inj h ▸ .falls
  | call func argc =>
    refine effect_withRegisters h fun _ h => ?_
    split at h
    · split at h
      · rename_i n _ room
        exact next_inj h ▸ .calls n room
      · rw [raise_next] at h; exact h ▸ .fatal _
    · rw [raise_next] at h; exact h ▸ .fatal _
  | ret start count =>
    simp only [exec, execReturn] at h
    split at h
    · rw [raise_next] at h; exact h ▸ .fatal _
    · rename_i saved calls hc
      split at h
      · rw [raise_next] at h; exact h ▸ .fatal _
      · rename_i top below hs
        exact next_inj h ▸ .returns saved calls top below hc hs
  | newObject dst =>
    refine effect_withRegisters h fun hr h => ?_
    split at h
    · rename_i ha
      obtain ⟨room, rfl, rfl⟩ := alloc_some ha
      exact next_inj h ▸ .allocatesObject dst (hr dst (by simp)) room
    · rw [raise_next] at h; exact h ▸ .fatal _
  | newArray dst =>
    refine effect_withRegisters h fun hr h => ?_
    split at h
    · rename_i ha
      obtain ⟨room, rfl, rfl⟩ := alloc_some ha
      exact next_inj h ▸ .allocatesArray dst (hr dst (by simp)) room
    · rw [raise_next] at h; exact h ▸ .fatal _
  | getProp dst obj key =>
    refine effect_withRegisters h fun hr h => ?_
    rcases withObjectKey_next h with ⟨i, k, -, -, h⟩ | rfl
    · obtain ⟨m, hc, h⟩ := withObject_next h
      refine next_inj h ▸ .writes dst _ (hr dst (by simp)) ?_
      cases hg : Mapping.get m k with
      | none => exact .undefined
      | some v => exact .property hc hg
    · exact .fatal _
  | setProp obj key val =>
    refine effect_withRegisters h fun hr h => ?_
    rcases withObjectKey_next h with ⟨i, k, -, -, h⟩ | rfl
    · obtain ⟨m, hc, h⟩ := withObject_next h
      split at h
      · rename_i m' hm
        obtain ⟨room, rfl⟩ := setWithin_some hm
        exact next_inj h ▸ .setsProperty i val m k (hr val (by simp)) hc room
      · rw [raise_next] at h; exact h ▸ .fatal _
    · exact .fatal _
  | getElem dst arr idx =>
    refine effect_withRegisters h fun hr h => ?_
    rcases withArrayPosition_next h with ⟨i, f, p, -, -, -, h⟩ | rfl | rfl
    · obtain ⟨a, hc, h⟩ := withArray_next h
      refine next_inj h ▸ .writes dst _ (hr dst (by simp)) ?_
      cases hg : a[p]? with
      | none => exact .undefined
      | some v => exact .element hc hg
    · exact .fatal _
    · exact .fatal _
  | setElem arr idx val =>
    refine effect_withRegisters h fun hr h => ?_
    rcases withArrayPosition_next h with ⟨i, f, p, -, -, -, h⟩ | rfl | rfl
    · split at h
      · rename_i room
        obtain ⟨a, hc, h⟩ := withArray_next h
        exact next_inj h ▸ .setsElement i val p a (hr val (by simp)) hc room
      · rw [raise_next] at h; exact h ▸ .fatal _
    · exact .fatal _
    · exact .fatal _
  | closure dst target =>
    exact effect_withRegisters h fun hr h => next_inj h ▸ .writes dst _ (hr dst (by simp)) (.function _)
  | getScope dst var =>
    refine effect_withRegisters h fun hr h => ?_
    rcases withTopScope_next h with ⟨top, below, hs, h⟩ | rfl
    · split at h
      · rename_i v hg
        exact next_inj h ▸ .writes dst v (hr dst (by simp)) (.variable hs hg)
      · split at h
        · rw [raise_next] at h; exact h ▸ .fatal _
        · exact next_inj h ▸ .writes dst _ (hr dst (by simp)) .undefined
    · exact .fatal _
  | setScope var src =>
    exact effect_withRegisters h fun hr h => effect_writeScope (.inr ⟨src, hr src (by simp), rfl⟩) h
  | typeOf dst src =>
    exact effect_withRegisters h fun hr h => next_inj h ▸ .writes dst _ (hr dst (by simp)) (.string _)
  | instanceOf dst obj ctor =>
    exact effect_withRegisters h fun hr h => next_inj h ▸ .writes dst _ (hr dst (by simp)) (.boolean _)
  | declareFunc dst =>
    exact effect_withRegisters h fun hr h => next_inj h ▸ .writes dst _ (hr dst (by simp)) (.function _)
  | declareVar var => exact effect_writeScope (.inl rfl) h
  | useStrict => exact next_inj h ▸ .setsStrict

/-- Where an instruction was fetched, `pc` indexes the program (10_state.md R20). -/
theorem fetch_instruction {s : State} {i : Instr} (h : fetch s = .instruction i) :
    0 ≤ s.pc ∧ s.pc < s.prog.length := by
  unfold fetch at h
  split at h
  · cases h
  · split at h
    · cases h
    · rename_i hne hneg
      refine ⟨by omega, ?_⟩
      unfold Program.at at h
      split at h
      · rename_i code hp
        split at h
        · rename_i j hj
          have := (List.getElem?_eq_some_iff.mp hj).1
          simp only [hp, Program.length]
          omega
        · cases h
      · rename_i words hp
        split at h
        · rename_i w hw
          have := (List.getElem?_eq_some_iff.mp hw).1
          simp only [hp, Program.length]
          omega
        · cases h

/-- Everything a step can do: end the run, be fatal, or execute the instruction at `pc`. -/
theorem step_effect {s t : State} (h : step s = .next t) :
    s.run = .running ∧ ((s.pc = s.prog.length ∧ t = s.haltOk) ∨ (∃ c, t = s.enterFatal c) ∨
      (∃ i, fetch s = .instruction i ∧ exec i s = .next t ∧ Effect s t)) := by
  unfold step at h
  split at h
  · cases h
  · cases h
  · rename_i hrun
    refine ⟨hrun, ?_⟩
    split at h
    · rename_i hf
      refine .inl ⟨?_, next_inj h⟩
      unfold fetch at hf
      split at hf
      · assumption
      · split at hf
        · cases hf
        · unfold Program.at at hf
          repeat' split at hf
          all_goals cases hf
    · exact .inr (.inl ⟨_, (raise_next.mp h).symm⟩)
    · exact .inr (.inl ⟨_, (raise_next.mp h).symm⟩)
    · rename_i i hf
      exact .inr (.inr ⟨i, hf, h, exec_effect h⟩)

end Sys2Proof.Machine
end

