-- ==== Sys2Proof/Laws/Float.lean ====
section
/-! SUPPORT. Laws/Float.lean: the one rounding function rounds correctly, NaN draws are NaNs, and the pattern and magnitude
of a binary64 fit together. -/

namespace Sys2Proof.Machine

/-- The quotient with ties to even is within half a divisor, and is even where it is exactly half a divisor away. -/
theorem divTiesToEven_near (n D : Nat) (hD : 0 < D) :
    2 * ((divTiesToEven n D * D : Nat) - n : Int).natAbs ≤ D ∧
      (2 * ((divTiesToEven n D * D : Nat) - n : Int).natAbs = D → divTiesToEven n D % 2 = 0) := by
  have hdm := Nat.div_add_mod n D
  have hlt := Nat.mod_lt n hD
  unfold divTiesToEven
  simp only
  generalize hq : n / D = q at hdm ⊢
  generalize n % D = r at hdm hlt ⊢
  have hc : q * D = D * q := Nat.mul_comm _ _
  split
  · constructor
    · omega
    · intro h; omega
  · split
    · have : (q + 1) * D = D * q + D := by ring
      rw [this]
      constructor
      · omega
      · intro h; omega
    · rcases Nat.mod_two_eq_zero_or_one q with h2 | h2
      · rw [h2]
        simp only [Nat.add_zero]
        constructor
        · omega
        · intro _; exact h2
      · rw [h2]
        have : (q + 1) * D = D * q + D := by ring
        rw [this]
        constructor
        · omega
        · intro _; omega

/-- No multiple of the divisor is nearer, and another multiple is as near only where the quotient is even. -/
theorem divTiesToEven_nearest (n D g : Nat) (hD : 0 < D) (hg : g ≠ divTiesToEven n D) :
    ((divTiesToEven n D * D : Nat) - n : Int).natAbs ≤ ((g * D : Nat) - n : Int).natAbs ∧
      (((divTiesToEven n D * D : Nat) - n : Int).natAbs = ((g * D : Nat) - n : Int).natAbs →
        divTiesToEven n D % 2 = 0) := by
  obtain ⟨hnear, heven⟩ := divTiesToEven_near n D hD
  generalize divTiesToEven n D = m at *
  have hgap : D ≤ ((g * D : Nat) - (m * D : Nat) : Int).natAbs := by
    rcases Nat.lt_or_gt_of_ne hg with h | h
    · have : (g + 1) * D ≤ m * D := Nat.mul_le_mul_right D h
      have : (g + 1) * D = g * D + D := by ring
      omega
    · have : (m + 1) * D ≤ g * D := Nat.mul_le_mul_right D h
      have : (m + 1) * D = m * D + D := by ring
      omega
  constructor
  · omega
  · intro h
    apply heven
    omega

/-- The exponent that `roundUnits` works at: the quotient fits 53 bits there, and has all 53 unless the exponent is 0. -/
theorem roundUnits_scale (n d : Nat) (hd : 0 < d) :
    let e := (n / d).log2 - 52
    n < d * 2 ^ e * 2 ^ 53 ∧ (0 < e → d * 2 ^ e * 2 ^ 52 ≤ n) := by
  intro e
  constructor
  · have h1 : n / d < 2 ^ (e + 53) := by
      calc n / d < 2 ^ ((n / d).log2 + 1) := Nat.lt_log2_self
        _ ≤ 2 ^ (e + 53) := Nat.pow_le_pow_right (by norm_num) (by omega)
    have h2 := (Nat.div_lt_iff_lt_mul hd).mp h1
    calc n < 2 ^ (e + 53) * d := h2
      _ = d * 2 ^ e * 2 ^ 53 := by rw [pow_add]; ring
  · intro he
    have hne : n / d ≠ 0 := by
      intro h0
      simp [e, h0] at he
    have h1 : 2 ^ (e + 52) ≤ n / d := by
      calc 2 ^ (e + 52) = 2 ^ (n / d).log2 := by congr 1; omega
        _ ≤ n / d := Nat.log2_self_le hne
    have h2 := (Nat.le_div_iff_mul_le hd).mp h1
    calc d * 2 ^ e * 2 ^ 52 = 2 ^ (e + 52) * d := by rw [pow_add]; ring
      _ ≤ n := h2

/-- The rounded significand fits 53 bits (or is 2^53), and has all 53 unless the exponent is 0. -/
theorem divTiesToEven_range (n D : Nat) (hD : 0 < D) :
    (n < D * 2 ^ 53 → divTiesToEven n D ≤ 2 ^ 53) ∧ (D * 2 ^ 52 ≤ n → 2 ^ 52 ≤ divTiesToEven n D) := by
  have hq : n / D ≤ divTiesToEven n D ∧ divTiesToEven n D ≤ n / D + 1 := by
    unfold divTiesToEven
    simp only
    split
    · omega
    · split <;> omega
  constructor
  · intro h
    have : n / D < 2 ^ 53 := (Nat.div_lt_iff_lt_mul hD).mpr (by rwa [Nat.mul_comm])
    omega
  · intro h
    have : 2 ^ 52 ≤ n / D := (Nat.le_div_iff_mul_le hD).mpr (by rwa [Nat.mul_comm])
    omega

theorem withSign_toNat (neg : Bool) {low : Nat} (h : low < 2 ^ 63) :
    (withSign neg low).toNat = (if neg then 2 ^ 63 else 0) + low := by
  simp only [withSign, BitVec.toNat_ofNat]
  cases neg <;> (simp; omega)

@[simp] theorem fSign_withSign (neg : Bool) {low : Nat} (h : low < 2 ^ 63) : fSign (withSign neg low) = neg := by
  rw [fSign, BitVec.msb_eq_decide, withSign_toNat neg h]
  cases neg
  · simp; omega
  · simp

theorem fBiased_withSign (neg : Bool) {low : Nat} (h : low < 2 ^ 63) :
    fBiased (withSign neg low) = low / 2 ^ 52 := by
  rw [fBiased, withSign_toNat neg h]
  cases neg <;> (simp; omega)

theorem fFraction_withSign (neg : Bool) {low : Nat} (h : low < 2 ^ 63) :
    fFraction (withSign neg low) = low % 2 ^ 52 := by
  rw [fFraction, withSign_toNat neg h]
  cases neg
  · simp
  · simp; omega

theorem fIsInf_infOf (neg : Bool) : fIsInf (infOf neg) = true := by
  have h63 : infBits < 2 ^ 63 := by unfold infBits; norm_num
  rw [infOf, fIsInf, fBiased_withSign neg h63, fFraction_withSign neg h63]
  simp [infBits]

/-- The pattern `e * 2^52 + m` stands for `m * 2^e` units: the carry of a significand of 2^53 lands in the exponent. -/
theorem fMagnitude_withSign (neg : Bool) {e m : Nat} (hm : m ≤ 2 ^ 53) (he : 0 < e → 2 ^ 52 ≤ m)
    (hlow : e * 2 ^ 52 + m < infBits) :
    fIsFinite (withSign neg (e * 2 ^ 52 + m)) = true ∧ fMagnitude (withSign neg (e * 2 ^ 52 + m)) = m * 2 ^ e := by
  have h63 : e * 2 ^ 52 + m < 2 ^ 63 := by unfold infBits at hlow; omega
  unfold infBits at hlow
  rw [fIsFinite, fMagnitude, fBiased_withSign neg h63, fFraction_withSign neg h63]
  constructor
  · simp only [bne_iff_ne]; omega
  · rcases Nat.lt_or_ge m (2 ^ 52) with hlt | hge
    · have he0 : e = 0 := by by_contra h; have := he (by omega); omega
      subst he0
      simp only [Nat.zero_mul, Nat.zero_add]
      rw [Nat.div_eq_of_lt hlt, Nat.mod_eq_of_lt hlt]
      simp
    · rcases Nat.lt_or_ge m (2 ^ 53) with hlt | hge'
      · have h1 : (e * 2 ^ 52 + m) / 2 ^ 52 = e + 1 := by omega
        have h2 : (e * 2 ^ 52 + m) % 2 ^ 52 = m - 2 ^ 52 := by omega
        rw [h1, h2]
        simp only [Nat.add_eq_zero_iff, Nat.one_ne_zero, and_false, if_false, Nat.add_sub_cancel]
        rw [Nat.sub_add_cancel hge]
      · have hm' : m = 2 ^ 53 := by omega
        subst hm'
        have h1 : (e * 2 ^ 52 + 2 ^ 53) / 2 ^ 52 = e + 2 := by omega
        have h2 : (e * 2 ^ 52 + 2 ^ 53) % 2 ^ 52 = 0 := by omega
        rw [h1, h2]
        have h3 : e + 2 - 1 = e + 1 := by omega
        simp only [Nat.add_eq_zero_iff, OfNat.ofNat_ne_zero, and_false, if_false, Nat.zero_add]
        rw [h3, pow_succ]
        ring

/-- Every finite magnitude is a significand of at most 53 bits times a power of two at or below an exponent, or a multiple of
that power. -/
theorem fMagnitude_form (g : F64) : ∃ k j, fMagnitude g = k * 2 ^ j ∧ k < 2 ^ 53 := by
  refine ⟨_, _, rfl, ?_⟩
  have : fFraction g < 2 ^ 52 := Nat.mod_lt _ (by norm_num)
  split <;> omega

/-- The overflow threshold, in terms of the rounded pattern. -/
theorem overflow_iff (n d e m : Nat) (hd : 0 < d) (hscale : n < d * 2 ^ e * 2 ^ 53)
    (hscale' : 0 < e → d * 2 ^ e * 2 ^ 52 ≤ n) (hm53 : m ≤ 2 ^ 53) (hm52 : 0 < e → 2 ^ 52 ≤ m)
    (hnear : 2 * ((m * (d * 2 ^ e) : Nat) - n : Int).natAbs ≤ d * 2 ^ e)
    (heven : 2 * ((m * (d * 2 ^ e) : Nat) - n : Int).natAbs = d * 2 ^ e → m % 2 = 0) :
    overflowUnits * d ≤ n ↔ infBits ≤ e * 2 ^ 52 + m := by
  have hou : overflowUnits * d = (2 ^ 54 - 1) * (d * 2 ^ 2044) := by
    rw [overflowUnits, Nat.mul_assoc, Nat.mul_comm (2 ^ 2044) d]
  have hib : infBits = 2047 * 2 ^ 52 := by unfold infBits; norm_num
  rw [hou, hib]
  rcases Nat.lt_trichotomy e 2045 with h | h | h
  · have hle : d * 2 ^ e ≤ d * 2 ^ 2044 := Nat.mul_le_mul_left d (Nat.pow_le_pow_right (by norm_num) (by omega))
    generalize d * 2 ^ 2044 = K at *
    generalize d * 2 ^ e = D at *
    constructor
    · intro h'; omega
    · intro h'; omega
  · subst h
    have hK : d * 2 ^ 2045 = 2 * (d * 2 ^ 2044) := by rw [pow_succ]; ring
    rw [hK] at hnear heven hscale
    have hK0 : 0 < d * 2 ^ 2044 := Nat.mul_pos hd (by positivity)
    generalize d * 2 ^ 2044 = K at *
    constructor
    · intro h'
      by_contra hlt
      have hm' : m ≤ 2 ^ 53 - 1 := by omega
      have h1 : m * (2 * K) ≤ (2 ^ 53 - 1) * (2 * K) := Nat.mul_le_mul_right _ hm'
      rcases Nat.lt_or_ge m (2 ^ 53 - 1) with h2 | h2
      · have h1 : m * (2 * K) ≤ (2 ^ 53 - 2) * (2 * K) := Nat.mul_le_mul_right _ (by omega)
        omega
      · have hm'' : m = 2 ^ 53 - 1 := by omega
        subst hm''
        have := heven (by omega)
        omega
    · intro h'
      have hm' : m = 2 ^ 53 := by omega
      subst hm'
      omega
  · have hle : d * 2 ^ 2046 ≤ d * 2 ^ e := Nat.mul_le_mul_left d (Nat.pow_le_pow_right (by norm_num) (by omega))
    have hK : d * 2 ^ 2046 = 4 * (d * 2 ^ 2044) := by
      rw [show (2046 : Nat) = 2044 + 2 from rfl, pow_add]; ring
    rw [hK] at hle
    have h1 := hscale' (by omega)
    have h2 := hm52 (by omega)
    clear hK hou hib
    generalize d * 2 ^ 2044 = K at *
    generalize d * 2 ^ e = D at *
    refine ⟨fun _ => by clear hnear heven hscale hscale' hle h1; omega, fun _ => ?_⟩
    calc (2 ^ 54 - 1) * K ≤ 4 * K * 2 ^ 52 := by omega
      _ ≤ D * 2 ^ 52 := Nat.mul_le_mul_right _ hle
      _ ≤ n := h1

/-- `roundUnits` rounds once to nearest, ties to even (41_arithmetic.md R90). -/
theorem roundUnits_roundsTo (neg : Bool) (n d : Nat) (hd : 0 < d) : RoundsTo neg n d (roundUnits neg n d) := by
  obtain ⟨hscale, hscale'⟩ := roundUnits_scale n d hd
  unfold roundUnits
  simp only
  generalize he : (n / d).log2 - 52 = e at hscale hscale'
  have hD : 0 < d * 2 ^ e := Nat.mul_pos hd (by positivity)
  obtain ⟨hr1, hr2⟩ := divTiesToEven_range n (d * 2 ^ e) hD
  have hm53 := hr1 hscale
  have hm52 : 0 < e → 2 ^ 52 ≤ divTiesToEven n (d * 2 ^ e) := fun h => hr2 (hscale' h)
  obtain ⟨hnear, heven⟩ := divTiesToEven_near n (d * 2 ^ e) hD
  have hnearest := fun g => divTiesToEven_nearest n (d * 2 ^ e) g hD
  generalize hm : divTiesToEven n (d * 2 ^ e) = m at *
  have hmin63 : min (e * 2 ^ 52 + m) infBits < 2 ^ 63 := by unfold infBits; omega
  refine ⟨fSign_withSign neg hmin63, ?_⟩
  have hover := overflow_iff n d e m hd hscale hscale' hm53 hm52 hnear heven
  refine ⟨fun hov => ?_, fun hov => ?_⟩
  · rw [Nat.min_eq_right (hover.mp hov)]
    exact fIsInf_infOf neg
  · have hinf : e * 2 ^ 52 + m < infBits := Nat.lt_of_not_le fun h => Nat.not_le_of_lt hov (hover.mpr h)
    rw [Nat.min_eq_left (Nat.le_of_lt hinf)]
    obtain ⟨hfin, hmag⟩ := fMagnitude_withSign neg hm53 hm52 hinf
    refine ⟨hfin, fun g hg hne => ?_⟩
    rw [hmag] at hne ⊢
    have hmd : m * 2 ^ e * d = m * (d * 2 ^ e) := by ring
    rw [hmd]
    have hparity : m % 2 = 0 → (withSign neg (e * 2 ^ 52 + m)).toNat % 2 = 0 := by
      intro h
      rw [withSign_toNat neg (by unfold infBits at hinf; omega)]
      cases neg <;> (simp; omega)
    obtain ⟨k, j, hkj, hk⟩ := fMagnitude_form g
    rw [hkj] at hne ⊢
    by_cases hje : e ≤ j
    · -- the other value is a multiple of the spacing
      have hmul : k * 2 ^ j = (k * 2 ^ (j - e)) * 2 ^ e := by
        rw [Nat.mul_assoc, ← pow_add, Nat.sub_add_cancel hje]
      have hne' : k * 2 ^ (j - e) ≠ m := by
        rintro rfl
        exact hne hmul
      obtain ⟨h1, h2⟩ := hnearest _ hne'
      have hgd : k * 2 ^ j * d = k * 2 ^ (j - e) * (d * 2 ^ e) := by rw [hmul]; ring
      rw [hgd]
      exact ⟨h1, fun h => hparity (h2 h)⟩
    · -- the other value lies below the binade of the exact value
      have hje : j + 1 ≤ e := by omega
      have hlow := hscale' (by omega)
      have hm := hm52 (by omega)
      have hpow : 2 ^ (j + 1) ≤ 2 ^ e := Nat.pow_le_pow_right (by norm_num) hje
      have hlt : k * 2 ^ j * d < d * 2 ^ e * 2 ^ 52 := by
        have h1 : k * 2 ^ j < 2 ^ 53 * 2 ^ j := Nat.mul_lt_mul_of_pos_right hk (by positivity)
        have h2 : 2 ^ 53 * 2 ^ j ≤ 2 ^ e * 2 ^ 52 := by
          have : 2 ^ 53 * 2 ^ j = 2 ^ (j + 1) * 2 ^ 52 := by rw [pow_succ]; ring
          rw [this]
          exact Nat.mul_le_mul_right _ hpow
        calc k * 2 ^ j * d < 2 ^ e * 2 ^ 52 * d := Nat.mul_lt_mul_of_pos_right (by omega) hd
          _ = d * 2 ^ e * 2 ^ 52 := by ring
      have h52 : m = 2 ^ 52 ∨ 2 ^ 52 ≠ m := by omega
      have hb : ((m * (d * 2 ^ e) : Nat) - n : Int).natAbs ≤ ((2 ^ 52 * (d * 2 ^ e) : Nat) - n : Int).natAbs := by
        rcases h52 with rfl | h
        · exact le_refl _
        · exact (hnearest _ h).1
      generalize d * 2 ^ e = D at *
      constructor
      · omega
      · intro h; omega

/-- A NaN made from free bits is a NaN, whatever they are (41_arithmetic.md R91). -/
theorem nanFrom_isNaN (free : F64) : fIsNaN (nanFrom free) = true := by
  have hb : ∀ f : F64, fBiased (f ||| 0x7FF0000000000000) = 2047 := by
    intro f
    have h : (f ||| 0x7FF0000000000000 : F64).toNat / 2 ^ 52 % 2 ^ 11 = (f.toNat / 2 ^ 52 % 2 ^ 11) ||| 2047 := by
      rw [BitVec.toNat_or, Nat.or_div_two_pow, Nat.or_mod_two_pow]
      rfl
    rw [fBiased, h]
    have : f.toNat / 2 ^ 52 % 2 ^ 11 < 2 ^ 11 := Nat.mod_lt _ (by norm_num)
    generalize f.toNat / 2 ^ 52 % 2 ^ 11 = x at *
    interval_cases x <;> rfl
  unfold nanFrom
  simp only
  split
  · rename_i h0
    have hor : (free ||| 0x7FF0000000000000 ||| 1 : F64) = (free ||| 1) ||| 0x7FF0000000000000 := by
      rw [BitVec.or_assoc, BitVec.or_assoc, BitVec.or_comm (1 : F64)]
    have hfrac : fFraction (free ||| 0x7FF0000000000000 ||| 1) ≠ 0 := by
      rw [fFraction, BitVec.toNat_or, Nat.or_mod_two_pow]
      intro h
      exact absurd (Nat.or_eq_zero_iff.mp h).2 (by decide)
    rw [fIsNaN]
    rw [hor] at hfrac ⊢
    rw [hb]
    exact Bool.and_eq_true_iff.mpr ⟨rfl, bne_iff_ne.mpr hfrac⟩
  · rename_i h0
    rw [fIsNaN, hb]
    exact Bool.and_eq_true_iff.mpr ⟨rfl, bne_iff_ne.mpr h0⟩

/-! The negation of a binary64 (41_arithmetic.md R99): only the sign changes. -/

@[simp] theorem fSign_fneg (x : F64) : fSign (fneg x) = !fSign x := by
  have : (0x8000000000000000 : F64).msb = true := by decide
  simp only [fSign, fneg, BitVec.msb_xor, this, Bool.xor_true]

theorem fneg_low (x : F64) : (fneg x).toNat % 2 ^ 63 = x.toNat % 2 ^ 63 := by
  rw [fneg, BitVec.toNat_xor, Nat.xor_mod_two_pow, show (0x8000000000000000 : F64).toNat % 2 ^ 63 = 0 by decide,
    Nat.xor_zero]

@[simp] theorem fBiased_fneg (x : F64) : fBiased (fneg x) = fBiased x := by
  have := fneg_low x
  unfold fBiased
  omega

@[simp] theorem fFraction_fneg (x : F64) : fFraction (fneg x) = fFraction x := by
  have := fneg_low x
  unfold fFraction
  omega

@[simp] theorem fMagnitude_fneg (x : F64) : fMagnitude (fneg x) = fMagnitude x := by
  simp [fMagnitude]

@[simp] theorem fUnits_fneg (x : F64) : fUnits (fneg x) = -fUnits x := by
  cases h : fSign x <;> simp [fUnits, h]

@[simp] theorem fIsNaN_fneg (x : F64) : fIsNaN (fneg x) = fIsNaN x := by simp [fIsNaN]
@[simp] theorem fIsInf_fneg (x : F64) : fIsInf (fneg x) = fIsInf x := by simp [fIsInf]
@[simp] theorem fIsFinite_fneg (x : F64) : fIsFinite (fneg x) = fIsFinite x := by simp [fIsFinite]
@[simp] theorem fIsZero_fneg (x : F64) : fIsZero (fneg x) = fIsZero x := by simp [fIsZero]

theorem and_pred_odd_shift (t k : Nat) : (2 ^ t * (2 * k + 1)) &&& (2 ^ t * (2 * k + 1) - 1) = 2 ^ t * (2 * k) := by
  induction t with
  | zero =>
    apply Nat.eq_of_testBit_eq
    intro i
    cases i with
    | zero => simp
    | succ i =>
      rw [Nat.testBit_and, Nat.testBit_succ, Nat.testBit_succ, Nat.testBit_succ, Nat.pow_zero, Nat.one_mul, Nat.one_mul,
        show (2 * k + 1) / 2 = k by omega, show (2 * k + 1 - 1) / 2 = k by omega, show 2 * k / 2 = k by omega,
        Bool.and_self]
  | succ t ih =>
    have hp : 0 < 2 ^ t * (2 * k + 1) := by positivity
    have e1 : 2 ^ (t + 1) * (2 * k + 1) = 2 * (2 ^ t * (2 * k + 1)) := by ring
    have e2 : 2 ^ (t + 1) * (2 * k) = 2 * (2 ^ t * (2 * k)) := by ring
    rw [e1, e2, ← ih]
    generalize 2 ^ t * (2 * k + 1) = a at hp
    apply Nat.eq_of_testBit_eq
    intro i
    cases i with
    | zero => simp
    | succ i =>
      rw [Nat.testBit_and, Nat.testBit_succ, Nat.testBit_succ, Nat.testBit_succ, show 2 * a / 2 = a by omega,
        show (2 * a - 1) / 2 = a - 1 by omega, show 2 * (a &&& (a - 1)) / 2 = (a &&& (a - 1)) by omega, Nat.testBit_and]

/-- A positive integer is its odd part times a power of two. -/
theorem oddPart_spec {n : Nat} (h : 0 < n) : n = (oddPart n).1 * 2 ^ (oddPart n).2 ∧ (oddPart n).1 % 2 = 1 := by
  obtain ⟨t, m, ⟨k, hk⟩, hn⟩ := Nat.exists_eq_two_pow_mul_odd (n := n) (by omega)
  subst hk
  have hl : n - (n &&& (n - 1)) = 2 ^ t := by
    rw [hn, and_pred_odd_shift, Nat.mul_add, Nat.mul_one, Nat.add_sub_cancel_left]
  simp only [oddPart, hl, Nat.log2_two_pow]
  rw [hn, Nat.mul_div_cancel_left _ (by positivity)]
  exact ⟨Nat.mul_comm _ _, by omega⟩

/-- The index conversion of 44_aggregate.md R146 in the terms of the claims. -/
theorem position_iff {f : F64} {p : Nat} : position f = some p ↔ IndexNames f p := by
  have hu : 0 < unitsPerOne := by unfold unitsPerOne; positivity
  have hdiv : fMagnitude f / unitsPerOne = p ↔ p * unitsPerOne ≤ fMagnitude f ∧ fMagnitude f < (p + 1) * unitsPerOne := by
    rw [Nat.div_eq_iff hu]
    generalize unitsPerOne = u at *
    rw [Nat.add_mul]
    omega
  unfold position IndexNames
  by_cases hf : fIsFinite f = true
  · simp only [hf, if_true, true_and]
    by_cases hs : fSign f = true
    · simp only [hs, Bool.true_and, bne_iff_ne, forall_const]
      split
      · rename_i h
        simp only [reduceCtorEq, false_iff]
        rintro ⟨h1, h2, rfl⟩
        exact h (hdiv.mpr ⟨h1, h2⟩)
      · rename_i h
        simp only [ne_eq, not_not] at h
        simp only [h, Option.some.injEq]
        constructor
        · rintro rfl
          exact ⟨(hdiv.mp h).1, (hdiv.mp h).2, rfl⟩
        · rintro ⟨_, _, rfl⟩; rfl
    · simp [hs, hdiv]
  · simp [hf]

end Sys2Proof.Machine
end

