-- ==== Sys2Proof/Laws/PerInstr.lean ====
section
/-! SUPPORT. Laws/PerInstr.lean: the per-instruction family `EncodesItsOpcode`: the opcode field of an instruction's word is
the opcode of its row (30_encoding.md R65, R66). -/

namespace Sys2Proof.Laws

/-- The opcode of an instruction's row of the table under 30_encoding.md R65. -/
def EncodesItsOpcode.opcodeOf : Instr → Byte
  | .loadConst _ _ => 0x01
  | .loadUndef _ => 0x02
  | .loadNull _ => 0x03
  | .loadBool _ _ => 0x04
  | .move _ _ => 0x05
  | .add _ _ _ => 0x06
  | .sub _ _ _ => 0x07
  | .mul _ _ _ => 0x08
  | .div _ _ _ => 0x09
  | .mod _ _ _ => 0x0A
  | .pow _ _ _ => 0x0B
  | .neg _ _ => 0x0C
  | .eq _ _ => 0x0D
  | .lt _ _ => 0x0E
  | .le _ _ => 0x0F
  | .jmp _ => 0x10
  | .jmpIf _ _ => 0x11
  | .call _ _ => 0x12
  | .ret _ _ => 0x13
  | .newObject _ => 0x14
  | .newArray _ => 0x15
  | .getProp _ _ _ => 0x16
  | .setProp _ _ _ => 0x17
  | .getElem _ _ _ => 0x18
  | .setElem _ _ _ => 0x19
  | .closure _ _ => 0x1A
  | .getScope _ _ => 0x1B
  | .setScope _ _ => 0x1C
  | .typeOf _ _ => 0x1D
  | .instanceOf _ _ _ => 0x1E
  | .declareFunc _ => 0x1F
  | .declareVar _ => 0x20
  | .useStrict => 0x21

/-- The opcode field of the encoding is the row's opcode. -/
def EncodesItsOpcode.Statement (i : Instr) : Prop := fieldOp (encode i) = EncodesItsOpcode.opcodeOf i

theorem EncodesItsOpcode.loadConst (dst : Nat) (k : U32) : EncodesItsOpcode.Statement (.loadConst dst k) :=
  fieldOp_assemble _ _ _ _ _

theorem EncodesItsOpcode.loadUndef (dst : Nat) : EncodesItsOpcode.Statement (.loadUndef dst) :=
  fieldOp_assemble _ _ _ _ _

theorem EncodesItsOpcode.loadNull (dst : Nat) : EncodesItsOpcode.Statement (.loadNull dst) :=
  fieldOp_assemble _ _ _ _ _

theorem EncodesItsOpcode.loadBool (dst : Nat) (b : Bool) : EncodesItsOpcode.Statement (.loadBool dst b) :=
  fieldOp_assemble _ _ _ _ _

theorem EncodesItsOpcode.move (dst src : Nat) : EncodesItsOpcode.Statement (.move dst src) :=
  fieldOp_assemble _ _ _ _ _

theorem EncodesItsOpcode.add (dst a b : Nat) : EncodesItsOpcode.Statement (.add dst a b) :=
  fieldOp_assemble _ _ _ _ _

theorem EncodesItsOpcode.sub (dst a b : Nat) : EncodesItsOpcode.Statement (.sub dst a b) :=
  fieldOp_assemble _ _ _ _ _

theorem EncodesItsOpcode.mul (dst a b : Nat) : EncodesItsOpcode.Statement (.mul dst a b) :=
  fieldOp_assemble _ _ _ _ _

theorem EncodesItsOpcode.div (dst a b : Nat) : EncodesItsOpcode.Statement (.div dst a b) :=
  fieldOp_assemble _ _ _ _ _

theorem EncodesItsOpcode.mod (dst a b : Nat) : EncodesItsOpcode.Statement (.mod dst a b) :=
  fieldOp_assemble _ _ _ _ _

theorem EncodesItsOpcode.pow (dst a b : Nat) : EncodesItsOpcode.Statement (.pow dst a b) :=
  fieldOp_assemble _ _ _ _ _

theorem EncodesItsOpcode.neg (dst src : Nat) : EncodesItsOpcode.Statement (.neg dst src) :=
  fieldOp_assemble _ _ _ _ _

theorem EncodesItsOpcode.eq (a b : Nat) : EncodesItsOpcode.Statement (.eq a b) :=
  fieldOp_assemble _ _ _ _ _

theorem EncodesItsOpcode.lt (a b : Nat) : EncodesItsOpcode.Statement (.lt a b) :=
  fieldOp_assemble _ _ _ _ _

theorem EncodesItsOpcode.le (a b : Nat) : EncodesItsOpcode.Statement (.le a b) :=
  fieldOp_assemble _ _ _ _ _

theorem EncodesItsOpcode.jmp (off : U32) : EncodesItsOpcode.Statement (.jmp off) :=
  fieldOp_assemble _ _ _ _ _

theorem EncodesItsOpcode.jmpIf (cond : Nat) (off : U32) : EncodesItsOpcode.Statement (.jmpIf cond off) :=
  fieldOp_assemble _ _ _ _ _

theorem EncodesItsOpcode.call (func : Nat) (argc : Byte) : EncodesItsOpcode.Statement (.call func argc) :=
  fieldOp_assemble _ _ _ _ _

theorem EncodesItsOpcode.ret (start : Nat) (count : Byte) : EncodesItsOpcode.Statement (.ret start count) :=
  fieldOp_assemble _ _ _ _ _

theorem EncodesItsOpcode.newObject (dst : Nat) : EncodesItsOpcode.Statement (.newObject dst) :=
  fieldOp_assemble _ _ _ _ _

theorem EncodesItsOpcode.newArray (dst : Nat) : EncodesItsOpcode.Statement (.newArray dst) :=
  fieldOp_assemble _ _ _ _ _

theorem EncodesItsOpcode.getProp (dst obj key : Nat) : EncodesItsOpcode.Statement (.getProp dst obj key) :=
  fieldOp_assemble _ _ _ _ _

theorem EncodesItsOpcode.setProp (obj key val : Nat) : EncodesItsOpcode.Statement (.setProp obj key val) :=
  fieldOp_assemble _ _ _ _ _

theorem EncodesItsOpcode.getElem (dst arr idx : Nat) : EncodesItsOpcode.Statement (.getElem dst arr idx) :=
  fieldOp_assemble _ _ _ _ _

theorem EncodesItsOpcode.setElem (arr idx val : Nat) : EncodesItsOpcode.Statement (.setElem arr idx val) :=
  fieldOp_assemble _ _ _ _ _

theorem EncodesItsOpcode.closure (dst : Nat) (target : U32) : EncodesItsOpcode.Statement (.closure dst target) :=
  fieldOp_assemble _ _ _ _ _

theorem EncodesItsOpcode.getScope (dst : Nat) (var : U32) : EncodesItsOpcode.Statement (.getScope dst var) :=
  fieldOp_assemble _ _ _ _ _

theorem EncodesItsOpcode.setScope (var : U32) (src : Nat) : EncodesItsOpcode.Statement (.setScope var src) :=
  fieldOp_assemble _ _ _ _ _

theorem EncodesItsOpcode.typeOf (dst src : Nat) : EncodesItsOpcode.Statement (.typeOf dst src) :=
  fieldOp_assemble _ _ _ _ _

theorem EncodesItsOpcode.instanceOf (dst obj ctor : Nat) : EncodesItsOpcode.Statement (.instanceOf dst obj ctor) :=
  fieldOp_assemble _ _ _ _ _

theorem EncodesItsOpcode.declareFunc (dst : Nat) : EncodesItsOpcode.Statement (.declareFunc dst) :=
  fieldOp_assemble _ _ _ _ _

theorem EncodesItsOpcode.declareVar (var : U32) : EncodesItsOpcode.Statement (.declareVar var) :=
  fieldOp_assemble _ _ _ _ _

theorem EncodesItsOpcode.useStrict : EncodesItsOpcode.Statement (.useStrict) :=
  fieldOp_assemble _ _ _ _ _

end Sys2Proof.Laws
end

