-- ==== Sys2Proof/Laws/Power.lean ====
section
/-! SUPPORT. Laws/Power.lean: what the digits of the binary logarithm, the range tests of `POW` and `powExact` say of the real
power (41_arithmetic.md R101): `pow_range` and `powExact_value`. -/

namespace Sys2Proof.Machine

theorem unitsPerOne_pos : (0 : ℝ) < unitsPerOne := by
  exact_mod_cast (show 0 < unitsPerOne by unfold unitsPerOne; positivity)

/-- The binary logarithm of a fixed-point mantissa. -/
noncomputable def mantissaLog (a : Nat) : ℝ := Real.logb 2 ((a : ℝ) / 2 ^ 192)

theorem mantissaLog_mono {a b : Nat} (ha : 0 < a) (h : a ≤ b) : mantissaLog a ≤ mantissaLog b := by
  unfold mantissaLog
  have : (0 : ℝ) < a := by exact_mod_cast ha
  have hab : (a : ℝ) ≤ b := by exact_mod_cast h
  exact Real.logb_le_logb_of_le (by norm_num) (by positivity) (by gcongr)

/-- One unit more in a mantissa of at least `2^192` adds at most `2^-191` to its logarithm. -/
theorem mantissaLog_succ {a : Nat} (h : 2 ^ 192 ≤ a) : mantissaLog (a + 1) ≤ mantissaLog a + 1 / 2 ^ 191 := by
  have ha : (2 : ℝ) ^ 192 ≤ a := by exact_mod_cast h
  have hpos : (0 : ℝ) < a := lt_of_lt_of_le (by positivity) ha
  have hsplit : mantissaLog (a + 1) = mantissaLog a + Real.logb 2 (1 + 1 / (a : ℝ)) := by
    unfold mantissaLog
    rw [← Real.logb_mul (by positivity) (by positivity)]
    congr 1
    push_cast
    field_simp
  have hlog : Real.log (1 + 1 / (a : ℝ)) ≤ 1 / 2 ^ 192 := by
    have h1 := Real.log_le_sub_one_of_pos (show (0 : ℝ) < 1 + 1 / (a : ℝ) by positivity)
    have h2 : 1 / (a : ℝ) ≤ 1 / 2 ^ 192 := one_div_le_one_div_of_le (by positivity) ha
    linarith
  have hln : (1 : ℝ) / 2 ≤ Real.log 2 := by have := Real.log_two_gt_d9; linarith
  have : Real.logb 2 (1 + 1 / (a : ℝ)) ≤ 1 / 2 ^ 191 := by
    rw [Real.logb, div_le_iff₀ (by linarith)]
    calc Real.log (1 + 1 / (a : ℝ)) ≤ 1 / 2 ^ 192 := hlog
      _ = 1 / 2 ^ 191 * (1 / 2) := by norm_num
      _ ≤ 1 / 2 ^ 191 * Real.log 2 := by gcongr
  rw [hsplit]
  linarith

/-- The digits are at most 2 below the logarithm they stand for, and never above it. -/
theorem logDigits_bounds (n : Nat) {a : Nat} (h₁ : 2 ^ 192 ≤ a) (h₂ : a < 2 ^ 193) :
    (logDigits n a : ℝ) ≤ 2 ^ n * mantissaLog a ∧
      2 ^ n * mantissaLog a ≤ logDigits n a + 1 + (2 ^ n - 1) / 2 ^ 190 := by
  have hpos {b : Nat} (h : 2 ^ 192 ≤ b) : (0 : ℝ) < b := by
    have : (2 : ℝ) ^ 192 ≤ b := by exact_mod_cast h
    exact lt_of_lt_of_le (by positivity) this
  induction n generalizing a with
  | zero =>
    have h0 := Real.logb_nonneg (b := 2) (x := (a : ℝ) / 2 ^ 192) (by norm_num)
      (by rw [le_div_iff₀ (by positivity)]; have : (2 : ℝ) ^ 192 ≤ a := by exact_mod_cast h₁
          linarith)
    have h1 : Real.logb 2 ((a : ℝ) / 2 ^ 192) ≤ 1 := by
      rw [Real.logb_le_iff_le_rpow (by norm_num) (by have := hpos h₁; positivity)]
      have : (a : ℝ) ≤ 2 ^ 193 := by exact_mod_cast h₂.le
      rw [Real.rpow_one, div_le_iff₀ (by positivity)]
      linarith
    simp only [logDigits, mantissaLog, Nat.cast_zero, pow_zero, one_mul, zero_add, sub_self, zero_div, add_zero]
    exact ⟨h0, h1⟩
  | succ n ih =>
    simp only [logDigits]
    generalize hs : a * a / 2 ^ 192 = s
    have hle : s * 2 ^ 192 ≤ a * a := by rw [← hs]; exact Nat.div_mul_le_self _ _
    have hlt : a * a < (s + 1) * 2 ^ 192 := by
      rw [← hs]
      have := Nat.lt_div_mul_add (a := a * a) (b := 2 ^ 192) (by norm_num)
      rw [Nat.add_mul, Nat.one_mul]
      exact this
    have hs₁ : 2 ^ 192 ≤ s := by rw [← hs, Nat.le_div_iff_mul_le (by norm_num)]; exact Nat.mul_le_mul h₁ h₁
    have hs₂ : s < 2 ^ 194 := by
      have : a * a < 2 ^ 193 * 2 ^ 193 := Nat.mul_lt_mul'' h₂ h₂
      omega
    have hdouble : 2 * mantissaLog a = Real.logb 2 ((a * a : ℝ) / 2 ^ 192 / 2 ^ 192) := by
      have := hpos h₁
      unfold mantissaLog
      rw [← Real.logb_rpow_eq_mul_logb_of_pos (by positivity)]
      congr 1
      rw [show (2 : ℝ) = ((2 : ℕ) : ℝ) by norm_num, Real.rpow_natCast]
      push_cast
      field_simp
    have hsp := hpos hs₁
    have hlow : mantissaLog s ≤ 2 * mantissaLog a := by
      rw [hdouble, mantissaLog]
      have : (s : ℝ) * 2 ^ 192 ≤ a * a := by exact_mod_cast hle
      refine Real.logb_le_logb_of_le (by norm_num) (by positivity) ?_
      gcongr
      rwa [le_div_iff₀ (by positivity)]
    have hhigh : 2 * mantissaLog a ≤ mantissaLog (s + 1) := by
      have := hpos h₁
      rw [hdouble, mantissaLog]
      have : (a * a : ℝ) ≤ (s + 1 : ℕ) * 2 ^ 192 := by exact_mod_cast hlt.le
      refine Real.logb_le_logb_of_le (by norm_num) (by positivity) ?_
      gcongr
      rwa [div_le_iff₀ (by positivity)]
    have hsucc := mantissaLog_succ hs₁
    have hpow : (0 : ℝ) < 2 ^ n := by positivity
    have hpow1 : (2 : ℝ) ^ (n + 1) = 2 * 2 ^ n := by ring
    split
    · rename_i hsmall
      obtain ⟨ih₁, ih₂⟩ := ih hs₁ hsmall
      rw [hpow1]
      constructor <;> nlinarith
    · rename_i hbig
      have hh₁ : 2 ^ 192 ≤ s / 2 := by omega
      obtain ⟨ih₁, ih₂⟩ := ih hh₁ (by omega)
      have hhalf : ∀ b : Nat, 0 < b → mantissaLog (2 * b) = 1 + mantissaLog b := by
        intro b hb
        have : (0 : ℝ) < b := by exact_mod_cast hb
        unfold mantissaLog
        rw [← Real.logb_self_eq_one (b := 2) (by norm_num), ← Real.logb_mul (by norm_num) (by positivity)]
        congr 1
        push_cast
        ring
      have hl := mantissaLog_mono (a := 2 * (s / 2)) (b := s) (by omega) (by omega)
      have hu := mantissaLog_mono (a := s) (b := 2 * (s / 2) + 1) (by omega) (by omega)
      have hu' := mantissaLog_succ (a := 2 * (s / 2)) (by omega)
      rw [hhalf _ (by omega)] at hl hu'
      rw [hpow1]
      push_cast
      constructor <;> nlinarith

/-- A power of two has no digits. -/
theorem logDigits_one (n : Nat) : logDigits n (2 ^ 192) = 0 := by
  induction n with
  | zero => rfl
  | succ n ih =>
    simp only [logDigits]
    rw [show 2 ^ 192 * 2 ^ 192 / 2 ^ 192 = 2 ^ 192 from Nat.mul_div_cancel _ (by norm_num), if_pos (by norm_num), ih]

/-- The binary logarithm of the magnitude of a Number. -/
noncomputable def magnitudeLog (x : F64) : ℝ := Real.logb 2 |realOf x|

theorem unitsPerOne_cast : (unitsPerOne : ℝ) = 2 ^ 1074 := by simp only [unitsPerOne, Nat.cast_pow, Nat.cast_ofNat]

/-- The magnitude of a real value is the count of units. -/
theorem abs_realOf (x : F64) : |realOf x| = (fMagnitude x : ℝ) / unitsPerOne := by
  rw [realOf, abs_div, abs_of_pos unitsPerOne_pos]
  congr 1
  unfold fUnits
  split <;> simp

/-- The logarithm of a magnitude is that of its leading power of two and of its mantissa. -/
theorem magnitudeLog_eq {x : F64} (h : 0 < fMagnitude x) :
    2 ^ 192 ≤ fMagnitude x * 2 ^ 192 / 2 ^ (fMagnitude x).log2 ∧
    fMagnitude x * 2 ^ 192 / 2 ^ (fMagnitude x).log2 < 2 ^ 193 ∧
    magnitudeLog x = ((fMagnitude x).log2 : ℝ) - 1074 +
      mantissaLog (fMagnitude x * 2 ^ 192 / 2 ^ (fMagnitude x).log2) := by
  obtain ⟨k, j, hk, hk53⟩ := fMagnitude_form x
  rw [magnitudeLog, abs_realOf, unitsPerOne_cast]
  generalize fMagnitude x = m at *
  have hl := Nat.log2_self_le (n := m) (by omega)
  have hu := Nat.lt_log2_self (n := m)
  have hle : m.log2 ≤ j + 192 := by
    have : m < 2 ^ (j + 53) := by
      rw [hk, pow_add, Nat.mul_comm]
      exact Nat.mul_lt_mul_of_pos_left hk53 (by positivity)
    have := (Nat.log2_lt (by omega)).mpr this
    omega
  obtain ⟨d, hd⟩ := Nat.exists_eq_add_of_le hle
  have hdvd : 2 ^ m.log2 ∣ m * 2 ^ 192 := by
    refine ⟨k * 2 ^ d, ?_⟩
    calc m * 2 ^ 192 = k * 2 ^ (j + 192) := by rw [hk, pow_add]; ring
      _ = 2 ^ m.log2 * (k * 2 ^ d) := by rw [hd, pow_add]; ring
  have hp : 0 < 2 ^ m.log2 := by positivity
  refine ⟨?_, ?_, ?_⟩
  · rw [Nat.le_div_iff_mul_le hp, Nat.mul_comm]
    exact Nat.mul_le_mul_right _ hl
  · rw [Nat.div_lt_iff_lt_mul hp, show 2 ^ 193 * 2 ^ m.log2 = 2 ^ (m.log2 + 1) * 2 ^ 192 by
      rw [← pow_add, ← pow_add]; congr 1; omega]
    exact Nat.mul_lt_mul_of_pos_right hu (by positivity)
  · have hm : (0 : ℝ) < m := by exact_mod_cast h
    have hcast : ((m * 2 ^ 192 / 2 ^ m.log2 : ℕ) : ℝ) = m * 2 ^ 192 / 2 ^ m.log2 := by
      rw [Nat.cast_div hdvd (by positivity)]
      push_cast
      ring
    have h2 : ∀ n : ℕ, Real.logb 2 (2 ^ n : ℝ) = n := by
      intro n
      rw [← Real.rpow_natCast, Real.logb_rpow (by norm_num) (by norm_num)]
    rw [mantissaLog, hcast, show (m : ℝ) * 2 ^ 192 / 2 ^ m.log2 / 2 ^ 192 = m / 2 ^ m.log2 by field_simp,
      Real.logb_div hm.ne' (by positivity), Real.logb_div hm.ne' (by positivity), h2, h2]
    push_cast
    ring

/-- `logLow` and `logHigh` enclose the logarithm they stand for, at most 2 units of 2^-128 apart. -/
theorem logLow_bounds {x : F64} (h : 0 < fMagnitude x) :
    (logLow x : ℝ) ≤ 2 ^ 128 * magnitudeLog x ∧ 2 ^ 128 * magnitudeLog x ≤ logHigh x ∧ logHigh x ≤ logLow x + 2 := by
  obtain ⟨h₁, h₂, heq⟩ := magnitudeLog_eq h
  obtain ⟨b₁, b₂⟩ := logDigits_bounds 128 h₁ h₂
  have hlow : (logLow x : ℝ) = (((fMagnitude x).log2 : ℝ) - 1074) * 2 ^ 128 +
      logDigits 128 (fMagnitude x * 2 ^ 192 / 2 ^ (fMagnitude x).log2) := by
    simp only [logLow]
    push_cast
    ring
  have hle : (logLow x : ℝ) ≤ 2 ^ 128 * magnitudeLog x := by rw [hlow, heq]; linarith
  refine ⟨hle, ?_, by unfold logHigh; split <;> omega⟩
  unfold logHigh
  split
  · rename_i hodd
    obtain ⟨hspec, -⟩ := oddPart_spec h
    rw [hodd, Nat.one_mul] at hspec
    rw [hlow, heq]
    rw [hspec, Nat.log2_two_pow, Nat.mul_div_cancel_left _ (by positivity), logDigits_one]
    have h0 : mantissaLog (2 ^ 192) = 0 := by
      rw [mantissaLog, Nat.cast_pow, Nat.cast_ofNat, div_self (by positivity), Real.logb_one]
    rw [h0, Nat.cast_zero, add_zero, add_zero, mul_comm]
  · push_cast
    rw [hlow, heq]
    have : ((2 : ℝ) ^ 128 - 1) / 2 ^ 190 ≤ 1 := by norm_num
    linarith

/-- The binary logarithm of a real power. -/
theorem realPower_log {x y : F64} (h : 0 < fMagnitude x) :
    0 < realPower x y ∧ Real.logb 2 (realPower x y) = realOf y * magnitudeLog x := by
  have hx : 0 < |realOf x| := by
    rw [abs_realOf]
    exact div_pos (by exact_mod_cast h) unitsPerOne_pos
  exact ⟨Real.rpow_pos_of_pos hx _, Real.logb_rpow_eq_mul_logb_of_pos hx⟩

/-- `powLogLow` and `powLogHigh` enclose the logarithm of the power. -/
theorem powLog_bounds {x : F64} (y : F64) (h : 0 < fMagnitude x) :
    (powLogLow x y : ℝ) ≤ 2 ^ 128 * unitsPerOne * Real.logb 2 (realPower x y) ∧
    2 ^ 128 * unitsPerOne * Real.logb 2 (realPower x y) ≤ powLogHigh x y ∧
    (powLogHigh x y : ℝ) - powLogLow x y ≤ 2 * fMagnitude y := by
  obtain ⟨b₁, b₂, b₃⟩ := logLow_bounds h
  have b₃' : (logHigh x : ℝ) ≤ logLow x + 2 := by exact_mod_cast b₃
  have hu := unitsPerOne_pos.ne'
  have hy : (0 : ℝ) ≤ fMagnitude y := Nat.cast_nonneg _
  have hscale : (2 : ℝ) ^ 128 * unitsPerOne * (fUnits y / unitsPerOne * magnitudeLog x) =
      fUnits y * (2 ^ 128 * magnitudeLog x) := by
    rw [mul_assoc, ← mul_assoc (unitsPerOne : ℝ), mul_div_cancel₀ _ hu]
    ring
  rw [(realPower_log (y := y) h).2, realOf, hscale]
  generalize (2 : ℝ) ^ 128 * magnitudeLog x = l at *
  unfold powLogLow powLogHigh fUnits
  split <;> push_cast <;> refine ⟨?_, ?_, ?_⟩ <;> nlinarith

/-- No finite magnitude but 1 itself lies within a last bit of 1. -/
theorem fMagnitude_gap {x : F64} (hne : fMagnitude x ≠ unitsPerOne) :
    fMagnitude x + 2 ^ 1021 ≤ 2 ^ 53 * 2 ^ 1021 ∨ (2 ^ 53 + 2) * 2 ^ 1021 ≤ fMagnitude x := by
  obtain ⟨k, j, hk, hk53⟩ := fMagnitude_form x
  rw [show unitsPerOne = 2 ^ 53 * 2 ^ 1021 by unfold unitsPerOne; rw [← pow_add]] at hne
  rw [hk] at hne ⊢
  rcases Nat.lt_or_ge j 1021 with hj | hj
  · left
    have h1 : k * 2 ^ j ≤ (2 ^ 53 - 1) * 2 ^ 1021 :=
      Nat.mul_le_mul (by omega) (Nat.pow_le_pow_right (by norm_num) (by omega))
    calc k * 2 ^ j + 2 ^ 1021 ≤ (2 ^ 53 - 1) * 2 ^ 1021 + 1 * 2 ^ 1021 := by rw [Nat.one_mul]; exact Nat.add_le_add_right h1 _
      _ = 2 ^ 53 * 2 ^ 1021 := by rw [← Nat.add_mul, show 2 ^ 53 - 1 + 1 = 2 ^ 53 by norm_num]
  · obtain ⟨d, rfl⟩ := Nat.exists_eq_add_of_le hj
    rw [show k * 2 ^ (1021 + d) = k * 2 ^ d * 2 ^ 1021 by rw [pow_add]; ring] at hne ⊢
    have hv : 0 < 2 ^ 1021 := by positivity
    rcases Nat.lt_trichotomy (k * 2 ^ d) (2 ^ 53) with h | h | h
    · left
      calc k * 2 ^ d * 2 ^ 1021 + 2 ^ 1021 = (k * 2 ^ d + 1) * 2 ^ 1021 := by ring
        _ ≤ 2 ^ 53 * 2 ^ 1021 := Nat.mul_le_mul_right _ h
    · rw [h] at hne; exact absurd rfl hne
    · right
      refine Nat.mul_le_mul_right _ ?_
      have hd : d ≠ 0 := by rintro rfl; omega
      obtain ⟨c, rfl⟩ := Nat.exists_eq_succ_of_ne_zero hd
      have : k * 2 ^ (c + 1) = 2 * (k * 2 ^ c) := by ring
      rw [Nat.succ_eq_add_one, this] at h ⊢
      omega

theorem logb_below {r : ℝ} (h0 : 0 < r) (h : r ≤ 1 - 1 / 2 ^ 53) : Real.logb 2 r ≤ -(1 / 2 ^ 53) := by
  have h1 := Real.log_le_sub_one_of_pos h0
  have hln : (0 : ℝ) < Real.log 2 := Real.log_pos (by norm_num)
  have hln1 : Real.log 2 ≤ 1 := by have := Real.log_two_lt_d9; linarith
  rw [Real.logb, div_le_iff₀ hln]
  have : (0 : ℝ) < 1 / 2 ^ 53 := by positivity
  nlinarith

theorem logb_above {r : ℝ} (h : 1 + 1 / 2 ^ 52 ≤ r) : 1 / 2 ^ 53 ≤ Real.logb 2 r := by
  have h0 : (0 : ℝ) < r := lt_of_lt_of_le (by positivity) h
  have hinv : r⁻¹ ≤ 1 - 1 / 2 ^ 53 := by
    rw [inv_le_comm₀ h0 (by norm_num)]
    refine le_trans ?_ h
    norm_num
  have := logb_below (inv_pos.mpr h0) hinv
  rw [Real.logb_inv] at this
  linarith

/-- No finite Number but 1 and -1 is so close to them that its logarithm is below 2^-53. -/
theorem magnitudeLog_far {x : F64} (h : 0 < fMagnitude x) (hne : fMagnitude x ≠ unitsPerOne) :
    1 / 2 ^ 53 ≤ |magnitudeLog x| := by
  have hgap := fMagnitude_gap hne
  rw [magnitudeLog, abs_realOf, unitsPerOne_cast, show (2 : ℝ) ^ 1074 = 2 ^ 53 * 2 ^ 1021 by rw [← pow_add]]
  have hm : (0 : ℝ) < fMagnitude x := by exact_mod_cast h
  have hv : (0 : ℝ) < 2 ^ 1021 := by positivity
  have hcast : (((2 : ℕ) ^ 1021 : ℕ) : ℝ) = 2 ^ 1021 := by rw [Nat.cast_pow, Nat.cast_ofNat]
  rcases hgap with hgap | hgap
  · have hg := (Nat.cast_le (α := ℝ)).mpr hgap
    rw [Nat.cast_add, Nat.cast_mul, hcast] at hg
    generalize (2 : ℝ) ^ 1021 = v at *
    have hr : (fMagnitude x : ℝ) / (2 ^ 53 * v) ≤ 1 - 1 / 2 ^ 53 := by
      rw [div_le_iff₀ (by positivity), sub_mul, one_mul, ← mul_assoc, one_div_mul_cancel (by positivity), one_mul]
      push_cast at hg
      linarith
    have := logb_below (by positivity) hr
    rw [abs_of_nonpos (this.trans (by norm_num))]
    linarith
  · have hg := (Nat.cast_le (α := ℝ)).mpr hgap
    rw [Nat.cast_mul, hcast] at hg
    generalize (2 : ℝ) ^ 1021 = v at *
    have hr : 1 + 1 / 2 ^ 52 ≤ (fMagnitude x : ℝ) / (2 ^ 53 * v) := by
      rw [le_div_iff₀ (by positivity)]
      have : (1 + 1 / 2 ^ 52) * (2 ^ 53 * v) = (2 ^ 53 + 2) * v := by ring
      rw [this]
      exact_mod_cast hg
    exact (logb_above hr).trans (le_abs_self _)

/-- The enclosure is far narrower than the slack, or so far from every limit that its width does not matter. -/
theorem powLog_gap {x : F64} (y : F64) (h : 0 < fMagnitude x) :
    (powLogHigh x y : ℝ) - powLogLow x y ≤ 2 ^ 78 * unitsPerOne ∨
    (2 ^ 24 * unitsPerOne * 2 ^ 127 ≤ |(powLogLow x y : ℝ)| ∧ 2 ^ 24 * unitsPerOne * 2 ^ 127 ≤ |(powLogHigh x y : ℝ)| ∧
      (0 ≤ (powLogLow x y : ℝ) ↔ 0 ≤ (powLogHigh x y : ℝ)) ∧
      (0 ≤ (powLogLow x y : ℝ) ↔ 0 ≤ Real.logb 2 (realPower x y))) := by
  obtain ⟨b₁, b₂, b₃⟩ := powLog_bounds y h
  have hu := unitsPerOne_pos
  by_cases hone : fMagnitude x = unitsPerOne
  · left
    have hodd : (oddPart (fMagnitude x)).1 = 1 := by rw [hone]; decide +kernel
    have : powLogHigh x y = powLogLow x y := by simp [powLogHigh, powLogLow, logHigh, hodd]
    rw [this, sub_self]
    exact mul_nonneg (by positivity) hu.le
  · rcases le_or_gt ((fMagnitude y : ℝ)) (2 ^ 77 * unitsPerOne) with hy | hy
    · left; nlinarith
    · right
      have hfar := magnitudeLog_far h hone
      have hl : |Real.logb 2 (realPower x y)| * unitsPerOne = fMagnitude y * |magnitudeLog x| := by
        have : |realOf y| * unitsPerOne = fMagnitude y := by
          rw [abs_realOf, div_mul_cancel₀ _ hu.ne']
        rw [(realPower_log h).2, abs_mul, ← this]
        ring
      generalize Real.logb 2 (realPower x y) = l at *
      have hbig : fMagnitude y * (1 / 2 ^ 53) ≤ |l| * unitsPerOne := by
        rw [hl]; exact mul_le_mul_of_nonneg_left hfar (Nat.cast_nonneg _)
      generalize (unitsPerOne : ℝ) = u at *
      generalize (fMagnitude y : ℝ) = m at *
      generalize (powLogLow x y : ℝ) = lo at *
      generalize (powLogHigh x y : ℝ) = hi at *
      have hm : m ≤ 2 ^ 53 * (|l| * u) := by
        have := mul_le_mul_of_nonneg_left hbig (show (0 : ℝ) ≤ 2 ^ 53 by positivity)
        rw [mul_comm m, ← mul_assoc, mul_one_div_cancel (by positivity), one_mul] at this
        exact this
      rcases le_or_gt 0 l with hl0 | hl0
      · rw [abs_of_nonneg hl0] at hm
        have e1 : 2 ^ 24 * u * 2 ^ 127 ≤ lo := by nlinarith
        have e2 : 2 ^ 24 * u * 2 ^ 127 ≤ hi := by nlinarith
        have e0 : 0 ≤ 2 ^ 24 * u * 2 ^ 127 := by positivity
        refine ⟨e1.trans (le_abs_self _), e2.trans (le_abs_self _), ?_, ?_⟩
        · exact iff_of_true (e0.trans e1) (e0.trans e2)
        · exact iff_of_true (e0.trans e1) hl0
      · rw [abs_of_neg hl0] at hm
        have e1 : lo ≤ -(2 ^ 24 * u * 2 ^ 127) := by nlinarith
        have e2 : hi ≤ -(2 ^ 24 * u * 2 ^ 127) := by nlinarith
        have e0 : 0 < 2 ^ 24 * u * 2 ^ 127 := by positivity
        refine ⟨?_, ?_, ?_, ?_⟩
        · have := neg_le_abs lo; linarith
        · have := neg_le_abs hi; linarith
        · exact iff_of_false (by linarith) (by linarith)
        · exact iff_of_false (by linarith) (by linarith)

theorem powLimit_cast (e : Int) (k : Nat) : (powLimit e k : ℝ) = (e * 2 ^ 128 - k) * unitsPerOne := by
  rw [powLimit, Int.cast_mul, Int.cast_sub, Int.cast_mul, Int.cast_natCast, Int.cast_natCast, Int.cast_pow,
    Int.cast_ofNat]

/-- The three tests of `POW`'s range, in terms of the binary logarithm of the real power: none answers yes without reason, and
each answers yes up to the factor 2^(2^-49). -/
theorem pow_range {x : F64} (y : F64) (h : 0 < fMagnitude x) :
    (powOverflows x y = true → 1024 ≤ Real.logb 2 (realPower x y)) ∧
    (powUnderflows x y = true → Real.logb 2 (realPower x y) ≤ -1022 - 1 / 2 ^ 50) ∧
    (powStaysFinite x y = true → Real.logb 2 (realPower x y) ≤ 1024 - 1 / 2 ^ 50) ∧
    (1024 + 1 / 2 ^ 50 ≤ Real.logb 2 (realPower x y) → powOverflows x y = true) ∧
    (Real.logb 2 (realPower x y) ≤ -1022 - 1 / 2 ^ 49 → powUnderflows x y = true) ∧
    (Real.logb 2 (realPower x y) ≤ 1024 - 1 / 2 ^ 49 → powStaysFinite x y = true) := by
  obtain ⟨b₁, b₂, b₃⟩ := powLog_bounds y h
  have hgap := powLog_gap y h
  have hu := unitsPerOne_pos
  unfold powOverflows powUnderflows powStaysFinite
  simp only [decide_eq_true_eq, ← Int.cast_le (R := ℝ), powLimit_cast]
  push_cast
  generalize Real.logb 2 (realPower x y) = l at *
  generalize (unitsPerOne : ℝ) = u at *
  generalize (powLogLow x y : ℝ) = lo at *
  generalize (powLogHigh x y : ℝ) = hi at *
  have scale : ∀ a b : ℝ, 2 ^ 128 * u * a ≤ 2 ^ 128 * u * b → a ≤ b := fun a b hab =>
    le_of_mul_le_mul_left hab (by positivity)
  have scale' : ∀ a b : ℝ, a ≤ b → 2 ^ 128 * u * a ≤ 2 ^ 128 * u * b := fun a b hab =>
    mul_le_mul_of_nonneg_left hab (by positivity)
  refine ⟨fun hh => scale _ _ ?_, fun hh => scale _ _ ?_, fun hh => scale _ _ ?_, fun hh => ?_, fun hh => ?_,
    fun hh => ?_⟩
  · refine le_trans (le_of_eq ?_) (hh.trans b₁); ring
  · refine le_trans (b₂.trans hh) (le_of_eq ?_); ring
  · refine le_trans (b₂.trans hh) (le_of_eq ?_); ring
  · have := scale' _ _ hh
    have e : 2 ^ 128 * u * (1024 + 1 / 2 ^ 50) = 1024 * 2 ^ 128 * u + 2 ^ 78 * u := by ring
    rcases hgap with g | ⟨g₁, g₂, g₃, g₄⟩
    · linarith
    · have : 0 ≤ lo := g₄.mpr (le_trans (by positivity) hh)
      rw [abs_of_nonneg this] at g₁
      linarith
  · have := scale' _ _ hh
    have e : 2 ^ 128 * u * (-1022 - 1 / 2 ^ 49) = -1022 * 2 ^ 128 * u - 2 * (2 ^ 78 * u) := by ring
    rcases hgap with g | ⟨g₁, g₂, g₃, g₄⟩
    · linarith
    · have hl : ¬ 0 ≤ l := by
        have : (0 : ℝ) < 1 / 2 ^ 49 := by positivity
        linarith
      have : ¬ 0 ≤ hi := fun hc => hl (g₄.mp (g₃.mpr hc))
      rw [abs_of_neg (not_le.mp this)] at g₂
      linarith
  · have := scale' _ _ hh
    have e : 2 ^ 128 * u * (1024 - 1 / 2 ^ 49) = 1024 * 2 ^ 128 * u - 2 * (2 ^ 78 * u) := by ring
    rcases hgap with g | ⟨g₁, g₂, g₃, g₄⟩
    · linarith
    · rcases le_or_gt 0 hi with hc | hc
      · exfalso
        have hlo : 0 ≤ lo := g₃.mpr hc
        rw [abs_of_nonneg hlo] at g₁
        linarith
      · linarith

/-- A count of units that fits 53 bits at some exponent is rounded to itself. -/
theorem roundUnits_exact (neg : Bool) {k j : Nat} (hk : k < 2 ^ 53) (hj : k * 2 ^ j < 2 ^ 2098) (h : 0 < k) :
    fIsFinite (roundUnits neg (k * 2 ^ j) 1) = true ∧ fSign (roundUnits neg (k * 2 ^ j) 1) = neg ∧
      fMagnitude (roundUnits neg (k * 2 ^ j) 1) = k * 2 ^ j := by
  -- a pattern with exactly that magnitude
  have hex : ∃ g : F64, fIsFinite g = true ∧ fMagnitude g = k * 2 ^ j := by
    have hl := Nat.log2_self_le (n := k) (by omega)
    have hu := Nat.lt_log2_self (n := k)
    have hl53 : k.log2 < 53 := (Nat.log2_lt (by omega)).mpr hk
    rcases Nat.lt_or_ge (j + k.log2) 52 with hs | hs
    · -- subnormal: the count itself is the fraction
      have hm : k * 2 ^ j < 2 ^ 52 := by
        calc k * 2 ^ j < 2 ^ (k.log2 + 1) * 2 ^ j := Nat.mul_lt_mul_of_pos_right hu (by positivity)
          _ = 2 ^ (k.log2 + 1 + j) := by rw [← pow_add]
          _ ≤ 2 ^ 52 := Nat.pow_le_pow_right (by norm_num) (by omega)
      have := fMagnitude_withSign false (e := 0) (m := k * 2 ^ j)
        (hm.le.trans (by norm_num)) (fun h0 => absurd h0 (lt_irrefl _))
        (by rw [Nat.zero_mul, Nat.zero_add]; exact hm.trans_le (by unfold infBits; norm_num))
      refine ⟨_, this.1, by rw [this.2, pow_zero, Nat.mul_one]⟩
    · have hj2 : j + k.log2 < 2098 := by
        by_contra hc
        have : 2 ^ 2098 ≤ k * 2 ^ j := by
          calc 2 ^ 2098 ≤ 2 ^ (k.log2 + j) := Nat.pow_le_pow_right (by norm_num) (by omega)
            _ = 2 ^ k.log2 * 2 ^ j := pow_add _ _ _
            _ ≤ k * 2 ^ j := Nat.mul_le_mul_right _ hl
        exact absurd hj (Nat.not_lt.mpr this)
      obtain ⟨e, he⟩ := Nat.exists_eq_add_of_le (show 52 - k.log2 ≤ j by clear hj; omega)
      have h52 : 2 ^ 52 ≤ k * 2 ^ (52 - k.log2) := by
        calc 2 ^ 52 = 2 ^ (k.log2 + (52 - k.log2)) := by congr 1; clear hj; omega
          _ = 2 ^ k.log2 * 2 ^ (52 - k.log2) := pow_add _ _ _
          _ ≤ k * 2 ^ (52 - k.log2) := Nat.mul_le_mul_right _ hl
      have h53 : k * 2 ^ (52 - k.log2) < 2 ^ 53 := by
        calc k * 2 ^ (52 - k.log2) < 2 ^ (k.log2 + 1) * 2 ^ (52 - k.log2) :=
              Nat.mul_lt_mul_of_pos_right hu (by positivity)
          _ = 2 ^ (k.log2 + 1 + (52 - k.log2)) := by rw [← pow_add]
          _ = 2 ^ 53 := by congr 1; clear hj; omega
      have := fMagnitude_withSign false (e := e) (m := k * 2 ^ (52 - k.log2))
        (by clear hj; omega) (fun _ => h52) (by clear hj; unfold infBits; omega)
      refine ⟨_, this.1, ?_⟩
      rw [this.2, he, pow_add]
      ring
  obtain ⟨g, hg, hgm⟩ := hex
  obtain ⟨r₁, r₂, r₃⟩ := roundUnits_roundsTo neg (k * 2 ^ j) 1 (by norm_num)
  have hlt : k * 2 ^ j < overflowUnits * 1 := by
    rw [overflowUnits, Nat.mul_one]
    rcases Nat.lt_or_ge j 2045 with h45 | h45
    · have h44 : 2 ^ j ≤ 2 ^ 2044 := Nat.pow_le_pow_right (by norm_num) (by clear hj; omega)
      have hkj : k * 2 ^ j < 2 ^ 53 * 2 ^ j := Nat.mul_lt_mul_of_pos_right hk (by positivity)
      exact hkj.trans_le (Nat.mul_le_mul (by norm_num) h44)
    · obtain ⟨d, rfl⟩ := Nat.exists_eq_add_of_le h45
      have he : k * 2 ^ (2045 + d) = k * 2 ^ d * 2 ^ 2045 := by rw [pow_add]; ring
      have h98 : (2 : Nat) ^ 2098 = 2 ^ 53 * 2 ^ 2045 := by rw [← pow_add]
      rw [he, h98] at hj
      have hc := Nat.lt_of_mul_lt_mul_right hj
      rw [he]
      calc k * 2 ^ d * 2 ^ 2045 ≤ (2 ^ 53 - 1) * 2 ^ 2045 := Nat.mul_le_mul_right _ (by omega)
        _ = (2 ^ 54 - 2) * 2 ^ 2044 := by rw [pow_succ 2 2044]; ring
        _ < (2 ^ 54 - 1) * 2 ^ 2044 := Nat.mul_lt_mul_of_pos_right (by norm_num) (by positivity)
  obtain ⟨r₄, r₅⟩ := r₃ hlt
  refine ⟨r₄, r₁, ?_⟩
  by_contra hne
  have := (r₅ g hg (by rw [hgm]; exact fun h => hne h.symm)).1
  rw [hgm] at this
  simp only [Nat.mul_one, sub_self, Int.natAbs_zero] at this
  omega

/-- A count of units `c * 2^(e + 1074)` stands for the real `c * 2^e`. -/
theorem units_value (c : Nat) {e : Int} (he : -1074 ≤ e) :
    ((c * 2 ^ (e + 1074).toNat : Nat) : ℝ) / unitsPerOne = c * (2 : ℝ) ^ e := by
  have h2 : (2 : ℝ) ^ (e + 1074).toNat = (2 : ℝ) ^ e * (2 : ℝ) ^ (1074 : ℕ) := by
    rw [← zpow_natCast (2 : ℝ) (e + 1074).toNat, ← zpow_natCast (2 : ℝ) 1074, ← zpow_add₀ (by norm_num)]
    congr 1
    omega
  rw [Nat.cast_mul, Nat.cast_pow, Nat.cast_ofNat, h2, unitsPerOne_cast, ← mul_assoc,
    mul_div_assoc, div_self (pow_ne_zero _ (by norm_num)), mul_one]

/-- The real power of a Number with odd part `m` and an integer exponent. -/
theorem realPower_integer {x y : F64} (h : 0 < fMagnitude x) (hy : fIsInteger y = true)
    (hs : fSign y = false ∨ (oddPart (fMagnitude x)).1 = 1) :
    realPower x y = ((oddPart (fMagnitude x)).1 : ℝ) ^ (fMagnitude y / unitsPerOne) * (2 : ℝ) ^ powExponent x y := by
  obtain ⟨hspec, -⟩ := oddPart_spec h
  generalize hm : (oddPart (fMagnitude x)).1 = m at *
  generalize ht : (oddPart (fMagnitude x)).2 = t at *
  have hx : |realOf x| = m * (2 : ℝ) ^ ((t : Int) - 1074) := by
    rw [abs_realOf, hspec, ← units_value m (by omega)]
    congr 4
    omega
  have hk : (fMagnitude y : ℝ) / unitsPerOne = (fMagnitude y / unitsPerOne : Nat) := by
    rw [Nat.cast_div (Nat.dvd_of_mod_eq_zero (by simpa [fIsInteger] using hy)) unitsPerOne_pos.ne']
  rw [realPower, hx, powExponent, ht]
  generalize fMagnitude y / unitsPerOne = k at *
  have hyr : realOf y = if fSign y then -(k : ℝ) else k := by
    rw [← hk, realOf, fUnits]
    split <;> push_cast <;> ring
  rw [hyr]
  cases hsy : fSign y
  · simp only [Bool.false_eq_true, if_false, Real.rpow_natCast]
    rw [mul_pow, ← zpow_natCast ((2 : ℝ) ^ _) k, ← zpow_mul]
  · rcases hs with hs | rfl
    · rw [hsy] at hs; cases hs
    · simp only [if_true, Nat.cast_one, one_mul, one_pow]
      rw [Real.rpow_neg (by positivity), Real.rpow_natCast, ← zpow_natCast ((2 : ℝ) ^ _) k, ← zpow_mul, ← zpow_neg]

/-- Where `powExact` answers, its answer is the real power with the sign asked for (41_arithmetic.md R101, P2). -/
theorem powExact_value {neg : Bool} {x y f : F64} (h : 0 < fMagnitude x) (hf : powExact neg x y = some f) :
    fIsFinite f = true ∧ fSign f = neg ∧ (fMagnitude f : ℝ) / unitsPerOne = realPower x y := by
  unfold powExact at hf
  dsimp only at hf
  have hodd := (oddPart_spec h).2
  split at hf
  · rename_i hy
    split at hf
    · rename_i hm
      rw [realPower_integer h hy (.inr hm), hm]
      split at hf
      · rename_i he
        split at hf
        · rename_i he'
          have hval := units_value 1 he
          generalize powExponent x y = e at *
          have hr := roundUnits_exact neg (k := 1) (j := (e + 1074).toNat) (by norm_num)
            (by rw [Nat.one_mul]; exact Nat.pow_lt_pow_right (by norm_num) (by omega)) (by norm_num)
          rw [Nat.one_mul] at hr hval
          simp only [Option.some.injEq] at hf
          subst hf
          refine ⟨hr.1, hr.2.1, ?_⟩
          rw [hr.2.2, hval]
          simp
        · cases hf
      · cases hf
    · rename_i hm
      split at hf
      · cases hf
      · rename_i hsy
        rw [realPower_integer h hy (.inl (by simpa using hsy))]
        generalize (oddPart (fMagnitude x)).1 = m at *
        generalize fMagnitude y / unitsPerOne = k at *
        split at hf
        · cases hf
        · split at hf
          · cases hf
          · rename_i hk53
            split at hf
            · rename_i he
              split at hf
              · rename_i he'
                have hval := units_value (m ^ k) he
                have hmk : 0 < m ^ k := Nat.pow_pos (by omega)
                generalize powExponent x y = e at *
                rw [← Nat.cast_pow]
                generalize m ^ k = c at *
                have hlt := Nat.lt_log2_self (n := c)
                have hbound : c * 2 ^ (e + 1074).toNat < 2 ^ 2098 := by
                  have h1 : c * 2 ^ (e + 1074).toNat < 2 ^ (c.log2 + 1) * 2 ^ (e + 1074).toNat :=
                    Nat.mul_lt_mul_of_pos_right hlt (by positivity)
                  rw [← pow_add] at h1
                  exact h1.trans_le (Nat.pow_le_pow_right (by norm_num) (by omega))
                have hr := roundUnits_exact neg (by omega) hbound hmk
                simp only [Option.some.injEq] at hf
                subst hf
                exact ⟨hr.1, hr.2.1, by rw [hr.2.2, hval]⟩
              · cases hf
            · cases hf
  · cases hf

end Sys2Proof.Machine
end

