-- ==== Sys2Proof/Tests/Slice0.lean ====
section
/-! SUPPORT. Tests/Slice0.lean: words, steps and witnesses checked by Lean's kernel. Expected results are those of
95_test_vectors.md (S and V numbers) or written out from the rule named; none is taken from the model. -/

namespace Sys2Proof.Tests

-- One theorem at a time: many kernel evaluations at once take one large thread stack each.
set_option Elab.async false

open Sys2Proof Sys2Proof.Machine

/-! Well-formedness: each register field above 255 is refused (30_encoding.md R60, R61). -/

theorem test_ill_formed_first_register :
    ([.loadConst 256 0, .loadUndef 256, .loadNull 256, .loadBool 256 true, .move 256 0, .add 256 0 0, .sub 256 0 0,
      .mul 256 0 0, .div 256 0 0, .mod 256 0 0, .pow 256 0 0, .neg 256 0, .eq 256 0, .lt 256 0, .le 256 0, .jmpIf 256 0,
      .call 256 0, .ret 256 0, .newObject 256, .newArray 256, .getProp 256 0 0, .setProp 256 0 0, .getElem 256 0 0,
      .setElem 256 0 0, .closure 256 0, .getScope 256 0, .setScope 0 256, .typeOf 256 0, .instanceOf 256 0 0,
      .declareFunc 256] : List Instr).all (fun i => !i.wellFormed) = true := by decide

theorem test_ill_formed_second_register :
    ([.move 0 256, .add 0 256 0, .sub 0 256 0, .mul 0 256 0, .div 0 256 0, .mod 0 256 0, .pow 0 256 0, .neg 0 256,
      .eq 0 256, .lt 0 256, .le 0 256, .getProp 0 256 0, .setProp 0 256 0, .getElem 0 256 0, .setElem 0 256 0,
      .typeOf 0 256, .instanceOf 0 256 0] : List Instr).all (fun i => !i.wellFormed) = true := by decide

theorem test_ill_formed_third_register :
    ([.add 0 0 256, .sub 0 0 256, .mul 0 0 256, .div 0 0 256, .mod 0 0 256, .pow 0 0 256, .getProp 0 0 256,
      .setProp 0 0 256, .getElem 0 0 256, .setElem 0 0 256, .instanceOf 0 0 256] : List Instr).all
        (fun i => !i.wellFormed) = true := by decide

theorem test_well_formed_limits :
    ([.add 255 255 255, .loadConst 255 0xFFFFFFFF, .ret 255 255, .jmp 0x80000000, .useStrict] : List Instr).all
      Instr.wellFormed = true := by decide

/-! Decoding: a word of every instruction, written from 30_encoding.md R63 to R65 (95_test_vectors.md gives the same words). -/

/-- What the decoder reads from each word. -/
def decoded (words : List Nat) : List (Option Instr) := words.map (decodeTableWord 64)

theorem test_decode_loads :
    decoded [0x0107000000000001, 0x0207000000000000, 0x03FF000000000000, 0x0403010000000000, 0x0403000000000000,
      0x0503010000000000, 0x01FF0000FFFFFFFF] =
    [some (.loadConst 7 1), some (.loadUndef 7), some (.loadNull 255), some (.loadBool 3 true), some (.loadBool 3 false),
      some (.move 3 1), some (.loadConst 255 0xFFFFFFFF)] := by decide +kernel

theorem test_decode_arithmetic :
    decoded [0x0602000100000000, 0x0703010200000000, 0x0803010200000000, 0x0903010200000000, 0x0A02000100000000,
      0x0B03010200000000, 0x0C02010000000000] =
    [some (.add 2 0 1), some (.sub 3 1 2), some (.mul 3 1 2), some (.div 3 1 2), some (.mod 2 0 1), some (.pow 3 1 2),
      some (.neg 2 1)] := by decide +kernel

theorem test_decode_comparisons :
    decoded [0x0D01030000000000, 0x0E04020000000000, 0x0F01020000000000] =
    [some (.eq 1 3), some (.lt 4 2), some (.le 1 2)] := by decide +kernel

theorem test_decode_control :
    decoded [0x10000000FFFFFFFC, 0x1000000080000000, 0x11030000FFFFFFFB, 0x12050A0000000000, 0x1307C80000000000,
      0x13FFFF0000000000] =
    [some (.jmp (-4)), some (.jmp (-2147483648)), some (.jmpIf 3 (-5)), some (.call 5 10), some (.ret 7 200),
      some (.ret 255 255)] := by decide +kernel

theorem test_decode_aggregates :
    decoded [0x1408000000000000, 0x1501000000000000, 0x160A080900000000, 0x1708090100000000, 0x1806040500000000,
      0x1901020300000000] =
    [some (.newObject 8), some (.newArray 1), some (.getProp 10 8 9), some (.setProp 8 9 1), some (.getElem 6 4 5),
      some (.setElem 1 2 3)] := by decide +kernel

theorem test_decode_scopes_and_types :
    decoded [0x1A010000FFFFFFFF, 0x1B0200000000002A, 0x1C0100000000002A, 0x1D0B0A0000000000, 0x1E0C080B00000000,
      0x1F09000000000000, 0x2000000000000003, 0x2100000000000000] =
    [some (.closure 1 0xFFFFFFFF), some (.getScope 2 42), some (.setScope 42 1), some (.typeOf 11 10),
      some (.instanceOf 12 8 11), some (.declareFunc 9), some (.declareVar 3), some .useStrict] := by decide +kernel

/-- V210 to V219. -/
theorem test_illegal_words :
    decoded [0x0000000000000000, 0x2200000000000000, 0xFF00000000000000, 0x2100000000000001, 0x0201000000000001,
      0x0403020000000000, 0x0601020300000001, 0x0101010000000000, 0x1001000000000000, 0x0E01020300000000] =
    List.replicate 10 none := by decide +kernel

/-- No two rows of the opcode table share a word: two patterns differ in a bit that both masks have. -/
theorem test_opcode_rows_disjoint :
    opcodeTable.Pairwise (fun p q => (p.pattern ^^^ q.pattern) &&& p.mask &&& q.mask ≠ 0) := by decide +kernel

/-- R71's examples of assembly text. -/
theorem test_assembly_text :
    [Instr.asm (.loadConst 0 0), Instr.asm (.add 2 0 1), Instr.asm (.jmp (-4)), Instr.asm (.jmpIf 0 4),
      Instr.asm (.setScope 42 1), Instr.asm (.ret 7 200), Instr.asm .useStrict] =
    ["LoadConst r0, #0", "Add r2, r0, r1", "Jmp #-4", "JmpIf r0, #+4", "SetScope #42, r1", "Return r7, #200",
      "UseStrict"] := by decide +kernel

/-! One step from a small state -/

/-- The construction state with some registers set. -/
def given (regs : List (Nat × Value)) : State :=
  regs.foldl (fun s p => s.setReg p.1 p.2) (State.construct (.wordForm []) [] [] Config.defaults)

/-- The state after one step that fetches this word. -/
def ran (s : State) (w : Nat) : Option State :=
  match step (s.withFetchWord 64 w) with
  | .next t => some t
  | _ => none

/-- Register `r` after one step that did not halt. -/
def regAfter (s : State) (w r : Nat) : Option Value :=
  (ran s w).bind fun t => if t.run = .running then some (t.reg r) else none

/-- `pc`, `FAULT_CAUSE` and `FAULT_PC` after one step. -/
def recordAfter (s : State) (w : Nat) : Option (Int × BitVec 8 × Int) :=
  (ran s w).map fun t => (t.pc, t.faultCause, t.faultPc)

/-- `x[1]` and `x[2]` as Numbers. -/
def numbers (x y : F64) : State := given [(1, .number x), (2, .number y)]

/-- An object in handle 0 with this mapping, an array in handle 1 with this sequence, and some registers. -/
def heaped (m : Mapping) (a : List Value) (regs : List (Nat × Value)) : State :=
  { given regs with heap := [(0, .obj m), (1, .arr a)], nextHandle := 2 }

/-- V1, V2. -/
theorem test_loadConst : regAfter { given [] with pool := [.number 0x4014000000000000, .string [0x68, 0x69]] }
    0x0107000000000001 7 = some (.string [0x68, 0x69]) := by decide +kernel
theorem test_loadConst_out_of_range : recordAfter { given [] with pool := [.number 0x4014000000000000] }
    0x0107000000000001 = some (0, 0x30, 0) := by decide +kernel
/-- V6, V7, V8, V10. -/
theorem test_loadUndef : regAfter (given [(7, .null)]) 0x0207000000000000 7 = some .undefined := by decide +kernel
theorem test_loadNull : regAfter (given []) 0x03FF000000000000 255 = some .null := by decide +kernel
theorem test_loadBool : regAfter (given []) 0x0403010000000000 3 = some (.boolean true) := by decide +kernel
theorem test_move : regAfter (given [(1, .array 0)]) 0x0502010000000000 2 = some (.array 0) := by decide +kernel
/-- V21, V26. -/
theorem test_add_rounds : regAfter (numbers 0x3FB999999999999A 0x3FC999999999999A) 0x0603010200000000 3 =
    some (.number 0x3FD3333333333334) := by decide +kernel
theorem test_add_tie : regAfter (numbers 0x4340000000000000 0x3FF0000000000000) 0x0603010200000000 3 =
    some (.number 0x4340000000000000) := by decide +kernel
/-- V27, V28. -/
theorem test_sub_order : regAfter (numbers 0x4014000000000000 0x401C000000000000) 0x0703010200000000 3 =
    some (.number 0xC000000000000000) := by decide +kernel
theorem test_sub_zero : regAfter (numbers 0x3FF8000000000000 0x3FF8000000000000) 0x0703010200000000 3 =
    some (.number 0) := by decide +kernel
/-- V31, V34. -/
theorem test_mul_negative_zero : regAfter (numbers 0xC000000000000000 0) 0x0803010200000000 3 =
    some (.number 0x8000000000000000) := by decide +kernel
theorem test_mul_underflow : regAfter (numbers 1 0x3FE0000000000000) 0x0803010200000000 3 = some (.number 0) := by
  decide +kernel
/-- V38, V42. -/
theorem test_div_by_negative_zero : regAfter (numbers 0x3FF0000000000000 0x8000000000000000) 0x0903010200000000 3 =
    some (.number 0xFFF0000000000000) := by decide +kernel
theorem test_div_third : regAfter (numbers 0x3FF0000000000000 0x4008000000000000) 0x0903010200000000 3 =
    some (.number 0x3FD5555555555555) := by decide +kernel
/-- V44, V53. -/
theorem test_mod_sign : regAfter (numbers 0xC024000000000000 0x4008000000000000) 0x0A03010200000000 3 =
    some (.number 0xBFF0000000000000) := by decide +kernel
theorem test_mod_exact : regAfter (numbers 0x7E37E43C8800759C 0x401C000000000000) 0x0A03010200000000 3 =
    some (.number 0x3FF0000000000000) := by decide +kernel
/-- V55, V69. -/
theorem test_pow_exact : regAfter (numbers 0xC000000000000000 0x4008000000000000) 0x0B03010200000000 3 =
    some (.number 0xC020000000000000) := by decide +kernel
theorem test_pow_special : regAfter (numbers 0xFFF0000000000000 0xC008000000000000) 0x0B03010200000000 3 =
    some (.number 0x8000000000000000) := by decide +kernel
/-- 10^310, 1.5^10000 and (1 + 2^-52)^1e300 overflow, 0.5^2000, 10^-400 and 10^-308 underflow, 10^308 and 2^0.5 do neither:
by hand from 10^308 < 2^1024 < 10^309, 2^-1022 > 2.2 * 10^-308 and 1.5 > 2^0.5. -/
theorem test_pow_range :
    powOverflows 0x4024000000000000 0x4073600000000000 = true ∧ powOverflows 0x3FF8000000000000 0x40C3880000000000 = true ∧
    powOverflows 0x3FF0000000000001 0x7E37E43C8800759C = true ∧
    powUnderflows 0x3FE0000000000000 0x409F400000000000 = true ∧ powUnderflows 0x4024000000000000 0xC079000000000000 = true ∧
    powUnderflows 0x4024000000000000 0xC073400000000000 = true ∧
    powStaysFinite 0x4024000000000000 0x4073400000000000 = true ∧ powUnderflows 0x4024000000000000 0x4073400000000000 = false ∧
    powStaysFinite 0x4000000000000000 0x3FE0000000000000 = true ∧ powUnderflows 0x4000000000000000 0x3FE0000000000000 = false := by
  decide +kernel
/-- V81, V82. -/
theorem test_neg_keeps_a_nan : regAfter (given [(1, .number 0x7FF8000000000001)]) 0x0C02010000000000 2 =
    some (.number 0xFFF8000000000001) := by decide +kernel
theorem test_neg_of_null : recordAfter (given [(1, .null)]) 0x0C02010000000000 = some (0, 0x01, 0) := by decide +kernel
/-- V39: the bits of the NaN are free, so only its being a NaN is fixed. -/
theorem test_div_zero_by_zero : WritesNaN (.div 3 1 2) (numbers 0 0) 3 := by
  refine ⟨nanFrom (Config.nanGen 0), nanFrom_isNaN _, ?_⟩
  rw [exec, execDiv, binaryArith_ok (x := 0) (y := 0) (by decide) (by decide) (by decide) (by decide +kernel)
    (by decide +kernel), show fdiv 0 0 = .nan by decide +kernel,
    show numbers 0 0 = { numbers 0 0 with nanDraws := 0 } by rfl]
  rfl
/-- V93, V119. -/
theorem test_eq_zeros : regAfter (numbers 0 0x8000000000000000) 0x0D01020000000000 0 = some (.boolean true) := by
  decide +kernel
theorem test_eq_nan : regAfter (given [(0, .number 0x7FF8000000000000)]) 0x0D00000000000000 0 =
    some (.boolean false) := by decide +kernel
/-- S5, V102. -/
theorem test_lt : regAfter (given [(0, .number 0x4008000000000000), (1, .number 0x4014000000000000)])
    0x0E00010000000000 0 = some (.boolean true) := by decide +kernel
theorem test_lt_bytes_unsigned : regAfter (given [(1, .string [0xC3, 0xA9]), (2, .string [0x7A])])
    0x0E01020000000000 0 = some (.boolean false) := by decide +kernel
/-- V104, V121. -/
theorem test_le_booleans : regAfter (given [(1, .boolean true), (2, .boolean true)]) 0x0F01020000000000 0 =
    some (.boolean true) := by decide +kernel
theorem test_le_no_order : recordAfter (given [(1, .null), (2, .null)]) 0x0F01020000000000 = some (0, 0x04, 0) := by
  decide +kernel
/-- V134, V135: backwards from index 2, then out of range. -/
theorem test_jmp : recordAfter { given [] with pc := 2 } 0x10000000FFFFFFFD = some (-1, 0, 0) := by decide +kernel
theorem test_fetch_out_of_range : (match step { given [] with pc := -1 } with
    | .next t => some (t.pc, t.faultCause, t.faultPc)
    | _ => none) = some (-1, 0x33, -1) := by decide +kernel
/-- V137, V138. -/
theorem test_jmpIf : recordAfter { given [(3, .boolean true)] with pc := 5 } 0x11030000FFFFFFFB = some (0, 0, 0) := by
  decide +kernel
theorem test_jmpIf_number : recordAfter { given [(3, .number 0x3FF0000000000000)] with pc := 5 } 0x11030000FFFFFFFB =
    some (6, 0, 0) := by decide +kernel
/-- S10, V145. -/
theorem test_call : (ran { given [(1, .function 3)] with pc := 1 } 0x1201000000000000).map
    (fun t => (t.pc, t.callStack, t.scopes.length)) = some (3, [1], 2) := by decide +kernel
theorem test_call_depth : recordAfter { given [(1, .function 0)] with
    callStack := [4], cfg := { Config.defaults with maxCallDepth := some 1 } } 0x1201000000000000 =
      some (0, 0x43, 0) := by decide +kernel
/-- V146, S10: a `Return` with arbitrary operands. -/
theorem test_return : (ran { given [] with pc := 20, callStack := [9, 1], scopes := [[], [], []] } 0x1307C80000000000).map
    (fun t => (t.pc, t.callStack, t.scopes.length)) = some (9, [1], 2) := by decide +kernel
theorem test_return_underflow : recordAfter (given []) 0x1300000000000000 = some (0, 0x10, 0) := by decide +kernel
/-- V150, V151. -/
theorem test_newObject : (ran (given []) 0x1401000000000000).map (fun t => (t.reg 1, t.heap, t.nextHandle)) =
    some (.object 0, [(0, .obj [])], 1) := by decide +kernel
theorem test_newArray : (ran (heaped [] [] []) 0x1501000000000000).map (fun t => (t.reg 1, t.heap, t.nextHandle)) =
    some (.array 2, [(0, .obj []), (1, .arr []), (2, .arr [])], 3) := by decide +kernel
/-- S9, V153. -/
theorem test_getProp_missing : regAfter (heaped [] [] [(1, .object 0), (2, .string [0x61]), (4, .null)])
    0x1604010200000000 4 = some .undefined := by decide +kernel
theorem test_getProp_of_array : recordAfter (heaped [] [] [(1, .array 1), (2, .string [0x61])]) 0x1603010200000000 =
    some (0, 0x02, 0) := by decide +kernel
/-- V156, V157. -/
theorem test_setProp_overwrites : (ran (heaped [([0x61], .null)] [] [(1, .object 0), (2, .string [0x61])])
    0x1701020300000000).map (·.heap) = some [(0, .obj [([0x61], .undefined)]), (1, .arr [])] := by decide +kernel
theorem test_setProp_empty_key : (ran (heaped [([0x61], .null)] [] [(1, .object 0), (2, .string []), (3, .boolean true)])
    0x1701020300000000).map (·.heap) = some [(0, .obj [([], .boolean true), ([0x61], .null)]), (1, .arr [])] := by
  decide +kernel
/-- V162, V164. -/
theorem test_getElem_fraction : regAfter (heaped [] [.null, .boolean true]
    [(1, .array 1), (2, .number 0xBFECCCCCCCCCCCCD)]) 0x1803010200000000 3 = some .null := by decide +kernel
theorem test_getElem_negative : recordAfter (heaped [] [.null, .boolean true]
    [(1, .array 1), (2, .number 0xBFF0000000000000)]) 0x1803010200000000 = some (0, 0x42, 0) := by decide +kernel
/-- S8, V168. -/
theorem test_setElem_grows : (ran (heaped [] [] [(1, .array 1), (2, .number 0x4008000000000000), (3, .boolean true)])
    0x1901020300000000).map (·.heap) =
      some [(0, .obj []), (1, .arr [.undefined, .undefined, .undefined, .boolean true])] := by decide +kernel
theorem test_setElem_too_long : recordAfter (heaped [] [] [(1, .array 1), (2, .number 0x7E37E43C8800759C)])
    0x1901020300000000 = some (0, 0x43, 0) := by decide +kernel
/-- V181, V184, V185. -/
theorem test_closure : regAfter (given []) 0x1A010000FFFFFFFF 1 = some (.function 4294967295) := by decide +kernel
theorem test_getScope : regAfter { given [] with scopes := [[([0x34, 0x32], .null)]] } 0x1B0200000000002A 2 =
    some .null := by decide +kernel
theorem test_getScope_missing : recordAfter { given [] with scopes := [[], [([0x37], .null)]] } 0x1B02000000000007 =
    some (0, 0x41, 0) := by decide +kernel
/-- V183, V188, V190. -/
theorem test_setScope : (ran (given [(1, .null)]) 0x1C0100000000002A).map (·.scopes) =
    some [[([0x34, 0x32], .null)]] := by decide +kernel
theorem test_declareVar_overwrites : (ran { given [] with scopes := [[([0x33], .null)]] } 0x2000000000000003).map
    (·.scopes) = some [[([0x33], .undefined)]] := by decide +kernel
theorem test_declareVar_full : recordAfter { given [] with
    scopes := [[([0x33], .undefined)]], cfg := { Config.defaults with maxScopeEntries := some 1 } } 0x2000000000000004 =
      some (0, 0x43, 0) := by decide +kernel
/-- V191, V193. -/
theorem test_declareFunc : regAfter { given [] with pc := 5 } 0x1F09000000000000 9 = some (.function 5) := by
  decide +kernel
theorem test_useStrict : (ran { given [] with strict := true } 0x2100000000000000).map (·.strict) = some true := by
  decide +kernel
/-- S11, V201. -/
theorem test_typeOf : regAfter (given [(1, .array 0)]) 0x1D01010000000000 1 =
    some (.string [0x6F, 0x62, 0x6A, 0x65, 0x63, 0x74]) := by decide +kernel
/-- V203, V204. -/
theorem test_instanceOf : regAfter (given [(1, .object 0), (2, .function 99999)]) 0x1E00010200000000 0 =
    some (.boolean true) := by decide +kernel
theorem test_instanceOf_functions : regAfter (given [(1, .function 0), (2, .function 0)]) 0x1E03010200000000 3 =
    some (.boolean false) := by decide +kernel
/-- V210 when fetched. -/
theorem test_illegal_word_is_fatal : recordAfter (given []) 0 = some (0, 0x40, 0) := by decide +kernel

/-! Witnesses: for each statement with hypotheses, concrete states and operands that meet them -/

/-- Whether an outcome is a next state. -/
def isNext : Result → Bool
  | .next _ => true
  | _ => false

/-- The state of an outcome that is a next state. -/
def stateOf (o : Result) (h : isNext o = true) : State :=
  match o, h with
  | .next t, _ => t

theorem eq_stateOf (o : Result) (h : isNext o = true) : o = .next (stateOf o h) := by
  cases o with
  | next t => rfl
  | fault r => cases h
  | refused r => cases h

/-- Where an evaluation says so, an outcome is a next state that passes a test. -/
theorem next_of {o : Result} {p : State → Bool}
    (h : (match o with | .next t => p t | _ => false) = true) : ∃ t, o = .next t ∧ p t = true := by
  cases o with
  | next t => exact ⟨t, rfl, h⟩
  | fault r => cases h
  | refused r => cases h

/-- A constructed state with a program of one `UseStrict`, at its first step. -/
def started : State := State.construct (.wordForm [0x2100000000000000]) [] [] Config.defaults

/-- A construction state over an empty heap, whatever the program, with handle-free registers set. -/
theorem given_handlesOk_nil : HandlesOk started := by
  refine ⟨fun r hr => ?_, ?_, ?_, ?_, ?_⟩
  · have : started.reg r = .undefined := by simp [started, State.construct, State.reg, hr]
    simp [this, HandleOk]
  all_goals simp [started, State.construct]

theorem witness_started_steps : ∃ t, step started = .next t ∧ (t.run == .running) = true :=
  next_of (by decide +kernel)

theorem witness_DecodeEncodeRoundTrip :
    (Instr.add 255 0 255).wellFormed = true ∧ (Instr.loadConst 255 0xFFFFFFFF).wellFormed = true ∧
    (Instr.ret 255 255).wellFormed = true := by decide

theorem witness_EncodeDecodeLegalWord : decode 0x01FF0000FFFFFFFF = .ok (.loadConst 255 0xFFFFFFFF) := by rfl

theorem witness_OpcodeTableDecidesDecoding :
    (∃ row ∈ opcodeTable, (0x0602000100000000 : Word) &&& row.mask = row.pattern) ∧
    (∀ row ∈ opcodeTable, (0x2200000000000000 : Word) &&& row.mask ≠ row.pattern) := by decide +kernel

theorem witness_StepRunsTheFetchedInstruction :
    (started.run = .running ∧ started.prog = .wordForm [0x2100000000000000] ∧ 0 ≤ started.pc ∧
      [(0x2100000000000000 : Word)][started.pc.toNat]? = some 0x2100000000000000 ∧
      decode 0x2100000000000000 = .ok .useStrict) ∧
    (let s := State.construct (.abstractForm [.add 0 256 0]) [] [] Config.defaults
     s.run = .running ∧ 0 ≤ s.pc ∧ [Instr.add 0 256 0][s.pc.toNat]? = some (.add 0 256 0)) :=
  ⟨⟨rfl, rfl, le_refl _, rfl, rfl⟩, rfl, le_refl _, rfl⟩

theorem witness_FetchFollowsTheCounter :
    let at' := fun (n : Int) => { started with pc := n }
    (at' 1).run = .running ∧ (at' 1).pc = (at' 1).prog.length ∧ (at' (-1)).pc < 0 ∧
    ((at' 1).prog.length : Int) < (at' 2).pc ∧ 0 ≤ (at' 0).pc ∧ (at' 0).pc < (at' 0).prog.length :=
  ⟨rfl, rfl, by decide, by decide, by decide, by decide⟩

theorem witness_HaltedEngineHasNoStep :
    started.haltOk.run ≠ .running ∧ (started.enterFatal .badIndex).run ≠ .running := by decide

theorem witness_FatalConditionsArePrecise :
    ∃ t, step { started with pc := -1 } = .next t ∧ (t.run == .haltedFault) = true := next_of (by decide +kernel)

theorem witness_EveryInstructionHasAnOutcome :
    HandlesOk started ∧ started.run = .running ∧ 0 ≤ started.pc ∧ started.pc < started.prog.length :=
  ⟨given_handlesOk_nil, rfl, by decide, by decide⟩

theorem witness_CounterAfterEveryInstruction :
    (given []).run = .running ∧ ∃ t, exec (.jmp 0x80000000) (given []) = .next t ∧ (t.run == .running) = true :=
  ⟨rfl, next_of (by decide +kernel)⟩

theorem witness_StackDepthsStayMatched : StacksMatch started ∧ ∃ t, step started = .next t := by
  obtain ⟨t, h, -⟩ := witness_started_steps
  exact ⟨rfl, t, h⟩

theorem witness_CountersStayBounded :
    (Program.wordForm [0]).length ≤ 2 ^ 32 ∧ CountersBounded started ∧ ∃ t, step started = .next t := by
  obtain ⟨t, h, -⟩ := witness_started_steps
  exact ⟨by decide, by decide, t, h⟩

theorem witness_HandlesStayWellFormed : HandlesOk started ∧ ∃ t, step started = .next t := by
  obtain ⟨t, h, -⟩ := witness_started_steps
  exact ⟨given_handlesOk_nil, t, h⟩

theorem witness_CapacitiesAndCanonicalFormHold :
    started.cfg.legal ∧ MapsCanonical started ∧ WithinCapacities started ∧ ScopeKeysWithin started ∧
    ∃ t, step started = .next t := by
  obtain ⟨t, h, -⟩ := witness_started_steps
  have hany : ∀ v, StringWithin started.cfg v := fun v => by
    cases v <;> simp [StringWithin, started, State.construct, Config.defaults, Within]
  exact ⟨by decide, by decide, ⟨trivial, trivial, by simp [started, State.construct], by
    simp [started, State.construct, Config.defaults, Within], fun _ _ => hany _, fun _ _ => hany _⟩,
    by simp [ScopeKeysWithin, started, State.construct], t, h⟩

/-- The boundary of `MAX_STRING_BYTES`: 9 is legal and holds the longest type name, and a String of one byte more is beyond. -/
theorem test_string_capacity :
    let cfg := { Config.defaults with maxStringBytes := some 9 }
    cfg.legal ∧ StringWithin cfg (.string (typeName .undefined)) ∧ ¬ StringWithin cfg (.string (List.replicate 10 0)) := by
  refine ⟨by decide, ?_, ?_⟩ <;> simp only [StringWithin, Within] <;> decide +kernel

theorem witness_FaultRecordStaysHonest : FaultRecordOk started ∧ ∃ t, step started = .next t := by
  obtain ⟨t, h, -⟩ := witness_started_steps
  exact ⟨⟨fun _ => ⟨rfl, rfl⟩, fun h => by cases h⟩, t, h⟩

theorem witness_ScopeKeysStaySynthesized : ScopeKeysOk started ∧ ∃ t, step started = .next t := by
  obtain ⟨t, h, -⟩ := witness_started_steps
  exact ⟨by simp [ScopeKeysOk, started, State.construct], t, h⟩

/-- A pool with an object that holds itself. -/
theorem witness_ConstructionMeetsEveryInvariant :
    let heap0 : Heap := [(0, .obj [([0x61], .object 0)])]
    InputOk [.object 0, .null] heap0 ∧ Heap.wf heap0 ∧ Within heap0.length Config.defaults.maxHeapCells ∧
    (∀ p ∈ heap0, CellWithin Config.defaults p.2) ∧
    (∀ v ∈ [Value.object 0, .null], StringWithin Config.defaults v) ∧ (Program.wordForm []).length ≤ 2 ^ 32 := by
  have hc : HandleOk [(0, .obj [([0x61], .object 0)])] (.object 0) := ⟨_, rfl⟩
  refine ⟨⟨fun h => absurd trivial (h (.object 0) (by simp)), ?_, ?_⟩, by decide, trivial, ?_⟩
  · simpa [HandleOk] using hc
  · simpa [CellHandlesOk] using hc
  · exact ⟨by simp [CellWithin, StringWithin, Config.defaults, Within], by simp [StringWithin], by decide⟩

theorem witness_ConstructionValues :
    (255 < numRegs) ∧ ([(0, .obj [])] : Heap) ≠ [] ∧ (0, HeapCell.obj []) ∈ ([(0, .obj [])] : Heap) := by simp

theorem witness_ConstantsStayAndStrictOnlyRises :
    (∃ t, step started = .next t) ∧ (∃ t, exec .useStrict started = .next t ∧ t.strict = true) ∧
    ∃ t, exec (.loadNull 255) started = .next t ∧ t.strict = false := by
  obtain ⟨t, h, -⟩ := witness_started_steps
  exact ⟨⟨t, h⟩, ⟨_, rfl, rfl⟩, _, rfl, rfl⟩

theorem witness_StrictFlagIsNeverRead : ∃ t, step started = .next t := by
  obtain ⟨t, h, -⟩ := witness_started_steps
  exact ⟨t, h⟩

theorem witness_StacksMoveOnlyByCallAndReturn :
    (∃ t, exec (.declareVar 0) (given []) = .next t ∧ (t.run == .running) = true) ∧
    (∀ func argc, Instr.declareVar 0 ≠ .call func argc) ∧ (∀ start count, Instr.declareVar 0 ≠ .ret start count) :=
  ⟨next_of (by decide +kernel), by simp, by simp⟩

/-- An object and an array, the operands of the four access instructions. -/
def accesses : State :=
  heaped [([0x61], .null)] [.null, .boolean true] [(1, .object 0), (2, .string [0x61]), (3, .array 1), (4, .number fOne)]

theorem witness_CellsKeepKindAndOnlyGrow :
    (∀ p ∈ accesses.heap, p.1 < accesses.nextHandle) ∧
    (∃ t, exec (.setProp 1 2 3) accesses = .next t ∧ (t.run == .running) = true) ∧
    Heap.cell accesses.heap 0 = some (.obj [([0x61], .null)]) ∧
    Heap.cell accesses.heap 1 = some (.arr [.null, .boolean true]) :=
  ⟨by decide +kernel, next_of (by decide +kernel), by decide +kernel, by decide +kernel⟩

theorem witness_RegisterWritesFollowTheTable :
    (∃ t, exec (.eq 1 2) (given []) = .next t ∧ (t.run == .running) = true) ∧ 255 ∉ writtenRegisters (.eq 1 2) :=
  ⟨next_of (by decide +kernel), by decide⟩

theorem witness_RegisterIndexCheck :
    (∃ r ∈ usedRegisters (.setElem 0 0 256), numRegs ≤ r) ∧ decode 0x05FFFF0000000000 = .ok (.move 255 255) ∧
    255 ∈ usedRegisters (.move 255 255) := ⟨by decide, by rfl, by decide⟩

theorem witness_AllocatedObjectsAreDistinct :
    HandlesOk started ∧ started.run = .running ∧
    (∃ t, exec (.newArray 0) started = .next t ∧ t.run = .running) ∧
    ∃ t u v, (exec (.newObject 255) started = .next t ∧ t.run = .running) ∧
      (exec (.newArray 0) t = .next u ∧ u.run = .running) ∧ exec (.eq 255 0) u = .next v :=
  ⟨given_handlesOk_nil, rfl, ⟨_, rfl, rfl⟩, _, _, _, ⟨rfl, rfl⟩, ⟨rfl, rfl⟩, rfl⟩

theorem witness_ReturnUndoesCall :
    ∃ t u : State, (given [(1, .function 3)]).run = .running ∧ exec (.call 1 0) (given [(1, .function 3)]) = .next t ∧
      t.run = .running ∧ u.callStack = t.callStack ∧ u.scopes = [([0x30], .null)] :: t.scopes.tail := by
  obtain ⟨t, h, hr⟩ := next_of (o := exec (.call 1 0) (given [(1, .function 3)])) (p := fun t => t.run == .running)
    (by decide +kernel)
  exact ⟨t, { t with scopes := [([0x30], .null)] :: t.scopes.tail }, rfl, h, by simpa using hr, rfl, rfl⟩

theorem witness_LoadConstReadsThePool :
    let s := { started with pool := [Value.null] }
    255 < numRegs ∧ s.pool[(0 : U32).toNat]? = some .null ∧ s.pool.length ≤ (1 : U32).toNat :=
  ⟨by decide, rfl, by decide⟩

theorem witness_LoadsAndMoveWriteOneRegister : 0 < numRegs ∧ 255 < numRegs := by decide

theorem witness_AddSubFollowIeee :
    let s := numbers 0x4008000000000000 0xC008000000000000
    s.reg 1 = .number 0x4008000000000000 ∧ s.reg 2 = .number 0xC008000000000000 ∧
    fIsFinite 0x4008000000000000 = true ∧ fUnits 0x4008000000000000 + fUnits 0xC008000000000000 = 0 ∧
    fUnits 0x4008000000000000 - fUnits 0xC008000000000000 ≠ 0 ∧ fIsNaN 0x7FF0000000000001 = true ∧
    fIsInf (infOf true) = true ∧ fIsInf (infOf false) = true ∧ fSign (infOf true) ≠ fSign (infOf false) := by
  decide +kernel

theorem witness_MulDivFollowIeee :
    let s := numbers 0x0000000000000001 0x8000000000000000
    s.reg 1 = .number 1 ∧ s.reg 2 = .number 0x8000000000000000 ∧ fIsFinite 1 = true ∧ fIsZero 1 = false ∧
    fIsFinite 0x8000000000000000 = true ∧ fIsZero 0x8000000000000000 = true ∧ fIsInf 0xFFF0000000000000 = true ∧
    fIsFinite 0xFFF0000000000000 = false ∧ fIsNaN 0xFFFFFFFFFFFFFFFF = true := by decide +kernel

theorem witness_ModIsTheExactTruncatedRemainder :
    let s := numbers 0xC024000000000000 0x4008000000000000
    s.reg 1 = .number 0xC024000000000000 ∧ s.reg 2 = .number 0x4008000000000000 ∧
    fIsFinite 0xC024000000000000 = true ∧ fIsFinite 0x4008000000000000 = true ∧ fIsZero 0x4008000000000000 = false ∧
    fIsInf 0x7FF0000000000000 = true ∧ fIsZero 0 = true := by decide +kernel

/-- Every row of R101's table, in its order. -/
theorem witness_PowFollowsTheSpecialCases :
    let s := numbers fMinusOne (infOf false)
    s.reg 1 = .number fMinusOne ∧ s.reg 2 = .number (infOf false) ∧ fIsZero 0x8000000000000000 = true ∧
    fIsNaN 0x7FF8000000000000 = true ∧ fIsZero (infOf true) = false ∧ fIsNaN fMinusOne = false ∧
    fIsFinite 0x3FE0000000000000 = true ∧ fMagnitude 0x3FE0000000000000 < unitsPerOne ∧
    unitsPerOne < fMagnitude 0x3FF0000000000001 ∧ fIsFinite fMinusOne = true ∧ fIsZero fMinusOne = false ∧
    fMagnitude 0xC008000000000000 = (2 * 1 + 1) * unitsPerOne ∧ fSign 0xC008000000000000 = true ∧
    unitsPerOne ∣ fMagnitude 0xC008000000000000 ∧ ¬ unitsPerOne ∣ fMagnitude 0x3FE0000000000000 ∧
    2 * unitsPerOne ≤ fMagnitude 0x4000000000000000 ∧ 1024 * unitsPerOne ≤ fMagnitude 0x4090000000000000 ∧
    fSign 0x4090000000000000 = false := by decide +kernel

/-- `2^-1074`, and `(-2)^3 = -8`. -/
theorem witness_PowIsExactWhereRepresentable :
    let s := numbers 0x4000000000000000 0xC090C80000000000
    s.reg 1 = .number 0x4000000000000000 ∧ s.reg 2 = .number 0xC090C80000000000 ∧ fIsNaN 0x8000000000000000 = false ∧
    fIsFinite 0x4000000000000000 = true ∧ fIsZero 0x4000000000000000 = false ∧ fIsFinite 0xC090C80000000000 = true ∧
    fUnits 0xC090C80000000000 = (-1074) * unitsPerOne ∧ fIsFinite 1 = true ∧
    fUnits 1 * fUnits 0x4000000000000000 ^ 1074 = (unitsPerOne : Int) ^ 1074 * unitsPerOne ∧
    fUnits 0xC020000000000000 * (unitsPerOne : Int) ^ 3 = fUnits 0xC000000000000000 ^ 3 * unitsPerOne := by
  decide +kernel

theorem witness_NegInvertsTheSignBit : (numbers 0x7FF8000000000001 0).reg 1 = .number 0x7FF8000000000001 := by
  decide +kernel

theorem witness_ArithmeticNeedsNumbers :
    (∀ x, (given [(1, .boolean true)]).reg 1 ≠ .number x) ∧ 255 < numRegs := by
  rw [show (given [(1, .boolean true)]).reg 1 = .boolean true by decide +kernel]
  simp

theorem witness_EqWritesValueEquality : 0 < numRegs ∧ 255 < numRegs := by decide

theorem witness_LtLeWriteTheOrder :
    (∀ f g, fIsNaN f = false → fIsNaN g = false → Comparable (.number f) (.number g)) ∧
    fIsNaN (infOf true) = false ∧ Comparable (.string []) (.string [0xFF]) ∧
    Comparable (.boolean false) (.boolean true) ∧ Comparable (.function 0) (.function 0xFFFFFFFF) ∧
    Comparable ((given [(1, .function 3), (2, .function 5)]).reg 1) ((given [(1, .function 3), (2, .function 5)]).reg 2) := by
  rw [show (given [(1, .function 3), (2, .function 5)]).reg 1 = .function 3 by decide +kernel,
    show (given [(1, .function 3), (2, .function 5)]).reg 2 = .function 5 by decide +kernel]
  exact ⟨fun f g hf hg => ⟨hf, hg⟩, by decide +kernel, trivial, trivial, trivial, trivial⟩

theorem witness_NanOrderAndNoOrder :
    let s := numbers 0x7FF8000000000000 fOne
    s.reg 1 = .number 0x7FF8000000000000 ∧ s.reg 2 = .number fOne ∧ fIsNaN 0x7FF8000000000000 = true ∧
    s.cfg.nanOrder = .ieeeFalse ∧ { s.cfg with nanOrder := .fatal }.nanOrder = .fatal ∧
    ¬ Comparable .null .undefined ∧ ¬ (∃ x y, Value.null = .number x ∧ Value.undefined = .number y) := by
  refine ⟨by decide +kernel, by decide +kernel, by decide +kernel, by decide +kernel, rfl, ?_, by simp⟩
  simp [Comparable]

theorem witness_ComparatorIsCoherent :
    vord (.boolean false) (.boolean true) = .less ∧ vord .null .null = .noOrder ∧
    vord (.number (infOf true)) (.number (infOf false)) ≠ .unordered ∧
    vord (.number 0) (.number (zeroOf true)) = .equal ∧ vord (.number (infBits + 1)) (.number 0) = .unordered := by
  decide +kernel

theorem witness_JumpsMoveTheCounter :
    (given [(255, .boolean true)]).reg 255 = .boolean true ∧ (given []).reg 255 ≠ .boolean true := by decide +kernel

theorem witness_CallPushesBothStacks :
    (given [(255, .function 0xFFFFFFFF)]).reg 255 = .function 0xFFFFFFFF ∧ HasRoom 0 (some 1) ∧ ¬ HasRoom 1 (some 1) ∧
    (∀ n, (given []).reg 255 ≠ .function n) := by
  rw [show (given []).reg 255 = .undefined by decide +kernel]
  exact ⟨by decide +kernel, by simp [HasRoom], by simp [HasRoom], by simp⟩

theorem witness_ReturnPopsBothStacks :
    let s := { given [] with callStack := [5], scopes := [[], []] }
    s.callStack = 5 :: [] ∧ s.scopes = [] :: [[]] ∧ (given []).callStack = [] ∧
    { s with scopes := [] }.callStack ≠ [] ∧ { s with scopes := [] }.scopes = [] :=
  ⟨rfl, rfl, rfl, by simp, rfl⟩

theorem witness_NewAggregatesAllocate :
    255 < numRegs ∧ HasRoom (given []).heap.length (given []).cfg.maxHeapCells ∧ HasRoom 0 (some 1) ∧
    ¬ HasRoom 1 (some 1) := ⟨by decide, by simp [HasRoom, given, State.construct, Config.defaults], by simp [HasRoom],
      by simp [HasRoom]⟩

theorem witness_GetPropReadsTheCell :
    accesses.reg 1 = .object 0 ∧ accesses.reg 2 = .string [0x61] ∧
    Heap.cell accesses.heap 0 = some (.obj [([0x61], .null)]) ∧
    Mapping.get [([0x61], .null)] [0x61] = some .null ∧ Mapping.get [([0x61], .null)] [] = none := by decide +kernel

theorem witness_SetPropWritesTheCell :
    accesses.reg 1 = .object 0 ∧ accesses.reg 2 = .string [0x61] ∧
    Heap.cell accesses.heap 0 = some (.obj [([0x61], .null)]) ∧ Mapping.get [([0x61], .null)] [0x61] ≠ none ∧
    Mapping.get [([0x61], .null)] [] = none ∧ HasRoom 1 (some 2) ∧ ¬ HasRoom 1 (some 1) :=
  ⟨by decide +kernel, by decide +kernel, by decide +kernel, by decide, by decide, by simp [HasRoom], by simp [HasRoom]⟩

theorem witness_index_one : IndexNames fOne 1 ∧ IndexNames 0xBFECCCCCCCCCCCCD 0 := by
  rw [← position_iff, ← position_iff]
  decide +kernel

theorem witness_GetElemReadsTheCell :
    accesses.reg 3 = .array 1 ∧ accesses.reg 4 = .number fOne ∧ IndexNames fOne 1 ∧
    Heap.cell accesses.heap 1 = some (.arr [.null, .boolean true]) ∧
    [Value.null, .boolean true][1]? = some (.boolean true) ∧ [Value.null].length ≤ 1 :=
  ⟨by decide +kernel, by decide +kernel, witness_index_one.1, by decide +kernel, rfl, le_refl _⟩

theorem witness_SetElemWritesTheCell :
    accesses.reg 3 = .array 1 ∧ accesses.reg 4 = .number fOne ∧ IndexNames fOne 1 ∧
    Heap.cell accesses.heap 1 = some (.arr [.null, .boolean true]) ∧ 1 < accesses.cfg.maxArrayLen ∧
    { accesses.cfg with maxArrayLen := 1 }.maxArrayLen ≤ 1 :=
  ⟨by decide +kernel, by decide +kernel, witness_index_one.1, by decide +kernel, by decide +kernel, le_refl _⟩

/-- Each side of each check, with `-1` as the index nearest to zero that names no position. -/
theorem witness_AggregateOperandChecks :
    (∀ h, accesses.reg 3 ≠ .object h) ∧ (∀ k, accesses.reg 1 ≠ .string k) ∧ (∀ h, accesses.reg 1 ≠ .array h) ∧
    (∀ f, accesses.reg 2 ≠ .number f) ∧ ¬ (∃ n, IndexNames 0xBFF0000000000000 n) ∧ ¬ (∃ n, IndexNames (infOf false) n) := by
  rw [show accesses.reg 1 = .object 0 by decide +kernel, show accesses.reg 2 = .string [0x61] by decide +kernel,
    show accesses.reg 3 = .array 1 by decide +kernel]
  refine ⟨by simp, by simp, by simp, by simp, ?_, ?_⟩
  · rintro ⟨n, h⟩
    rw [← position_iff, show position 0xBFF0000000000000 = none by decide +kernel] at h
    cases h
  · rintro ⟨n, h⟩
    rw [← position_iff, show position (infOf false) = none by decide +kernel] at h
    cases h

theorem witness_SetPropThenGetPropRoundTrips :
    ∃ t u, accesses.run = .running ∧ exec (.setProp 1 2 3) accesses = .next t ∧ t.run = .running ∧
      exec (.getProp 255 1 2) t = .next u ∧ u.run = .running :=
  ⟨_, _, rfl, eq_stateOf _ (by decide +kernel), by decide +kernel, eq_stateOf _ (by decide +kernel), by decide +kernel⟩

theorem witness_DanglingHandleIsRefused :
    let s := given [(1, .object 0), (2, .string []), (3, .array 0), (4, .number fOne)]
    (∀ m, Heap.cell s.heap 0 ≠ some (.obj m)) ∧ (∀ a, Heap.cell s.heap 0 ≠ some (.arr a)) ∧
    s.reg 1 = .object 0 ∧ s.reg 2 = .string [] ∧ s.reg 3 = .array 0 ∧ s.reg 4 = .number fOne ∧ IndexNames fOne 1 ∧
    1 < s.cfg.maxArrayLen := by
  have h : Heap.cell (given [(1, .object 0), (2, .string []), (3, .array 0), (4, .number fOne)]).heap 0 = none := by
    decide +kernel
  intro s
  exact ⟨by simp [s, h], by simp [s, h], by decide +kernel, by decide +kernel, by decide +kernel, by decide +kernel,
    witness_index_one.1, by decide +kernel⟩

theorem witness_FunctionValuesAndStrictMode :
    255 < numRegs ∧ 0 ≤ { given [] with pc := 2 ^ 32 - 1 }.pc ∧ { given [] with pc := 2 ^ 32 - 1 }.pc < 2 ^ 32 := by
  decide +kernel

theorem witness_GetScopeReadsTheTop :
    let top : Mapping := [([0x34, 0x32], .null)]
    let s := { given [] with scopes := [top] }
    s.scopes = top :: [] ∧ Mapping.get top (scopeKey s.cfg 42) = some .null ∧
    Mapping.get top (scopeKey s.cfg 0xFFFFFFFF) = none ∧ s.cfg.getScopeMiss = .fault ∧
    { s.cfg with getScopeMiss := .undefined }.getScopeMiss = .undefined ∧ { s with scopes := [] }.scopes = [] := by
  decide +kernel

theorem witness_ScopeWritesReachTheTop :
    let top : Mapping := [([0x34, 0x32], .null)]
    let s := { given [] with scopes := [top] }
    s.scopes = top :: [] ∧ Mapping.get top (scopeKey s.cfg 42) ≠ none ∧ Mapping.get top (scopeKey s.cfg 0) = none ∧
    HasRoom top.length (some 2) ∧ ¬ HasRoom top.length (some 1) ∧ { s with scopes := [] }.scopes = [] :=
  ⟨rfl, by decide +kernel, by decide +kernel, by simp [HasRoom], by simp [HasRoom], rfl⟩

theorem witness_ScopeVariablesAreIndependent :
    (given []).run = .running ∧ (0 : U32) ≠ 0xFFFFFFFF ∧
    (∃ t, exec (.setScope 0 255) (given []) = .next t ∧ (t.run == .running) = true) ∧
    ∃ t, exec (.declareVar 0) (given []) = .next t ∧ (t.run == .running) = true :=
  ⟨rfl, by decide, next_of (by decide +kernel), next_of (by decide +kernel)⟩

/-- A register of each of the eight variants. -/
theorem witness_TypeOfWritesTheTypeName :
    let s := given [(1, .null), (2, .boolean false), (3, .number 0), (4, .string []), (5, .object 0), (6, .array 0),
      (7, .function 0)]
    s.reg 0 = .undefined ∧ s.reg 1 = .null ∧ s.reg 2 = .boolean false ∧ s.reg 3 = .number 0 ∧ s.reg 4 = .string [] ∧
    s.reg 5 = .object 0 ∧ s.reg 6 = .array 0 ∧ s.reg 7 = .function 0 := by decide +kernel

theorem witness_InstanceOfTestsTheTagPair : 0 < numRegs ∧ 255 < numRegs := by decide

/-- `2^1025`, `2^-1023` and `2^1`: a power of each range. -/
theorem witness_PowOverflowsAndUnderflows :
    let s := numbers 0x4000000000000000 0x4090040000000000
    s.reg 1 = .number 0x4000000000000000 ∧ s.reg 2 = .number 0x4090040000000000 ∧
    fIsFinite 0x4000000000000000 = true ∧ fIsZero 0x4000000000000000 = false ∧ fIsFinite 0x4090040000000000 = true ∧
    fIsZero 0x4090040000000000 = false ∧ (fSign 0x4000000000000000 = true → IsIntegral 0x4090040000000000) ∧
    (2 : ℝ) ^ 1024 * (1 + 1 / 2 ^ 50) ≤ realPower 0x4000000000000000 0x4090040000000000 ∧
    realPower 0x4000000000000000 0xC08FF80000000000 ≤ (1 / 2 : ℝ) ^ 1022 * (1 - 1 / 2 ^ 49) ∧
    (1 / 2 : ℝ) ^ 1022 ≤ realPower 0x4000000000000000 fOne ∧
    realPower 0x4000000000000000 fOne ≤ (2 : ℝ) ^ 1024 * (1 - 1 / 2 ^ 49) := by
  have hx : 0 < fMagnitude 0x4000000000000000 := by decide +kernel
  have hodd : (oddPart (fMagnitude 0x4000000000000000)).1 = 1 := by decide +kernel
  have p₁ := realPower_integer (y := 0x4090040000000000) hx (by decide +kernel) (.inr hodd)
  have p₂ := realPower_integer (y := 0xC08FF80000000000) hx (by decide +kernel) (.inr hodd)
  have p₃ := realPower_integer (y := fOne) hx (by decide +kernel) (.inr hodd)
  rw [hodd, Nat.cast_one, one_pow, one_mul] at p₁ p₂ p₃
  rw [show powExponent 0x4000000000000000 0x4090040000000000 = 1025 by decide +kernel] at p₁
  rw [show powExponent 0x4000000000000000 0xC08FF80000000000 = -1023 by decide +kernel] at p₂
  rw [show powExponent 0x4000000000000000 fOne = 1 by decide +kernel] at p₃
  have e₁ : (2 : ℝ) ^ (1025 : ℤ) = 2 ^ 1024 * 2 := by
    rw [show (1025 : ℤ) = ((1024 + 1 : ℕ) : ℤ) by norm_num, zpow_natCast, pow_succ]
  have e₂ : (2 : ℝ) ^ (-1023 : ℤ) = (1 / 2) ^ 1022 * (1 / 2) := by
    rw [show (-1023 : ℤ) = -((1022 + 1 : ℕ) : ℤ) by norm_num, zpow_neg, zpow_natCast, ← inv_pow, pow_succ, one_div]
  refine ⟨by decide +kernel, by decide +kernel, by decide +kernel, by decide +kernel, by decide +kernel,
    by decide +kernel, fun h => absurd h (by decide +kernel), ?_, ?_, ?_, ?_⟩
  · rw [p₁, e₁]
    exact mul_le_mul_of_nonneg_left (by norm_num) (pow_nonneg (by norm_num) _)
  · rw [p₂, e₂]
    exact mul_le_mul_of_nonneg_left (by norm_num) (pow_nonneg (by norm_num) _)
  · rw [p₃, zpow_one]
    exact (pow_le_one₀ (by norm_num) (by norm_num)).trans (by norm_num)
  · rw [p₃, zpow_one]
    have h : (1 : ℝ) ≤ 2 ^ 1022 := one_le_pow₀ (by norm_num)
    rw [show (2 : ℝ) ^ 1024 = 2 ^ 1022 * 2 ^ 2 from pow_add 2 1022 2]
    generalize (2 : ℝ) ^ 1022 = w at h
    norm_num
    linarith

theorem witness_RunLoopsUntilHalted :
    started.haltOk.run ≠ .running ∧ started.run = .running ∧ (∃ t, step started = .next t) ∧ HandlesOk started ∧
    (∃ t, RunsTo started t) ∧ ∃ t, RunsTo { started with pc := -1 } t := by
  obtain ⟨t, h, -⟩ := witness_started_steps
  have ends : ∀ s : State, (match runFor 2 s with | .next t => t.run != .running | _ => false) = true → ∃ t, RunsTo s t := by
    intro s hs
    obtain ⟨t, ht, hr⟩ := next_of (p := fun t => t.run != .running) hs
    exact ⟨t, 2, ht, by simpa using hr⟩
  exact ⟨by decide, rfl, ⟨t, h⟩, given_handlesOk_nil, ends _ (by decide +kernel), ends _ (by decide +kernel)⟩

end Sys2Proof.Tests
end

section
/-! PROOFS of 10_state.md: the fetch (R20), the counter after an instruction (R22), the fault record (R29). -/

namespace Sys2Proof.Proofs

open Sys2Proof.Machine

/-! The fetch and the step, one equation per case (10_state.md R20, 30_encoding.md R68) -/

/-- `PROG_LEN` is the normal end, whichever the program form. -/
theorem fetch_at_end {s : State} (h : s.pc = s.prog.length) : fetch s = .endOfProgram := by
  simp [fetch, h]

/-- Inside the program the fetch reads it. -/
theorem fetch_inside {s : State} (h0 : 0 ≤ s.pc) (h1 : s.pc < s.prog.length) : fetch s = s.prog.at s.pc.toNat := by
  rw [fetch, if_neg (by omega), if_neg (by omega)]

/-- A program holds nothing beyond its length. -/
theorem program_at_beyond {p : Program} {n : Nat} (h : p.length ≤ n) : p.at n = .outOfRange := by
  cases p with
  | abstractForm code =>
    have hn : code[n]? = none := List.getElem?_eq_none h
    simp [Program.at, hn]
  | wordForm words =>
    have hn : words[n]? = none := List.getElem?_eq_none h
    simp [Program.at, hn]

/-- Below 0 and above `PROG_LEN` the counter is out of range. -/
theorem fetch_outside {s : State} (h : s.pc < 0 ∨ s.prog.length < s.pc) : fetch s = .outOfRange := by
  rw [fetch, if_neg (by omega)]
  split
  · rfl
  · exact program_at_beyond (by omega)

theorem program_at_abstract {code : List Instr} {n : Nat} {i : Instr} (h : code[n]? = some i) :
    (Program.abstractForm code).at n = .instruction i := by
  simp [Program.at, h]

theorem program_at_legal {words : List Word} {n : Nat} {w : Word} {i : Instr} (h : words[n]? = some w)
    (hd : decode w = .ok i) : (Program.wordForm words).at n = .instruction i := by
  simp [Program.at, h, hd]

theorem program_at_illegal {words : List Word} {n : Nat} {w : Word} {e : Illegal} (h : words[n]? = some w)
    (hd : decode w = .error e) : (Program.wordForm words).at n = .illegal e := by
  simp [Program.at, h, hd]

theorem step_endOfProgram {s : State} (hr : s.run = .running) (hf : fetch s = .endOfProgram) :
    step s = .next s.haltOk := by
  simp [step, hr, hf]

theorem step_outOfRange {s : State} (hr : s.run = .running) (hf : fetch s = .outOfRange) :
    step s = raise .pcOutOfRange s := by
  simp [step, hr, hf]

theorem step_illegal {s : State} {e : Illegal} (hr : s.run = .running) (hf : fetch s = .illegal e) :
    step s = raise .illegalInstruction s := by
  simp [step, hr, hf]

theorem step_instruction {s : State} {i : Instr} (hr : s.run = .running) (hf : fetch s = .instruction i) :
    step s = exec i s := by
  simp [step, hr, hf]

/-- Settles O6: each of the three ranges of the counter decides the fetch, and the fetch decides the step. -/
theorem fetchFollowsTheCounter : Obligations.FetchFollowsTheCounter := by
  intro s hr
  refine ⟨fun h => step_endOfProgram hr (fetch_at_end h), fun h => step_outOfRange hr (fetch_outside h),
    fun h0 h1 => ?_⟩
  have hf := fetch_inside h0 h1
  have hn : s.pc.toNat < s.prog.length := by omega
  split
  · rename_i code hp
    rw [hp] at hf hn
    have hi : code[s.pc.toNat]? = some code[s.pc.toNat] := List.getElem?_eq_getElem hn
    exact ⟨_, hi, step_instruction hr (hf.trans (program_at_abstract hi))⟩
  · rename_i words hp
    rw [hp] at hf hn
    have hw : words[s.pc.toNat]? = some words[s.pc.toNat] := List.getElem?_eq_getElem hn
    refine ⟨_, hw, ?_⟩
    cases hd : decode words[s.pc.toNat] with
    | ok i => exact .inl ⟨i, rfl, step_instruction hr (hf.trans (program_at_legal hw hd))⟩
    | error e => exact .inr ⟨⟨e, rfl⟩, step_illegal hr (hf.trans (program_at_illegal hw hd))⟩

/-! The counter after an instruction (10_state.md R22) -/

/-- If the result is a state that is still running, its counter satisfies `P`. -/
def EndsAt (P : Int → Prop) (res : Result) : Prop := ∀ t, res = .next t → t.run = .running → P t.pc

section EndsAt
variable {P : Int → Prop} {s : State}

theorem endsAt_next (h : P s.pc) : EndsAt P (.next s) := by
  intro t ht _
  rwa [next_inj ht]

/-- A fatal condition ends the run, so it claims nothing of the counter. -/
theorem not_running_enterFatal {c : Cause} : (s.enterFatal c).run ≠ .running := by simp

theorem endsAt_raise {c : Cause} : EndsAt P (raise c s) := by
  intro t ht hrun
  rw [raise_next] at ht
  exact absurd (ht ▸ hrun) not_running_enterFatal

theorem endsAt_withRegisters {used : List Nat} {k : Result} (hk : EndsAt P k) : EndsAt P (withRegisters used s k) := by
  intro t ht hrun
  rcases withRegisters_next ht with ⟨-, h⟩ | rfl
  · exact hk t h hrun
  · exact absurd hrun not_running_enterFatal

theorem endsAt_withObjectKey {obj key : Nat} {k : Nat → Str → Result} (hk : ∀ h u, EndsAt P (k h u)) :
    EndsAt P (withObjectKey s obj key k) := by
  intro t ht hrun
  rcases withObjectKey_next ht with ⟨h, u, -, -, hn⟩ | rfl
  · exact hk h u t hn hrun
  · exact absurd hrun not_running_enterFatal

theorem endsAt_withArrayPosition {arr idx : Nat} {k : Nat → Nat → Result} (hk : ∀ h p, EndsAt P (k h p)) :
    EndsAt P (withArrayPosition s arr idx k) := by
  intro t ht hrun
  rcases withArrayPosition_next ht with ⟨h, f, p, -, -, -, hn⟩ | rfl | rfl
  · exact hk h p t hn hrun
  · exact absurd hrun not_running_enterFatal
  · exact absurd hrun not_running_enterFatal

theorem endsAt_withObject {h : Nat} {k : Mapping → Result} (hk : ∀ m, EndsAt P (k m)) :
    EndsAt P (withObject s h k) := by
  intro t ht hrun
  obtain ⟨m, -, hn⟩ := withObject_next ht
  exact hk m t hn hrun

theorem endsAt_withArray {h : Nat} {k : List Value → Result} (hk : ∀ a, EndsAt P (k a)) :
    EndsAt P (withArray s h k) := by
  intro t ht hrun
  obtain ⟨a, -, hn⟩ := withArray_next ht
  exact hk a t hn hrun

theorem endsAt_withTopScope {k : Mapping → List Mapping → Result} (hk : ∀ top below, EndsAt P (k top below)) :
    EndsAt P (withTopScope s k) := by
  intro t ht hrun
  rcases withTopScope_next ht with ⟨top, below, -, hn⟩ | rfl
  · exact hk top below t hn hrun
  · exact absurd hrun not_running_enterFatal

end EndsAt

/-- The result of an instruction that does not set `pc` itself (10_state.md R21). -/
abbrev Advances (s : State) (res : Result) : Prop := EndsAt (fun pc' => pc' = s.pc + 1) res

/-- An update that leaves the counter alone, followed by the increment. -/
theorem advances_next {s t : State} (h : t.pc = s.pc) : Advances s (.next t.advance) :=
  endsAt_next (by rw [advance_pc, h])

@[simp] theorem writeFloat_pc (s : State) (dst : Nat) (r : FloatResult) : (s.writeFloat dst r).pc = s.pc := by
  cases r <;> rfl

theorem advances_binaryArith (op : F64 → F64 → FloatResult) (dst a b : Nat) (s : State) :
    Advances s (binaryArith op dst a b s) := by
  intro t ht hrun
  rcases binaryArith_next ht with ⟨c, rfl⟩ | ⟨-, r, rfl⟩
  · exact absurd hrun not_running_enterFatal
  · simp

theorem advances_ordered (holds : ValueOrder → Bool) (a b : Nat) (s : State) : Advances s (ordered holds a b s) := by
  refine endsAt_withRegisters ?_
  split
  · exact endsAt_raise
  · split
    · exact endsAt_raise
    · exact advances_next rfl
  · exact advances_next rfl

theorem advances_newAggregate (c : HeapCell) (make : Nat → Value) (dst : Nat) (s : State) :
    Advances s (newAggregate c make dst s) := by
  refine endsAt_withRegisters ?_
  split
  · rename_i h t ha
    obtain ⟨-, -, rfl⟩ := alloc_some ha
    exact advances_next rfl
  · exact endsAt_raise

theorem advances_writeScope (var : U32) (v : Value) (s : State) : Advances s (writeScope var v s) := by
  refine endsAt_withTopScope fun top below => ?_
  split
  · exact advances_next rfl
  · exact endsAt_raise

/-- The table of 10_state.md R22, instruction by instruction. -/
theorem exec_endsAt (i : Instr) (s : State) : EndsAt (PcAfter i s) (exec i s) := by
  cases i with
  | loadConst dst k =>
    refine endsAt_withRegisters ?_
    split
    · exact advances_next rfl
    · exact endsAt_raise
  | loadUndef dst => exact endsAt_withRegisters (advances_next rfl)
  | loadNull dst => exact endsAt_withRegisters (advances_next rfl)
  | loadBool dst b => exact endsAt_withRegisters (advances_next rfl)
  | move dst src => exact endsAt_withRegisters (advances_next rfl)
  | add dst a b => exact advances_binaryArith fadd dst a b s
  | sub dst a b => exact advances_binaryArith fsub dst a b s
  | mul dst a b => exact advances_binaryArith fmul dst a b s
  | div dst a b => exact advances_binaryArith fdiv dst a b s
  | mod dst a b => exact advances_binaryArith fmod dst a b s
  | pow dst a b => exact advances_binaryArith fpow dst a b s
  | neg dst src =>
    refine endsAt_withRegisters ?_
    split
    · exact advances_next rfl
    · exact endsAt_raise
  | eq a b => exact endsAt_withRegisters (advances_next rfl)
  | lt a b => exact advances_ordered _ a b s
  | le a b => exact advances_ordered _ a b s
  | jmp off => exact endsAt_next rfl
  | jmpIf cond off =>
    refine endsAt_withRegisters ?_
    split
    · rename_i hc
      exact endsAt_next (.inl ⟨hc, rfl⟩)
    · rename_i hc
      exact endsAt_next (.inr ⟨hc, rfl⟩)
  | call func argc =>
    refine endsAt_withRegisters ?_
    split
    · rename_i n hf
      split
      · exact endsAt_next ⟨n, hf, rfl⟩
      · exact endsAt_raise
    · exact endsAt_raise
  | ret start count =>
    simp only [exec, execReturn]
    split
    · exact endsAt_raise
    · rename_i saved calls hc
      split
      · exact endsAt_raise
      · exact endsAt_next (by simp [PcAfter, hc])
  | newObject dst => exact advances_newAggregate _ _ dst s
  | newArray dst => exact advances_newAggregate _ _ dst s
  | getProp dst obj key =>
    exact endsAt_withRegisters <| endsAt_withObjectKey fun _ _ => endsAt_withObject fun _ => advances_next rfl
  | setProp obj key val =>
    refine endsAt_withRegisters <| endsAt_withObjectKey fun _ _ => endsAt_withObject fun _ => ?_
    split
    · exact advances_next rfl
    · exact endsAt_raise
  | getElem dst arr idx =>
    exact endsAt_withRegisters <| endsAt_withArrayPosition fun _ _ => endsAt_withArray fun _ => advances_next rfl
  | setElem arr idx val =>
    refine endsAt_withRegisters <| endsAt_withArrayPosition fun _ _ => ?_
    split
    · exact endsAt_withArray fun _ => advances_next rfl
    · exact endsAt_raise
  | closure dst target => exact endsAt_withRegisters (advances_next rfl)
  | getScope dst var =>
    refine endsAt_withRegisters <| endsAt_withTopScope fun _ _ => ?_
    split
    · exact advances_next rfl
    · split
      · exact endsAt_raise
      · exact advances_next rfl
  | setScope var src => exact endsAt_withRegisters (advances_writeScope var _ s)
  | typeOf dst src => exact endsAt_withRegisters (advances_next rfl)
  | instanceOf dst obj ctor => exact endsAt_withRegisters (advances_next rfl)
  | declareFunc dst => exact endsAt_withRegisters (advances_next rfl)
  | declareVar var => exact advances_writeScope var _ s
  | useStrict => exact advances_next rfl

/-- Settles O10: `exec_endsAt`, which does not need the state before to be running. -/
theorem counterAfterEveryInstruction : Obligations.CounterAfterEveryInstruction :=
  fun i s t _ h hrun => exec_endsAt i s t h hrun

/-! The fault record (10_state.md R29) -/

/-- Only a fatal condition writes the fault record or the run state (60_exceptions.md R181). -/
theorem effect_fatal_or_keeps_record {s t : State} (h : Effect s t) :
    (∃ c, t = s.enterFatal c) ∨ (t.run = s.run ∧ t.faultCause = s.faultCause ∧ t.faultPc = s.faultPc) := by
  cases h with
  | fatal c => exact .inl ⟨c, rfl⟩
  | _ => exact .inr ⟨rfl, rfl, rfl⟩

/-- Entry to `halted_fault` makes the record honest, whatever it held before. -/
theorem faultRecordOk_enterFatal (s : State) (c : Cause) : FaultRecordOk (s.enterFatal c) :=
  ⟨fun h => absurd rfl h, fun _ => ⟨⟨c, rfl⟩, rfl⟩⟩

/-- Outside `halted_fault` the invariant says that both registers are 0. -/
theorem faultRecordOk_of_zero {s : State} (hr : s.run ≠ .haltedFault) (hc : s.faultCause = 0) (hp : s.faultPc = 0) :
    FaultRecordOk s :=
  ⟨fun _ => ⟨hc, hp⟩, fun h => absurd h hr⟩

theorem step_keeps_faultRecordOk {s t : State} (hs : FaultRecordOk s) (h : step s = .next t) : FaultRecordOk t := by
  obtain ⟨hrun, hstep⟩ := step_effect h
  obtain ⟨hcause, hpc⟩ := hs.1 (by simp [hrun])
  rcases hstep with ⟨-, rfl⟩ | ⟨c, rfl⟩ | ⟨i, -, -, heffect⟩
  · exact faultRecordOk_of_zero (by simp) hcause hpc
  · exact faultRecordOk_enterFatal s c
  · rcases effect_fatal_or_keeps_record heffect with ⟨c, rfl⟩ | ⟨hrun', hcause', hpc'⟩
    · exact faultRecordOk_enterFatal s c
    · exact faultRecordOk_of_zero (by simp [hrun', hrun]) (hcause'.trans hcause) (hpc'.trans hpc)

/-- Settles O15: construction leaves the record 0, and every step keeps the invariant. -/
theorem faultRecordStaysHonest : Obligations.FaultRecordStaysHonest :=
  ⟨fun _ _ _ _ => faultRecordOk_of_zero (by simp [State.construct]) rfl rfl, fun _ _ => step_keeps_faultRecordOk⟩

end Sys2Proof.Proofs
end

section
/-! PROOFS of 41_arithmetic.md: the operand check (R92). -/

namespace Sys2Proof.Proofs

open Sys2Proof.Machine

section OperandCheck
variable {s : State} {dst a b : Nat}

/-- An instruction that raises `TypeMismatchArith` traps with its cause code (60_exceptions.md R181, R182). -/
theorem traps_of_typeMismatchArith {i : Instr} (h : exec i s = raise .typeMismatchArith s) : Traps i s 0x01 := h

/-- The operand check comes before the operation, so it does not matter which one is asked for. -/
theorem binaryArith_mismatch (op : F64 → F64 → FloatResult) (hd : dst < numRegs) (ha : a < numRegs) (hb : b < numRegs)
    (h : (∀ x, s.reg a ≠ .number x) ∨ (∀ y, s.reg b ≠ .number y)) :
    binaryArith op dst a b s = raise .typeMismatchArith s := by
  rw [binaryArith, withRegisters_ok (by simp [hd, ha, hb]), withNumbers_mismatch h]

theorem execNeg_mismatch (hd : dst < numRegs) (ha : a < numRegs) (h : ∀ x, s.reg a ≠ .number x) :
    execNeg dst a s = raise .typeMismatchArith s := by
  rw [execNeg, withRegisters_ok (by simp [hd, ha])]
  split
  · next x hx => exact absurd hx (h x)
  · rfl

end OperandCheck

/-- Settles O36: the six binary instructions are `binaryArith` of their operation, and `Neg` makes the check itself. -/
theorem arithmeticNeedsNumbers : Obligations.ArithmeticNeedsNumbers := by
  intro s dst a b hd ha hb
  refine ⟨fun hmismatch => ?_, fun hmismatch => traps_of_typeMismatchArith (execNeg_mismatch hd ha hmismatch)⟩
  have hraise (op : F64 → F64 → FloatResult) : binaryArith op dst a b s = raise .typeMismatchArith s :=
    binaryArith_mismatch op hd ha hb hmismatch
  exact ⟨traps_of_typeMismatchArith (hraise fadd), traps_of_typeMismatchArith (hraise fsub),
    traps_of_typeMismatchArith (hraise fmul), traps_of_typeMismatchArith (hraise fdiv),
    traps_of_typeMismatchArith (hraise fmod), traps_of_typeMismatchArith (hraise fpow)⟩

end Sys2Proof.Proofs
end

section
/-! PROOFS of 42_compare.md: value equality (R105), NaN pairs and pairs without an order (R116). -/

namespace Sys2Proof.Proofs

open Sys2Proof.Machine

/-! The comparator, one equation or `↔` per function (42_compare.md R105, R107) -/

theorem intOrder_eq_equal_iff {x y : Int} : intOrder x y = .equal ↔ x = y := by
  unfold intOrder
  split
  · next hlt => simp [hlt.ne]
  · split
    · next heq => simp [heq]
    · next hne => simp [hne]

/-- A binary64 is a NaN, an infinity or finite. -/
theorem fIsFinite_iff {f : F64} : fIsFinite f = true ↔ fIsNaN f = false ∧ fIsInf f = false := by
  by_cases hb : fBiased f = 2047
  · by_cases hf : fFraction f = 0 <;> simp [fIsFinite, fIsNaN, fIsInf, hb, hf]
  · simp [fIsFinite, fIsNaN, fIsInf, hb]

theorem not_finite_of_inf {f : F64} (h : fIsInf f = true) : ¬ fIsFinite f = true := by
  simp [fIsFinite_iff, h]

theorem numberOrder_of_nan {f g : F64} (h : fIsNaN f = true ∨ fIsNaN g = true) : numberOrder f g = .unordered := by
  rw [numberOrder, if_pos (by simpa using h)]

/-- IEEE-754 equality: the order answers `Equal` on equal bits and on equal finite real values. Different Numbers of which
one is an infinity are never `Equal`, whatever their signs. -/
theorem numberOrder_eq_equal_iff {f g : F64} :
    numberOrder f g = .equal ↔ SameValue (.number f) (.number g) := by
  simp only [numberOrder, SameValue]
  split
  · next hnan =>
    rcases (by simpa using hnan : fIsNaN f = true ∨ fIsNaN g = true) with h | h <;> simp [h]
  · next hnan =>
    obtain ⟨hf, hg⟩ : fIsNaN f = false ∧ fIsNaN g = false := by simpa using hnan
    split
    · next heq => simp [hg, heq]
    · next hne =>
      split
      · next hinf => split <;> simp [hne, not_finite_of_inf hinf]
      · next hfin =>
        split
        · next hinf => split <;> simp [hne, not_finite_of_inf hinf]
        · next hgin =>
          have hfFinite : fIsFinite f = true := fIsFinite_iff.mpr ⟨hf, by simpa using hfin⟩
          have hgFinite : fIsFinite g = true := fIsFinite_iff.mpr ⟨hg, by simpa using hgin⟩
          simp [intOrder_eq_equal_iff, hf, hg, hne, hfFinite, hgFinite]

theorem veq_iff_sameValue (v w : Value) : veq v w = true ↔ SameValue v w := by
  cases v with
  | number f =>
    cases w with
    | number g => exact beq_iff_eq.trans numberOrder_eq_equal_iff
    | _ => simp [veq, SameValue]
  | _ => cases w <;> simp [veq, SameValue]

/-- Outside Number pairs, a pair that is not comparable has no order. -/
theorem vord_eq_noOrder {v w : Value} (hnum : ¬ ∃ x y, v = .number x ∧ w = .number y) (hcmp : ¬ Comparable v w) :
    vord v w = .noOrder := by
  unfold vord
  split
  · exact absurd ⟨_, _, rfl, rfl⟩ hnum
  · exact absurd trivial hcmp
  · exact absurd trivial hcmp
  · exact absurd trivial hcmp
  · rfl

/-! The instructions, one equation per case (42_compare.md R112, R116) -/

section Comparisons
variable {s : State} {a b : Nat}

theorem exec_eq (ha : a < numRegs) (hb : b < numRegs) :
    exec (.eq a b) s = .next (s.writeAccumulator (veq (s.reg a) (s.reg b))).advance :=
  withRegisters_ok (by simp [ha, hb])

theorem ordered_noOrder (holds : ValueOrder → Bool) (ha : a < numRegs) (hb : b < numRegs)
    (h : vord (s.reg a) (s.reg b) = .noOrder) : ordered holds a b s = raise .noOrder s := by
  rw [ordered, withRegisters_ok (by simp [ha, hb]), h]

theorem ordered_unordered_fatal (holds : ValueOrder → Bool) (ha : a < numRegs) (hb : b < numRegs)
    (h : vord (s.reg a) (s.reg b) = .unordered) (hcfg : s.cfg.nanOrder = .fatal) :
    ordered holds a b s = raise .noOrder s := by
  rw [ordered, withRegisters_ok (by simp [ha, hb]), h]
  simp only [hcfg]

theorem ordered_unordered_ieeeFalse (holds : ValueOrder → Bool) (ha : a < numRegs) (hb : b < numRegs)
    (h : vord (s.reg a) (s.reg b) = .unordered) (hcfg : s.cfg.nanOrder = .ieeeFalse) :
    ordered holds a b s = .next (s.writeAccumulator false).advance := by
  rw [ordered, withRegisters_ok (by simp [ha, hb]), h]
  simp only [hcfg]

/-- `Lt` and `Le` are `ordered` of two tests, so what it does for every test both of them do. -/
theorem lt_le_trap (h : ∀ holds, ordered holds a b s = raise .noOrder s) :
    Traps (.lt a b) s 0x04 ∧ Traps (.le a b) s 0x04 :=
  ⟨h _, h _⟩

theorem lt_le_write {e : Bool} (h : ∀ holds, ordered holds a b s = .next (s.writeAccumulator e).advance) :
    WritesValue (.lt a b) s 0 (.boolean e) ∧ WritesValue (.le a b) s 0 (.boolean e) :=
  ⟨h _, h _⟩

end Comparisons

/-- Settles O37: `Eq` writes `veq`, which is the equality of R105. -/
theorem eqWritesValueEquality : Obligations.EqWritesValueEquality :=
  fun s a b ha hb => ⟨veq (s.reg a) (s.reg b), exec_eq ha hb, veq_iff_sameValue _ _⟩

/-- Settles O39: a NaN makes the pair `Unordered`, any other pair that is not comparable has no order, and `ordered` does
not ask its test about either. -/
theorem nanOrderAndNoOrder : Obligations.NanOrderAndNoOrder := by
  refine ⟨rfl, fun s a b ha hb => ⟨fun x y hx hy hnan => ?_, fun hnum hcmp => ?_⟩⟩
  · have hord : vord (s.reg a) (s.reg b) = .unordered := by
      rw [hx, hy]
      exact numberOrder_of_nan hnan
    exact ⟨hord, fun hcfg => lt_le_write fun holds => ordered_unordered_ieeeFalse holds ha hb hord hcfg,
      fun hcfg => lt_le_trap fun holds => ordered_unordered_fatal holds ha hb hord hcfg⟩
  · exact lt_le_trap fun holds => ordered_noOrder holds ha hb (vord_eq_noOrder hnum hcmp)

end Sys2Proof.Proofs
end

section
/-! PROOFS of 60_exceptions.md: entry to a fatal condition (R181), the range of the constant pool (R186). -/

namespace Sys2Proof.Proofs

open Sys2Proof.Machine

/-! Entry to a fatal condition (60_exceptions.md R181) -/

/-- A step that ends in `halted_fault` did nothing but enter a fatal condition: the normal end of the run halts otherwise,
and an instruction that raises nothing leaves the run state as it was. -/
theorem step_haltedFault {s t : State} (h : step s = .next t) (ht : t.run = .haltedFault) : ∃ c, t = s.enterFatal c := by
  obtain ⟨hrun, ⟨-, rfl⟩ | hfatal | ⟨i, -, -, heffect⟩⟩ := step_effect h
  · rw [haltOk_run] at ht
    cases ht
  · exact hfatal
  · rcases effect_fatal_or_keeps_record heffect with hfatal | ⟨hkept, -, -⟩
    · exact hfatal
    · rw [hkept, hrun] at ht
      cases ht

/-- Settles O8: what `step_haltedFault` finds is R181's write of the cause, the counter and the run state. -/
theorem fatalConditionsArePrecise : Obligations.FatalConditionsArePrecise :=
  fun _ _ => step_haltedFault

/-! The range of the constant pool (60_exceptions.md R186, 40_load_move.md R80) -/

section LoadConst
variable {s : State} {dst : Nat} {k : U32}

theorem exec_loadConst_inside {v : Value} (hd : dst < numRegs) (hv : s.pool[k.toNat]? = some v) :
    exec (.loadConst dst k) s = .next (s.setReg dst v).advance := by
  rw [exec, execLoadConst, withRegisters_ok (by simp [hd]), hv]

theorem exec_loadConst_beyond (hd : dst < numRegs) (hk : s.pool.length ≤ k.toNat) :
    exec (.loadConst dst k) s = raise .poolIndexOutOfRange s := by
  rw [exec, execLoadConst, withRegisters_ok (by simp [hd]), List.getElem?_eq_none hk]

end LoadConst

/-- Settles O28: `LoadConst` on the two sides of `POOL_LEN`. -/
theorem loadConstReadsThePool : Obligations.LoadConstReadsThePool :=
  fun _ _ _ hd => ⟨fun _ hv => exec_loadConst_inside hd hv, fun hk => exec_loadConst_beyond hd hk⟩

end Sys2Proof.Proofs
end

section
/-! PROOFS of 70_reset_and_hazards.md: the values that construction leaves (R210, R211). -/

namespace Sys2Proof.Proofs

open Sys2Proof.Machine

/-! `NEXT_HANDLE` at construction (70_reset_and_hazards.md R211): one more than the largest handle of `HEAP0` -/

@[simp] theorem handleBound_nil : handleBound [] = 0 := rfl

@[simp] theorem handleBound_cons (p : Nat × HeapCell) (rest : Heap) :
    handleBound (p :: rest) = max (p.1 + 1) (handleBound rest) := rfl

/-- Every handle of the heap is below the bound. -/
theorem handle_lt_handleBound {heap : Heap} {p : Nat × HeapCell} (hp : p ∈ heap) : p.1 < handleBound heap := by
  induction heap with
  | nil => cases hp
  | cons q rest ih =>
    rw [handleBound_cons]
    rcases List.mem_cons.mp hp with rfl | hrest
    · exact lt_max_of_lt_left p.1.lt_succ_self
    · exact lt_max_of_lt_right (ih hrest)

/-- The bound is tight: in a heap that is not empty, a cell attains it. -/
theorem exists_handleBound_eq {heap : Heap} (hne : heap ≠ []) : ∃ p ∈ heap, handleBound heap = p.1 + 1 := by
  induction heap with
  | nil => exact absurd rfl hne
  | cons q rest ih =>
    rw [handleBound_cons]
    rcases le_or_gt (handleBound rest) (q.1 + 1) with hle | hgt
    · exact ⟨q, List.mem_cons_self, max_eq_left hle⟩
    · have hrest : rest ≠ [] := by
        rintro rfl
        exact absurd hgt (Nat.not_lt_zero _)
      obtain ⟨p, hp, heq⟩ := ih hrest
      exact ⟨p, List.mem_cons_of_mem q hp, (max_eq_right hgt.le).trans heq⟩

section Construct
variable (prog : Program) (pool : List Value) (heap0 : Heap) (cfg : Config)

/-- Each of the 256 slots is there and holds `Undefined` (70_reset_and_hazards.md R210). -/
theorem construct_regs_getElem? {r : Nat} (hr : r < numRegs) :
    (State.construct prog pool heap0 cfg).regs[r]? = some .undefined := by
  simp [State.construct, hr]

theorem construct_reg {r : Nat} (hr : r < numRegs) : (State.construct prog pool heap0 cfg).reg r = .undefined := by
  rw [State.reg, construct_regs_getElem? prog pool heap0 cfg hr, Option.getD_some]

theorem construct_nextHandle : (State.construct prog pool heap0 cfg).nextHandle = handleBound heap0 := rfl

end Construct

/-- Settles O19: the registers by `construct_reg`, `NEXT_HANDLE` by the two laws of `handleBound`; every other piece of
state is the value that construction names. -/
theorem constructionValues : Obligations.ConstructionValues := by
  intro prog pool heap0 cfg
  have hregs : ∀ r < numRegs, (State.construct prog pool heap0 cfg).reg r = .undefined :=
    fun _ hr => construct_reg prog pool heap0 cfg hr
  refine ⟨hregs, rfl, rfl, rfl, rfl, rfl, rfl, rfl, rfl, rfl, rfl, ?_⟩
  rw [construct_nextHandle]
  exact ⟨fun _ => handle_lt_handleBound, fun hnil => hnil ▸ handleBound_nil, exists_handleBound_eq⟩

end Sys2Proof.Proofs
end

section
/-! PROOFS of 30_encoding.md: decoder and encoder are each other's inverse (section 4), the opcode table (section 3). -/

namespace Sys2Proof.Proofs

open Sys2Proof.Machine

/-! Fields and operands (30_encoding.md R63, R65) -/

theorem byte_lt (b : Byte) : b.toNat < numRegs := b.isLt

@[simp] theorem regField_toNat (b : Byte) : regField b.toNat = b := by simp [regField]

theorem wellFormed_iff {i : Instr} : i.wellFormed = true ↔ ∀ r ∈ i.registerFields, r < numRegs := by
  simp [Instr.wellFormed]

/-- A word is the assembly of whatever its fields are. -/
theorem assemble_eq {w : Word} {op a b c : Byte} {imm : U32} (hop : (fieldOp w).toNat = op.toNat) (ha : a = fieldA w)
    (hb : b = fieldB w) (hc : c = fieldC w) (himm : imm = fieldImm w) : assemble op a b c imm = w := by
  rw [← BitVec.eq_of_toNat_eq hop, ha, hb, hc, himm, assemble_fields]

/-- The field of a Boolean operand, read and written back (30_encoding.md R65, R67). -/
theorem boolField_toNat {b : Byte} (h : b.toNat ≤ 1) : (if b.toNat = 1 then 1#8 else 0#8) = b := by
  apply BitVec.eq_of_toNat_eq
  split <;> simp <;> omega

/-! The round trip (30_encoding.md section 4) -/

/-- Each row of the decoder fixes the opcode and the reserved fields and reads every other field into an operand, so the
encoder puts all five fields back. -/
theorem encode_decode {w : Word} {i : Instr} (h : decode w = .ok i) : i.wellFormed = true ∧ encode i = w := by
  unfold decode at h
  dsimp only at h
  split at h
  case h_34 => cases h
  all_goals
    rename_i hop
    obtain ⟨hz, rfl⟩ := ifReservedZero_ok h
    simp only [Bool.and_eq_true, beq_iff_eq, decide_eq_true_eq] at hz
    refine ⟨wellFormed_iff.mpr (by simp [Instr.registerFields, byte_lt]), assemble_eq hop ?_ ?_ ?_ ?_⟩
    all_goals simp [hz, boolField_toNat]

/-- The encoder writes the opcode of the row and zeros in its reserved fields, and an operand within its width survives
its field. -/
theorem decode_encode {i : Instr} (h : i.wellFormed = true) : decode (encode i) = .ok i := by
  rw [wellFormed_iff] at h
  cases i
  case loadBool dst b =>
    have hd : dst < numRegs := h dst (by simp [Instr.registerFields])
    cases b <;> simp [encode, decode, hd, ifReservedZero]
  all_goals
    simp only [Instr.registerFields, List.forall_mem_cons, List.not_mem_nil, false_imp_iff, implies_true, and_true] at h
    simp [encode, decode, h, ifReservedZero]

/-! The opcode table (30_encoding.md R66): masks act field by field -/

@[simp] theorem fieldOp_and (w m : Word) : fieldOp (w &&& m) = fieldOp w &&& fieldOp m := BitVec.extractLsb'_and
@[simp] theorem fieldA_and (w m : Word) : fieldA (w &&& m) = fieldA w &&& fieldA m := BitVec.extractLsb'_and
@[simp] theorem fieldB_and (w m : Word) : fieldB (w &&& m) = fieldB w &&& fieldB m := BitVec.extractLsb'_and
@[simp] theorem fieldC_and (w m : Word) : fieldC (w &&& m) = fieldC w &&& fieldC m := BitVec.extractLsb'_and
@[simp] theorem fieldImm_and (w m : Word) : fieldImm (w &&& m) = fieldImm w &&& fieldImm m := BitVec.extractLsb'_and

/-- Two words with the same five fields are the same. -/
theorem eq_iff_fields {w v : Word} :
    w = v ↔ fieldOp w = fieldOp v ∧ fieldA w = fieldA v ∧ fieldB w = fieldB v ∧ fieldC w = fieldC v ∧
      fieldImm w = fieldImm v := by
  refine ⟨by rintro rfl; simp, fun ⟨hop, ha, hb, hc, himm⟩ => ?_⟩
  rw [← assemble_fields w, hop, ha, hb, hc, himm, assemble_fields]

/-- `LoadBool` reserves the upper seven bits of its Boolean field (30_encoding.md R67). -/
theorem boolMask_field (b : Bool) : (if b then 1#8 else 0#8) &&& 0xFE#8 = 0#8 := by cases b <;> rfl

@[simp] theorem and_byteMask (b : Byte) : b &&& 255#8 = b := BitVec.and_allOnes

@[simp] theorem and_immMask (imm : U32) : imm &&& 4294967295#32 = imm := BitVec.and_allOnes

theorem toNat_le_one_of_boolMask : ∀ b : Byte, b &&& 0xFE#8 = 0#8 → b.toNat ≤ 1 := by decide

/-- The word of an instruction matches the row of its mnemonic. -/
theorem encode_matches (i : Instr) :
    ∃ row ∈ opcodeTable, row.mnemonic = i.mnemonic ∧ encode i &&& row.mask = row.pattern := by
  have hrow : ∃ row, opcodeTable[(Laws.EncodesItsOpcode.opcodeOf i).toNat - 1]? = some row ∧
      row.mnemonic = i.mnemonic ∧ encode i &&& row.mask = row.pattern := by
    cases i
    all_goals
      refine ⟨_, rfl, rfl, ?_⟩
      rw [eq_iff_fields]
      simp only [encode, fieldOp_and, fieldA_and, fieldB_and, fieldC_and, fieldImm_and, fieldOp_assemble,
        fieldA_assemble, fieldB_assemble, fieldC_assemble, fieldImm_assemble]
      simp [fieldOp, fieldA, fieldB, fieldC, fieldImm, boolMask_field]
  obtain ⟨row, hget, h⟩ := hrow
  exact ⟨row, List.mem_of_getElem? hget, h⟩

theorem row_eq_of_mnemonic : ∀ row ∈ opcodeTable, ∀ row' ∈ opcodeTable, row.mnemonic = row'.mnemonic → row = row' := by
  decide

theorem fieldOp_mask : ∀ row ∈ opcodeTable, fieldOp row.mask = BitVec.allOnes 8 := by decide

theorem row_eq_of_opcode :
    ∀ row ∈ opcodeTable, ∀ row' ∈ opcodeTable, fieldOp row.pattern = fieldOp row'.pattern → row = row' := by decide

/-- Every mask covers the opcode, and no two rows share one, so a word matches one row at most. -/
theorem row_unique {w : Word} {row row' : OpcodeRow} (hrow : row ∈ opcodeTable) (hrow' : row' ∈ opcodeTable)
    (h : w &&& row.mask = row.pattern) (h' : w &&& row'.mask = row'.pattern) : row = row' := by
  refine row_eq_of_opcode row hrow row' hrow' ?_
  rw [← h, ← h', fieldOp_and, fieldOp_and, fieldOp_mask row hrow, fieldOp_mask row' hrow']

/-- A word that matches a row has the opcode of the row and zeros in its reserved fields: it is legal. -/
theorem legal_of_matches {w : Word} {row : OpcodeRow} (hrow : row ∈ opcodeTable) (h : w &&& row.mask = row.pattern) :
    ∃ i, decode w = .ok i := by
  rw [eq_iff_fields] at h
  simp only [fieldOp_and, fieldA_and, fieldB_and, fieldC_and, fieldImm_and] at h
  unfold decode ifReservedZero
  generalize fieldOp w = op, fieldA w = a, fieldB w = b, fieldC w = c, fieldImm w = imm at *
  simp only [opcodeTable, List.mem_cons, List.not_mem_nil, or_false] at hrow
  rcases hrow with rfl | rfl | rfl | rfl | rfl | rfl | rfl | rfl | rfl | rfl | rfl | rfl | rfl | rfl | rfl | rfl | rfl |
    rfl | rfl | rfl | rfl | rfl | rfl | rfl | rfl | rfl | rfl | rfl | rfl | rfl | rfl | rfl | rfl
  all_goals
    simp [fieldOp, fieldA, fieldB, fieldC, fieldImm] at h
    obtain ⟨rfl, h⟩ := h
    simp [h, toNat_le_one_of_boolMask]

/-- A word matches a row exactly when it decodes to an instruction of the row's mnemonic: the instruction has a row of its
own, which the word matches too, and neither a word nor a mnemonic has two rows. -/
theorem row_decides {w : Word} {row : OpcodeRow} (hrow : row ∈ opcodeTable) :
    w &&& row.mask = row.pattern ↔ ∃ i, decode w = .ok i ∧ i.mnemonic = row.mnemonic := by
  have own {i : Instr} (hi : decode w = .ok i) :
      ∃ row' ∈ opcodeTable, row'.mnemonic = i.mnemonic ∧ w &&& row'.mask = row'.pattern :=
    (encode_decode hi).2 ▸ encode_matches i
  constructor
  · intro h
    obtain ⟨i, hi⟩ := legal_of_matches hrow h
    obtain ⟨row', hrow', hname, h'⟩ := own hi
    exact ⟨i, hi, by rw [row_unique hrow hrow' h h', hname]⟩
  · rintro ⟨i, hi, hname⟩
    obtain ⟨row', hrow', hname', h'⟩ := own hi
    rwa [row_eq_of_mnemonic row hrow row' hrow' (hname ▸ hname'.symm)]

/-- Settles O1: `decode_encode`. -/
theorem decodeEncodeRoundTrip : Obligations.DecodeEncodeRoundTrip := fun _ => decode_encode

/-- Settles O2: `encode_decode`. -/
theorem encodeDecodeLegalWord : Obligations.EncodeDecodeLegalWord := fun _ _ => encode_decode

/-- Settles O3: `row_decides`; a legal word matches the row of its instruction, so a word that matches none is illegal. -/
theorem opcodeTableDecidesDecoding : Obligations.OpcodeTableDecidesDecoding := by
  refine ⟨fun _ hrow _ => row_decides hrow, fun w hnone => ?_⟩
  cases hd : decode w with
  | error e => exact ⟨e, rfl⟩
  | ok i =>
    obtain ⟨row, hrow, -, hmatch⟩ := encode_matches i
    rw [(encode_decode hd).2] at hmatch
    exact absurd hmatch (hnone row hrow)

/-- Settles O4: the decoder runs on each of the seven words. -/
theorem sampleWordsDecode : Obligations.SampleWordsDecode := by
  unfold Obligations.SampleWordsDecode
  decide

end Sys2Proof.Proofs
end

section
/-! PROOFS of 00_scope.md section 7 and 10_state.md: what an instruction may answer, and what each instruction leaves alone. -/

namespace Sys2Proof.Proofs

open Sys2Proof.Machine

/-! One elimination rule per shared operation: a property of results that every fatal condition has is the property of
the operation if the continuation has it where it runs. -/

section Elim
variable {Q : Result → Prop} {s : State}

theorem withRegisters_elim {used : List Nat} {k : Result} (fatal : ∀ c, Q (raise c s))
    (hk : (∀ r ∈ used, r < numRegs) → Q k) : Q (withRegisters used s k) := by
  by_cases hr : ∀ r ∈ used, r < numRegs
  · exact (withRegisters_ok hr).symm ▸ hk hr
  · exact (withRegisters_out (by simpa using hr)).symm ▸ fatal _

theorem withNumbers_elim {a b : Nat} {k : F64 → F64 → Result} (fatal : ∀ c, Q (raise c s)) (hk : ∀ x y, Q (k x y)) :
    Q (withNumbers s a b k) := by
  unfold withNumbers
  split
  · exact hk _ _
  · exact fatal _

theorem withObjectKey_elim {obj key : Nat} {k : Nat → Str → Result} (fatal : ∀ c, Q (raise c s))
    (hk : ∀ h u, s.reg obj = .object h → s.reg key = .string u → Q (k h u)) : Q (withObjectKey s obj key k) := by
  unfold withObjectKey
  split
  · next ho hu => exact hk _ _ ho hu
  · exact fatal _

theorem withArrayPosition_elim {arr idx : Nat} {k : Nat → Nat → Result} (fatal : ∀ c, Q (raise c s))
    (hk : ∀ h p, s.reg arr = .array h → Q (k h p)) : Q (withArrayPosition s arr idx k) := by
  unfold withArrayPosition
  split
  · next ha _ =>
    split
    · exact hk _ _ ha
    · exact fatal _
  · exact fatal _

theorem withObject_elim {h : Nat} {k : Mapping → Result} (hk : ∀ m, Heap.cell s.heap h = some (.obj m) → Q (k m))
    (hnone : (∀ m, Heap.cell s.heap h ≠ some (.obj m)) → Q (.refused .illFormedHeap)) : Q (withObject s h k) := by
  unfold withObject
  split
  · next hc => exact hk _ hc
  · next hc => exact hnone (by simp [hc])
  · next hc => exact hnone (by simp [hc])

theorem withArray_elim {h : Nat} {k : List Value → Result} (hk : ∀ a, Heap.cell s.heap h = some (.arr a) → Q (k a))
    (hnone : (∀ a, Heap.cell s.heap h ≠ some (.arr a)) → Q (.refused .illFormedHeap)) : Q (withArray s h k) := by
  unfold withArray
  split
  · next hc => exact hk _ hc
  · next hc => exact hnone (by simp [hc])
  · next hc => exact hnone (by simp [hc])

theorem withTopScope_elim {k : Mapping → List Mapping → Result} (fatal : ∀ c, Q (raise c s))
    (hk : ∀ top below, s.scopes = top :: below → Q (k top below)) : Q (withTopScope s k) := by
  unfold withTopScope
  split
  · exact fatal _
  · next hs => exact hk _ _ hs

end Elim

/-! Where a Value that an instruction reads stood -/

theorem holds_of_property {s : State} {h : Nat} {o : Mapping} {k : Str} {v : Value}
    (ho : Heap.cell s.heap h = some (.obj o)) (hk : Mapping.get o k = some v) : Holds s v :=
  .inr (.inr (.inl ⟨_, mem_of_lookup ho, _, mem_of_lookup hk, rfl⟩))

theorem holds_of_element {s : State} {h p : Nat} {a : List Value} {v : Value}
    (ha : Heap.cell s.heap h = some (.arr a)) (hp : a[p]? = some v) : Holds s v :=
  .inr (.inr (.inl ⟨_, mem_of_lookup ha, List.mem_of_getElem? hp⟩))

theorem holds_of_variable {s : State} {top : Mapping} {k : Str} {v : Value} (htop : top ∈ s.scopes)
    (hk : Mapping.get top k = some v) : Holds s v :=
  .inr (.inr (.inr ⟨top, htop, _, mem_of_lookup hk, rfl⟩))

/-! The frame of an instruction (10_state.md R17, R24, R25, R27) -/

/-- A Value that brings no long String into the machine: it stood there already, or it is no String of more than nine
bytes (20_memory.md R59). -/
def Supplied (s : State) (v : Value) : Prop := Holds s v ∨ ∀ u, v = .string u → u.length ≤ 9

/-- Every key of an object of `t` was a key of the same object, or is a String that stood in the machine (44_aggregate.md
R143). -/
def KeysFrom (s t : State) : Prop :=
  ∀ h o, (h, HeapCell.obj o) ∈ t.heap → ∀ e ∈ o,
    Holds s (.string e.1) ∨ ∃ o', (h, HeapCell.obj o') ∈ s.heap ∧ ∃ e' ∈ o', e'.1 = e.1

/-- What `i` may change between `s` and `t`: the registers of its row, `STRICT` by `UseStrict`, and of the stacks the top
scope unless it is `Call` or `Return`; and what an object's keys may become. -/
structure Frame (i : Instr) (s t : State) : Prop where
  regs : ∀ r < numRegs, t.reg r = s.reg r ∨ (r ∈ writtenRegisters i ∧ Supplied s (t.reg r))
  strict : i ≠ .useStrict → t.strict = s.strict
  depths : (∀ func argc, i ≠ .call func argc) → (∀ start count, i ≠ .ret start count) →
    t.callStack = s.callStack ∧ t.scopes.length = s.scopes.length ∧ t.scopes.tail = s.scopes.tail
  keys : KeysFrom s t

section FrameRules
variable {i : Instr} {s t : State}

theorem keysFrom_of_eq (h : t.heap = s.heap) : KeysFrom s t :=
  fun _ o ho e he => .inr ⟨o, h ▸ ho, e, he, rfl⟩

/-- One cell is written, an array or an object with such keys. -/
theorem keysFrom_setCell {h : Nat} {c : HeapCell} (heap : t.heap = Heap.setCell s.heap h c)
    (hc : ∀ o, c = .obj o → ∀ e ∈ o,
      Holds s (.string e.1) ∨ ∃ o', (h, HeapCell.obj o') ∈ s.heap ∧ ∃ e' ∈ o', e'.1 = e.1) : KeysFrom s t := by
  intro j o ho e he
  rw [heap] at ho
  rcases mem_insertAt ho with heq | hold
  · obtain ⟨rfl, rfl⟩ := Prod.mk.inj heq
    exact hc o rfl e he
  · exact .inr ⟨o, hold, e, he, rfl⟩

theorem supplied_reg {r : Nat} (hr : r < numRegs) : Supplied s (s.reg r) := .inl (.inl ⟨r, hr, rfl⟩)

/-- An update that leaves registers, `STRICT` and stacks alone. -/
theorem frame_of_eq (hkeys : KeysFrom s t) (hregs : t.regs = s.regs) (hstrict : t.strict = s.strict)
    (hcalls : t.callStack = s.callStack) (hscopes : t.scopes = s.scopes) : Frame i s t :=
  ⟨fun r _ => .inl (reg_congr hregs r), fun _ => hstrict, fun _ _ => ⟨hcalls, by rw [hscopes], by rw [hscopes]⟩,
    hkeys⟩

/-- A register write after an update that leaves registers, `STRICT` and stacks alone. -/
theorem frame_setReg {dst : Nat} {v : Value} (hd : writtenRegisters i = [dst]) (hv : Supplied s v)
    (hkeys : KeysFrom s t) (hregs : t.regs = s.regs) (hstrict : t.strict = s.strict)
    (hcalls : t.callStack = s.callStack) (hscopes : t.scopes = s.scopes) : Frame i s (t.setReg dst v).advance := by
  refine ⟨fun r hr => ?_, fun _ => hstrict, fun _ _ => ⟨hcalls, by simp [hscopes], by simp [hscopes]⟩, hkeys⟩
  by_cases hrd : r = dst
  · subst hrd
    exact .inr ⟨by simp [hd], by rwa [reg_advance, reg_setReg_same t v hr]⟩
  · exact .inl (by rw [reg_advance, reg_setReg_other t v hrd, reg_congr hregs])

end FrameRules

/-- A register whose Value refers to no cell of its kind, which 20_memory.md R57 rules out. -/
def Dangles (s : State) : Prop := ∃ r < numRegs, ¬ HandleOk s.heap (s.reg r)

/-- What an instruction can answer: a next state within its frame, or the refusal of a dangling handle. -/
inductive Answers (i : Instr) (s : State) : Result → Prop
  | next {t : State} (h : Frame i s t) : Answers i s (.next t)
  | refused (h : Dangles s) : Answers i s (.refused .illFormedHeap)

section AnswerRules
variable {i : Instr} {s : State}

theorem answers_raise (c : Cause) : Answers i s (raise c s) := .next (frame_of_eq (keysFrom_of_eq rfl) rfl rfl rfl rfl)

theorem answers_withRegisters {used : List Nat} {k : Result} (hk : (∀ r ∈ used, r < numRegs) → Answers i s k) :
    Answers i s (withRegisters used s k) :=
  withRegisters_elim answers_raise hk

/-- The instruction ends in a register write. -/
theorem answers_write {dst : Nat} {v : Value} (hd : writtenRegisters i = [dst]) (hv : Supplied s v) :
    Answers i s (.next (s.setReg dst v).advance) :=
  .next (frame_setReg hd hv (keysFrom_of_eq rfl) rfl rfl rfl rfl)

theorem answers_binaryArith {op : F64 → F64 → FloatResult} {dst a b : Nat} (hd : writtenRegisters i = [dst]) :
    Answers i s (binaryArith op dst a b s) := by
  refine answers_withRegisters fun _ => withNumbers_elim answers_raise fun x y => ?_
  cases op x y with
  | num f => exact answers_write hd (.inr nofun)
  | nan =>
    exact .next (frame_setReg (t := { s with nanDraws := s.nanDraws + 1 }) hd (.inr nofun) (keysFrom_of_eq rfl)
      rfl rfl rfl rfl)

theorem answers_ordered {holds : ValueOrder → Bool} {a b : Nat} (hd : writtenRegisters i = [0]) :
    Answers i s (ordered holds a b s) := by
  refine answers_withRegisters fun _ => ?_
  split
  · exact answers_raise _
  · split
    · exact answers_raise _
    · exact answers_write hd (.inr nofun)
  · exact answers_write hd (.inr nofun)

theorem answers_newAggregate {c : HeapCell} {make : Nat → Value} {dst : Nat} (hd : writtenRegisters i = [dst])
    (hmake : ∀ h u, make h ≠ .string u) (hc : ∀ o, c = .obj o → o = []) : Answers i s (newAggregate c make dst s) := by
  refine answers_withRegisters fun _ => ?_
  split
  · next h t ha =>
    obtain ⟨-, -, rfl⟩ := alloc_some ha
    refine .next (frame_setReg hd (.inr fun u hu => absurd hu (hmake _ u)) (keysFrom_setCell rfl fun o ho e he => ?_)
      rfl rfl rfl rfl)
    rw [hc o ho] at he
    cases he
  · exact answers_raise _

theorem answers_writeScope {var : U32} {v : Value} : Answers i s (writeScope var v s) := by
  refine withTopScope_elim answers_raise fun top below hs => ?_
  split
  · exact .next ⟨fun _ _ => .inl rfl, fun _ => rfl, fun _ _ => ⟨rfl, by simp [hs], by simp [hs]⟩,
      keysFrom_of_eq rfl⟩
  · exact answers_raise _

theorem dangles_object {r h : Nat} (hr : r < numRegs) (ho : s.reg r = .object h)
    (hnone : ∀ m, Heap.cell s.heap h ≠ some (.obj m)) : Dangles s :=
  ⟨r, hr, by rw [ho]; exact fun ⟨m, hm⟩ => hnone m hm⟩

theorem dangles_array {r h : Nat} (hr : r < numRegs) (ho : s.reg r = .array h)
    (hnone : ∀ a, Heap.cell s.heap h ≠ some (.arr a)) : Dangles s :=
  ⟨r, hr, by rw [ho]; exact fun ⟨a, ha⟩ => hnone a ha⟩

end AnswerRules

theorem supplied_getD {s : State} {o : Option Value} (h : ∀ v, o = some v → Holds s v) :
    Supplied s (o.getD .undefined) := by
  cases o with
  | none => exact .inr nofun
  | some v => exact .inl (h v rfl)

theorem length_typeName_le (v : Value) : (typeName v).length ≤ 9 := by cases v <;> simp [typeName]

/-- The instruction at work: its answer is a state within its frame, or the refusal of a dangling handle. -/
theorem exec_answers (i : Instr) (s : State) : Answers i s (exec i s) := by
  cases i with
  | loadConst dst k =>
    refine answers_withRegisters fun _ => ?_
    split
    · next hv => exact answers_write rfl (.inl (.inr (.inl (List.mem_of_getElem? hv))))
    · exact answers_raise _
  | loadUndef dst => exact answers_withRegisters fun _ => answers_write rfl (.inr nofun)
  | loadNull dst => exact answers_withRegisters fun _ => answers_write rfl (.inr nofun)
  | loadBool dst b => exact answers_withRegisters fun _ => answers_write rfl (.inr nofun)
  | move dst src =>
    exact answers_withRegisters fun hr => answers_write rfl (supplied_reg (hr src (by simp)))
  | add dst a b => exact answers_binaryArith rfl
  | sub dst a b => exact answers_binaryArith rfl
  | mul dst a b => exact answers_binaryArith rfl
  | div dst a b => exact answers_binaryArith rfl
  | mod dst a b => exact answers_binaryArith rfl
  | pow dst a b => exact answers_binaryArith rfl
  | neg dst src =>
    refine answers_withRegisters fun _ => ?_
    split
    · exact answers_write rfl (.inr nofun)
    · exact answers_raise _
  | eq a b => exact answers_withRegisters fun _ => answers_write rfl (.inr nofun)
  | lt a b => exact answers_ordered rfl
  | le a b => exact answers_ordered rfl
  | jmp off => exact .next (frame_of_eq (keysFrom_of_eq rfl) rfl rfl rfl rfl)
  | jmpIf cond off =>
    refine answers_withRegisters fun _ => ?_
    split
    · exact .next (frame_of_eq (keysFrom_of_eq rfl) rfl rfl rfl rfl)
    · exact .next (frame_of_eq (keysFrom_of_eq rfl) rfl rfl rfl rfl)
  | call func argc =>
    refine answers_withRegisters fun _ => ?_
    split
    · split
      · exact .next ⟨fun _ _ => .inl rfl, fun _ => rfl, fun h _ => absurd rfl (h func argc), keysFrom_of_eq rfl⟩
      · exact answers_raise _
    · exact answers_raise _
  | ret start count =>
    simp only [exec, execReturn]
    split
    · exact answers_raise _
    · split
      · exact answers_raise _
      · exact .next ⟨fun _ _ => .inl rfl, fun _ => rfl, fun _ h => absurd rfl (h start count), keysFrom_of_eq rfl⟩
  | newObject dst => exact answers_newAggregate rfl nofun fun _ h => (HeapCell.obj.inj h).symm
  | newArray dst => exact answers_newAggregate rfl nofun nofun
  | getProp dst obj key =>
    exact answers_withRegisters fun hr => withObjectKey_elim answers_raise fun h u ho _ => withObject_elim
      (fun m hm => answers_write rfl (supplied_getD fun _ => holds_of_property hm))
      fun hnone => .refused (dangles_object (hr obj (by simp)) ho hnone)
  | setProp obj key val =>
    refine answers_withRegisters fun hr => withObjectKey_elim answers_raise fun h u ho hu => withObject_elim
      (fun m hm => ?_) fun hnone => .refused (dangles_object (hr obj (by simp)) ho hnone)
    split
    · next m' hm' =>
      obtain ⟨-, rfl⟩ := setWithin_some hm'
      refine .next (frame_of_eq (keysFrom_setCell rfl ?_) rfl rfl rfl rfl)
      rintro _ ⟨⟩ e he
      rcases mem_insertAt he with rfl | hold
      · exact .inl (.inl ⟨key, hr key (by simp), hu⟩)
      · exact .inr ⟨m, mem_of_lookup hm, e, hold, rfl⟩
    · exact answers_raise _
  | getElem dst arr idx =>
    exact answers_withRegisters fun hr => withArrayPosition_elim answers_raise fun h p ha => withArray_elim
      (fun a hc => answers_write rfl (supplied_getD fun _ => holds_of_element hc))
      fun hnone => .refused (dangles_array (hr arr (by simp)) ha hnone)
  | setElem arr idx val =>
    refine answers_withRegisters fun hr => withArrayPosition_elim answers_raise fun h p ha => ?_
    split
    · exact withArray_elim (fun _ _ => .next (frame_of_eq (keysFrom_setCell rfl nofun) rfl rfl rfl rfl))
        fun hnone => .refused (dangles_array (hr arr (by simp)) ha hnone)
    · exact answers_raise _
  | closure dst target => exact answers_withRegisters fun _ => answers_write rfl (.inr nofun)
  | getScope dst var =>
    refine answers_withRegisters fun _ => withTopScope_elim answers_raise fun top below hs => ?_
    split
    · next hv => exact answers_write rfl (.inl (holds_of_variable (hs ▸ List.mem_cons_self) hv))
    · split
      · exact answers_raise _
      · exact answers_write rfl (.inr nofun)
  | setScope var src => exact answers_withRegisters fun _ => answers_writeScope
  | typeOf dst src =>
    refine answers_withRegisters fun _ => answers_write rfl (.inr ?_)
    rintro u ⟨⟩
    exact length_typeName_le _
  | instanceOf dst obj ctor =>
    exact answers_withRegisters fun _ => answers_write rfl (.inr nofun)
  | declareFunc dst => exact answers_withRegisters fun _ => answers_write rfl (.inr nofun)
  | declareVar var => exact answers_writeScope
  | useStrict =>
    exact .next ⟨fun _ _ => .inl rfl, fun h => absurd rfl h, fun _ _ => ⟨rfl, rfl, rfl⟩, keysFrom_of_eq rfl⟩

theorem exec_frame {i : Instr} {s t : State} (h : exec i s = .next t) : Frame i s t := by
  have ha := exec_answers i s
  rw [h] at ha
  cases ha with
  | next hf => exact hf

/-- Well-formed handles leave no refusal (20_memory.md R57). -/
theorem exec_total {s : State} (hs : HandlesOk s) (i : Instr) : ∃ t, exec i s = .next t := by
  have ha := exec_answers i s
  generalize exec i s = res at ha ⊢
  cases ha with
  | next hf => exact ⟨_, rfl⟩
  | refused hd =>
    obtain ⟨r, hr, hbad⟩ := hd
    exact absurd (hs.regs r hr) hbad

/-! Consequences of the frame -/

/-- No effect writes the program, the pool or the parameters. -/
theorem effect_keeps_constants {s t : State} (h : Effect s t) : t.prog = s.prog ∧ t.pool = s.pool ∧ t.cfg = s.cfg := by
  cases h <;> exact ⟨rfl, rfl, rfl⟩

/-- A step is the normal end of the run, or has an effect of an instruction or a fatal condition. -/
theorem step_halts_or_effect {s t : State} (h : step s = .next t) : t = s.haltOk ∨ Effect s t := by
  obtain ⟨-, ⟨-, rfl⟩ | ⟨c, rfl⟩ | ⟨i, -, -, heffect⟩⟩ := step_effect h
  · exact .inl rfl
  · exact .inr (.fatal c)
  · exact .inr heffect

theorem step_keeps_constants {s t : State} (h : step s = .next t) :
    t.prog = s.prog ∧ t.pool = s.pool ∧ t.cfg = s.cfg := by
  rcases step_halts_or_effect h with rfl | heffect
  · exact ⟨rfl, rfl, rfl⟩
  · exact effect_keeps_constants heffect

theorem exec_useStrict (s : State) : exec .useStrict s = .next s.setStrict.advance := rfl

/-- Settles O20: the constants by the effects of a step, `STRICT` by the frame. -/
theorem constantsStayAndStrictOnlyRises : Obligations.ConstantsStayAndStrictOnlyRises := by
  refine ⟨fun _ _ => step_keeps_constants, fun i s t h => ⟨?_, (exec_frame h).strict⟩⟩
  rintro rfl
  rw [next_inj h]
  rfl

/-- Settles O22: the depths of the frame. -/
theorem stacksMoveOnlyByCallAndReturn : Obligations.StacksMoveOnlyByCallAndReturn :=
  fun _ _ _ h => (exec_frame h).depths

/-- Settles O24: the registers of the frame. -/
theorem registerWritesFollowTheTable : Obligations.RegisterWritesFollowTheTable := by
  intro i s t h r hr hnot
  rcases (exec_frame h).regs r hr with hkept | ⟨hwritten, -⟩
  · exact hkept
  · exact absurd hwritten hnot

/-! The register index check (10_state.md R18) -/

/-- Every instruction that uses a register checks first. -/
theorem exec_registerOut {i : Instr} {s : State} (h : ∃ r ∈ usedRegisters i, numRegs ≤ r) :
    exec i s = raise .registerIndexOutOfRange s := by
  cases i
  case jmp | ret | declareVar | useStrict => simp [usedRegisters, Instr.registerFields] at h
  all_goals exact withRegisters_out h

theorem usedRegisters_subset {i : Instr} {r : Nat} (h : r ∈ usedRegisters i) : r ∈ i.registerFields := by
  cases i
  case ret => simp [usedRegisters] at h
  all_goals exact h

/-- Settles O25: the check by `exec_registerOut`; a decoded instruction is well formed. -/
theorem registerIndexCheck : Obligations.RegisterIndexCheck :=
  ⟨fun _ _ => exec_registerOut, fun _ _ _ _ _ => rfl, fun _ _ _ _ => rfl,
    fun _ _ hd r hr => wellFormed_iff.mp (encode_decode hd).1 r (usedRegisters_subset hr)⟩

/-! The step as a whole -/

/-- Settles O5: the fetch finds the instruction, and the step is its meaning. -/
theorem stepRunsTheFetchedInstruction : Obligations.StepRunsTheFetchedInstruction := by
  refine ⟨fun s words w i hrun hp h0 hw hd => step_instruction hrun ?_,
    fun s code i hrun hp h0 hi => step_instruction hrun ?_⟩
  · have hlt := (List.getElem?_eq_some_iff.mp hw).1
    rw [fetch_inside h0 (by rw [hp, Program.length]; omega), hp, program_at_legal hw hd]
  · have hlt := (List.getElem?_eq_some_iff.mp hi).1
    rw [fetch_inside h0 (by rw [hp, Program.length]; omega), hp, program_at_abstract hi]

/-- Settles O7: `step` fetches only where `RUN` is running. -/
theorem haltedEngineHasNoStep : Obligations.HaltedEngineHasNoStep := by
  intro s hs
  unfold step
  split
  · rfl
  · rfl
  · next hrun => exact absurd hrun hs

/-- From well-formed handles a running engine has a next state, wherever the counter stands. -/
theorem step_total {s : State} (hs : HandlesOk s) (hrun : s.run = .running) : ∃ t, step s = .next t := by
  cases hf : fetch s with
  | endOfProgram => exact ⟨_, step_endOfProgram hrun hf⟩
  | outOfRange => exact ⟨_, step_outOfRange hrun hf⟩
  | illegal e => exact ⟨_, step_illegal hrun hf⟩
  | instruction i =>
    rw [step_instruction hrun hf]
    exact exec_total hs i

/-- Inside the program a step does not end the run normally. -/
theorem step_inside {s t : State} (h : step s = .next t) (hpc : s.pc ≠ s.prog.length) :
    t.run = .running ∨ t.run = .haltedFault := by
  obtain ⟨hrun, ⟨hend, -⟩ | ⟨c, rfl⟩ | ⟨i, -, -, heffect⟩⟩ := step_effect h
  · exact absurd hend hpc
  · exact .inr rfl
  · rcases effect_fatal_or_keeps_record heffect with ⟨c, rfl⟩ | ⟨hkept, -, -⟩
    · exact .inr rfl
    · exact .inl (hkept.trans hrun)

/-- Settles O9: `step_total`, and `step_inside` for the run state. -/
theorem everyInstructionHasAnOutcome : Obligations.EveryInstructionHasAnOutcome := by
  intro s hs hrun h0 hlt
  obtain ⟨t, ht⟩ := step_total hs hrun
  exact ⟨t, ht, step_inside ht hlt.ne⟩

end Sys2Proof.Proofs
end

section
/-! PROOFS of the invariants of 10_state.md and 20_memory.md: stack depths (R26), counters (R24, R34), scope keys (R48), cells
and handles (R43, R46, R57), capacities (R59); construction and reset. -/

namespace Sys2Proof.Proofs

open Sys2Proof.Machine

/-- A property that the normal end of the run and every effect lead to is one that every step leads to. -/
theorem step_induction {P : State → Prop} {s t : State} (h : step s = .next t) (hhalt : P s.haltOk)
    (heffect : ∀ u, Effect s u → P u) : P t := by
  rcases step_halts_or_effect h with rfl | he
  · exact hhalt
  · exact heffect t he

/-! Stack depths (10_state.md R26) -/

theorem effect_keeps_stacksMatch {s t : State} (hs : StacksMatch s) (h : Effect s t) : StacksMatch t := by
  cases h with
  | calls n => simpa [StacksMatch] using hs
  | returns saved calls top below hc hsc => simpa [StacksMatch, hc, hsc] using hs
  | setsVariable top below var v hsc => simpa [StacksMatch, hsc] using hs
  | _ => exact hs

/-- Settles O11: `effect_keeps_stacksMatch`. -/
theorem stackDepthsStayMatched : Obligations.StackDepthsStayMatched :=
  ⟨fun _ _ _ _ => rfl, fun _ _ hs h => step_induction h hs fun _ => effect_keeps_stacksMatch hs⟩

/-! The counters (10_state.md R24, R34) -/

/-- The range of an offset is that of a 32-bit two's complement number. -/
theorem offsetOf_range (off : U32) : -2 ^ 31 ≤ offsetOf off ∧ offsetOf off < 2 ^ 31 :=
  ⟨BitVec.le_toInt off, BitVec.toInt_lt⟩

/-- An effect of an instruction inside the program. -/
theorem effect_keeps_counters {s t : State} (hs : CountersBounded s) (h0 : 0 ≤ s.pc) (hlt : s.pc < s.prog.length)
    (h : Effect s t) : CountersBounded t := by
  obtain ⟨hlen, hsaved, -, -⟩ := hs
  cases h with
  | jumps off =>
    have := offsetOf_range off
    exact ⟨hlen, hsaved, by simp only [jumpTo_pc]; omega, by simp only [jumpTo_pc]; omega⟩
  | calls n =>
    refine ⟨hlen, ?_, by simp only [jumpTo_pc]; omega, by simp only [jumpTo_pc]; omega⟩
    intro e he
    rcases List.mem_cons.mp he with rfl | he
    · exact ⟨h0, hlt⟩
    · exact hsaved e he
  | returns saved calls top below hc hsc =>
    rw [hc, List.forall_mem_cons] at hsaved
    obtain ⟨⟨hs0, hslt⟩, hcalls⟩ := hsaved
    exact ⟨hlen, hcalls, by simp only [jumpTo_pc]; omega, by simp only [jumpTo_pc]; omega⟩
  | fatal c => exact ⟨hlen, hsaved, by simp only [enterFatal_pc]; omega, by simp only [enterFatal_pc]; omega⟩
  | _ => exact ⟨hlen, hsaved, by simp; omega, by simp; omega⟩

theorem step_keeps_counters {s t : State} (hs : CountersBounded s) (h : step s = .next t) : CountersBounded t := by
  obtain ⟨-, ⟨-, rfl⟩ | ⟨c, rfl⟩ | ⟨i, hf, -, heffect⟩⟩ := step_effect h
  · exact hs
  · exact hs
  · obtain ⟨h0, hlt⟩ := fetch_instruction hf
    exact effect_keeps_counters hs h0 hlt heffect

theorem construct_countersBounded {prog : Program} (pool : List Value) (heap0 : Heap) (cfg : Config)
    (h : prog.length ≤ 2 ^ 32) : CountersBounded (State.construct prog pool heap0 cfg) :=
  ⟨h, nofun, by simp [State.construct], by simp [State.construct]⟩

/-- Settles O12: a jump leaves a counter inside the program by less than 2^31, and a call saves such a counter. -/
theorem countersStayBounded : Obligations.CountersStayBounded :=
  ⟨fun _ pool heap0 cfg h => construct_countersBounded pool heap0 cfg h, fun _ _ => step_keeps_counters⟩

/-! What the scopes and the heap are after an effect, said once -/

/-- The scope mappings after an effect: an empty one, one that was there, or one with a variable written. -/
inductive ScopeAfter (s : State) : Mapping → Prop
  | empty : ScopeAfter s []
  | kept {m : Mapping} (hm : m ∈ s.scopes) : ScopeAfter s m
  | written {top : Mapping} (htop : top ∈ s.scopes) (var : U32) {v : Value}
      (hv : v = .undefined ∨ ∃ r < numRegs, v = s.reg r)
      (room : Mapping.has top (scopeKey s.cfg var) = true ∨ fits top.length s.cfg.maxScopeEntries = true) :
      ScopeAfter s (Mapping.set top (scopeKey s.cfg var) v)

theorem effect_scopeAfter {s t : State} (h : Effect s t) : ∀ m ∈ t.scopes, ScopeAfter s m := by
  cases h with
  | calls n => exact List.forall_mem_cons.mpr ⟨.empty, fun _ => .kept⟩
  | returns saved calls top below hc hs => exact fun m hm => .kept (hs ▸ List.mem_cons_of_mem _ hm)
  | setsVariable top below var v hs hv room =>
    exact List.forall_mem_cons.mpr
      ⟨.written (hs ▸ List.mem_cons_self) var hv room, fun m hm => .kept (hs ▸ List.mem_cons_of_mem _ hm)⟩
  | _ => exact fun _ => .kept (s := s)

/-- The heap and `NEXT_HANDLE` after an effect: unchanged, with a cell allocated, or with a cell written. -/
inductive HeapAfter (s : State) : Heap → Nat → Prop
  | kept : HeapAfter s s.heap s.nextHandle
  | allocated {c : HeapCell} (hc : c = .obj [] ∨ c = .arr []) (room : fits s.heap.length s.cfg.maxHeapCells = true) :
      HeapAfter s (Heap.setCell s.heap s.nextHandle c) (s.nextHandle + 1)
  | property {h r : Nat} {o : Mapping} (k : Str) (hr : r < numRegs) (ho : Heap.cell s.heap h = some (.obj o))
      (room : Mapping.has o k = true ∨ fits o.length s.cfg.maxObjectKeys = true) :
      HeapAfter s (Heap.setCell s.heap h (.obj (Mapping.set o k (s.reg r)))) s.nextHandle
  | element {h r p : Nat} {a : List Value} (hr : r < numRegs) (ha : Heap.cell s.heap h = some (.arr a))
      (room : p < s.cfg.maxArrayLen) :
      HeapAfter s (Heap.setCell s.heap h (.arr (writeElement a p (s.reg r)))) s.nextHandle

theorem effect_heapAfter {s t : State} (h : Effect s t) : HeapAfter s t.heap t.nextHandle := by
  cases h with
  | allocatesObject dst hd room => exact .allocated (.inl rfl) room
  | allocatesArray dst hd room => exact .allocated (.inr rfl) room
  | setsProperty h r m k hr hc room => exact .property k hr hc room
  | setsElement h r p a hr hc room => exact .element hr hc room
  | _ => exact .kept

/-! Scope keys (20_memory.md R48) -/

theorem effect_keeps_scopeKeysOk {s t : State} (hs : ScopeKeysOk s) (h : Effect s t) : ScopeKeysOk t := by
  intro m hm e he
  rw [(effect_keeps_constants h).2.2]
  cases effect_scopeAfter h m hm with
  | empty => cases he
  | kept hm => exact hs m hm e he
  | written htop var =>
    rcases mem_insertAt he with rfl | he
    · exact ⟨var, rfl⟩
    · exact hs _ htop e he

/-- Settles O16: the one effect that adds an entry to a scope adds it at `SCOPE_KEY` of its variable. -/
theorem scopeKeysStaySynthesized : Obligations.ScopeKeysStaySynthesized :=
  fun _ _ hs h => step_induction h hs fun _ => effect_keeps_scopeKeysOk hs

/-! Cells keep their kind and only grow (20_memory.md section 1) -/

/-- Every cell of `m` is in `m'` a cell of its kind, with all its keys or at least its length. -/
def HeapGrows (m m' : Heap) : Prop := ∀ h : Nat,
  (∀ o, Heap.cell m h = some (.obj o) →
    ∃ o', Heap.cell m' h = some (.obj o') ∧ ∀ k, Mapping.get o k ≠ none → Mapping.get o' k ≠ none) ∧
  (∀ a, Heap.cell m h = some (.arr a) → ∃ a', Heap.cell m' h = some (.arr a') ∧ a.length ≤ a'.length)

theorem heapGrows_refl (m : Heap) : HeapGrows m m :=
  fun _ => ⟨fun o ho => ⟨o, ho, fun _ => id⟩, fun a ha => ⟨a, ha, le_refl _⟩⟩

/-- Writing one cell lets the heap grow if that cell grows. -/
theorem heapGrows_setCell {m : Heap} {h : Nat} {c : HeapCell}
    (hobj : ∀ o, Heap.cell m h = some (.obj o) → ∃ o', c = .obj o' ∧ ∀ k, Mapping.get o k ≠ none → Mapping.get o' k ≠ none)
    (harr : ∀ a, Heap.cell m h = some (.arr a) → ∃ a', c = .arr a' ∧ a.length ≤ a'.length) :
    HeapGrows m (Heap.setCell m h c) := by
  intro i
  by_cases hi : i = h
  · subst hi
    rw [cell_setCell_same]
    refine ⟨fun o ho => ?_, fun a ha => ?_⟩
    · obtain ⟨o', rfl, hkeys⟩ := hobj o ho
      exact ⟨o', rfl, hkeys⟩
    · obtain ⟨a', rfl, hlen⟩ := harr a ha
      exact ⟨a', rfl, hlen⟩
  · rw [cell_setCell_other m c hi]
    exact heapGrows_refl m i

theorem get_set_ne_none {o : Mapping} {j k : Str} (v : Value) (h : Mapping.get o j ≠ none) :
    Mapping.get (Mapping.set o k v) j ≠ none := by
  by_cases hj : j = k
  · subst hj
    simp
  · rwa [get_set_other o v hj]

/-- Below a bound of all handles there is no cell at the bound (20_memory.md R46). -/
theorem cell_fresh {m : Heap} {n : Nat} (hfresh : ∀ p ∈ m, p.1 < n) : Heap.cell m n = none := by
  cases hc : Heap.cell m n with
  | none => rfl
  | some c => exact absurd (hfresh _ (mem_of_lookup hc)) (lt_irrefl n)

theorem effect_heapGrows {s t : State} (hfresh : ∀ p ∈ s.heap, p.1 < s.nextHandle) (h : Effect s t) :
    HeapGrows s.heap t.heap := by
  have hafter := effect_heapAfter h
  generalize t.heap = m, t.nextHandle = n at hafter ⊢
  cases hafter with
  | kept => exact heapGrows_refl _
  | allocated => exact heapGrows_setCell (by simp [cell_fresh hfresh]) (by simp [cell_fresh hfresh])
  | property k hr ho => 
    refine heapGrows_setCell (fun o' ho' => ?_) (by simp [ho])
    obtain rfl : _ = o' := by simpa [ho] using ho'
    exact ⟨_, rfl, fun j => get_set_ne_none _⟩
  | element hr ha =>
    refine heapGrows_setCell (by simp [ha]) (fun a' ha' => ?_)
    obtain rfl : _ = a' := by simpa [ha] using ha'
    exact ⟨_, rfl, by simp [length_writeElement]⟩

/-- Settles O23: `effect_heapGrows`. -/
theorem cellsKeepKindAndOnlyGrow : Obligations.CellsKeepKindAndOnlyGrow :=
  fun _ _ _ hfresh h => effect_heapGrows hfresh (exec_effect h)

/-! Handles (20_memory.md R43, R46, R57) -/

/-- A handle stays good while the heap grows. -/
theorem handleOk_mono {m m' : Heap} (hg : HeapGrows m m') {v : Value} (hv : HandleOk m v) : HandleOk m' v := by
  cases v with
  | object h =>
    obtain ⟨o, ho⟩ := hv
    obtain ⟨o', ho', -⟩ := (hg h).1 o ho
    exact ⟨o', ho'⟩
  | array h =>
    obtain ⟨a, ha⟩ := hv
    obtain ⟨a', ha', -⟩ := (hg h).2 a ha
    exact ⟨a', ha'⟩
  | _ => trivial

theorem cellHandlesOk_mono {m m' : Heap} (hg : HeapGrows m m') {c : HeapCell} (hc : CellHandlesOk m c) :
    CellHandlesOk m' c := by
  cases c with
  | obj o => exact fun e he => handleOk_mono hg (hc e he)
  | arr a => exact fun v hv => handleOk_mono hg (hc v hv)

/-- Every Value that stands in the machine has a good handle. -/
theorem handleOk_of_holds {s : State} (hs : HandlesOk s) {v : Value} (hv : Holds s v) : HandleOk s.heap v := by
  obtain ⟨r, hr, rfl⟩ | hpool | ⟨p, hp, hcell⟩ | ⟨m, hm, e, he, rfl⟩ := hv
  · exact hs.regs r hr
  · exact hs.pool v hpool
  · have hc := hs.cells p hp
    cases hpc : p.2 with
    | obj o =>
      rw [hpc] at hc hcell
      obtain ⟨e, he, rfl⟩ := hcell
      exact hc e he
    | arr a =>
      rw [hpc] at hc hcell
      exact hc v hcell
  · exact hs.scopes m hm e he

theorem handleOk_of_sourced {s : State} (hs : HandlesOk s) {v : Value} (hv : Sourced s v) : HandleOk s.heap v := by
  match v, hv with
  | _, .register r hr => exact hs.regs r hr
  | _, .pool h => exact hs.pool _ h
  | _, .property hc hg => exact handleOk_of_holds hs (holds_of_property hc hg)
  | _, .element hc hg => exact handleOk_of_holds hs (holds_of_element hc hg)
  | _, .variable hsc hg => exact handleOk_of_holds hs (holds_of_variable (hsc ▸ List.mem_cons_self) hg)
  | _, .undefined | _, .null | _, .boolean _ | _, .number _ | _, .string _ | _, .function _ => trivial

/-- A property of every register after a register write. -/
theorem forall_reg_setReg {P : Value → Prop} {s : State} {dst : Nat} {v : Value} (hs : ∀ r < numRegs, P (s.reg r))
    (hv : P v) : ∀ r < numRegs, P ((s.setReg dst v).reg r) := by
  intro r hr
  by_cases hrd : r = dst
  · subst hrd
    rwa [reg_setReg_same s v hr]
  · rw [reg_setReg_other s v hrd]
    exact hs r hr

theorem forall_mem_setCell {P : Nat × HeapCell → Prop} {m : Heap} {h : Nat} {c : HeapCell} (hm : ∀ p ∈ m, P p)
    (hc : P (h, c)) : ∀ p ∈ Heap.setCell m h c, P p := by
  intro p hp
  rcases mem_insertAt hp with rfl | hp
  · exact hc
  · exact hm p hp

/-- The registers after an effect: the two allocations are the only source of a handle that was not there. -/
theorem effect_regs_handleOk {s t : State} (hs : HandlesOk s) (h : Effect s t) :
    ∀ r < numRegs, HandleOk t.heap (t.reg r) := by
  have hold : ∀ r < numRegs, HandleOk t.heap (s.reg r) :=
    fun r hr => handleOk_mono (effect_heapGrows hs.fresh h) (hs.regs r hr)
  cases h with
  | writes dst v hd hv => exact forall_reg_setReg hold (handleOk_of_sourced hs hv)
  | draws dst hd => exact forall_reg_setReg (P := HandleOk s.heap) hold trivial
  | allocatesObject dst hd room => exact forall_reg_setReg hold ⟨[], cell_setCell_same _ _ _⟩
  | allocatesArray dst hd room => exact forall_reg_setReg hold ⟨[], cell_setCell_same _ _ _⟩
  | _ => exact hold

theorem effect_cells_handleOk {s t : State} (hs : HandlesOk s) (h : Effect s t) :
    ∀ p ∈ t.heap, CellHandlesOk t.heap p.2 := by
  have hg := effect_heapGrows hs.fresh h
  have hold : ∀ p ∈ s.heap, CellHandlesOk t.heap p.2 := fun p hp => cellHandlesOk_mono hg (hs.cells p hp)
  have hregs : ∀ r < numRegs, HandleOk t.heap (s.reg r) := fun r hr => handleOk_mono hg (hs.regs r hr)
  have hafter := effect_heapAfter h
  clear h hg
  generalize t.heap = m, t.nextHandle = n at *
  cases hafter with
  | kept => exact hold
  | allocated hc => exact forall_mem_setCell hold (by rcases hc with rfl | rfl <;> exact fun _ => nofun)
  | property k hr ho =>
    refine forall_mem_setCell hold fun e he => ?_
    rcases mem_insertAt he with rfl | he
    · exact hregs _ hr
    · exact hold _ (mem_of_lookup ho) e he
  | element hr ha =>
    refine forall_mem_setCell hold fun v hv => ?_
    rcases mem_writeElement hv with hv | rfl | rfl
    · exact hold _ (mem_of_lookup ha) v hv
    · exact hregs _ hr
    · trivial

theorem effect_scopes_handleOk {s t : State} (hs : HandlesOk s) (h : Effect s t) :
    ∀ m ∈ t.scopes, ∀ e ∈ m, HandleOk t.heap e.2 := by
  have hg := effect_heapGrows hs.fresh h
  intro m hm e he
  refine handleOk_mono hg ?_
  cases effect_scopeAfter h m hm with
  | empty => cases he
  | kept hm => exact hs.scopes m hm e he
  | written htop var hv =>
    rcases mem_insertAt he with rfl | he
    · rcases hv with rfl | ⟨r, hr, rfl⟩
      · trivial
      · exact hs.regs r hr
    · exact hs.scopes _ htop e he

theorem effect_fresh {s t : State} (hs : HandlesOk s) (h : Effect s t) : ∀ p ∈ t.heap, p.1 < t.nextHandle := by
  have hafter := effect_heapAfter h
  generalize t.heap = m, t.nextHandle = n at *
  cases hafter with
  | kept => exact hs.fresh
  | allocated => exact forall_mem_setCell (fun p hp => Nat.lt_succ_of_lt (hs.fresh p hp)) (Nat.lt_succ_self _)
  | property k hr ho =>
    have hlt := hs.fresh _ (mem_of_lookup ho)
    exact forall_mem_setCell hs.fresh hlt
  | element hr ha =>
    have hlt := hs.fresh _ (mem_of_lookup ha)
    exact forall_mem_setCell hs.fresh hlt

theorem effect_keeps_handlesOk {s t : State} (hs : HandlesOk s) (h : Effect s t) : HandlesOk t where
  regs := effect_regs_handleOk hs h
  pool v hv := handleOk_mono (effect_heapGrows hs.fresh h) (hs.pool v ((effect_keeps_constants h).2.1 ▸ hv))
  cells := effect_cells_handleOk hs h
  scopes := effect_scopes_handleOk hs h
  fresh := effect_fresh hs h

theorem step_keeps_handlesOk {s t : State} (hs : HandlesOk s) (h : step s = .next t) : HandlesOk t :=
  step_induction h ⟨hs.regs, hs.pool, hs.cells, hs.scopes, hs.fresh⟩ fun _ => effect_keeps_handlesOk hs

/-- Settles O13: `step_keeps_handlesOk`. -/
theorem handlesStayWellFormed : Obligations.HandlesStayWellFormed := fun _ _ => step_keeps_handlesOk

end Sys2Proof.Proofs
end

section
/-! PROOFS of 20_memory.md section 4: the six capacities and the canonical form (R59); construction and reset. -/

namespace Sys2Proof.Proofs

open Sys2Proof.Machine

/-! Capacities (20_memory.md R59) -/

theorem within_mono {a b : Nat} {cap : Option Nat} (h : a ≤ b) (hb : Within b cap) : Within a cap := by
  cases cap with
  | none => trivial
  | some m => exact h.trans hb

theorem within_zero (cap : Option Nat) : Within 0 cap := by
  cases cap with
  | none => trivial
  | some m => exact Nat.zero_le m

theorem within_succ_of_fits {used : Nat} {cap : Option Nat} (h : fits used cap = true) : Within (used + 1) cap := by
  cases cap with
  | none => trivial
  | some m => exact Nat.succ_le_of_lt (of_decide_eq_true h)

section Maps
variable {κ β : Type} [DecidableEq κ] {order : κ → κ → Ordering}

/-- A write to a canonical map adds an entry at most, and none where the key is present. -/
theorem length_insertAt_le (ho : IsKeyOrder order) (k : κ) (v : β) {m : List (κ × β)} (hm : Rising order m) :
    (insertAt order k v m).length ≤ m.length + 1 := by
  cases hk : lookup k m with
  | none => exact (length_insertAt_absent ho v hk).le
  | some w => exact (length_insertAt_present ho v hm (by simp [hk])).le.trans (Nat.le_succ _)

end Maps

/-- A mapping after a write for which there was room. -/
theorem within_set {m : Mapping} {k : Str} {v : Value} {cap : Option Nat} (hm : Mapping.wf m) (hcap : Within m.length cap)
    (room : Mapping.has m k = true ∨ fits m.length cap = true) : Within (Mapping.set m k v).length cap := by
  rcases room with hpresent | hfits
  · exact within_mono (length_insertAt_present strOrder_isKeyOrder v hm hpresent).le hcap
  · exact within_mono (length_insertAt_le strOrder_isKeyOrder k v hm) (within_succ_of_fits hfits)

/-- The canonical mapping of an object of a canonical heap. -/
theorem mapping_wf_of_cell {m : Heap} {h : Nat} {o : Mapping} (hm : Heap.wf m) (ho : Heap.cell m h = some (.obj o)) :
    Mapping.wf o := by
  simpa [HeapCell.wf] using hm.2 _ (mem_of_lookup ho)

/-! The canonical form (log entry 8) -/

theorem effect_keeps_mapsCanonical {s t : State} (hs : MapsCanonical s) (h : Effect s t) : MapsCanonical t := by
  obtain ⟨hheap, hscopes⟩ := hs
  constructor
  · have hafter := effect_heapAfter h
    generalize t.heap = m, t.nextHandle = n at hafter
    cases hafter with
    | kept => exact hheap
    | allocated hc => exact heap_setCell_wf _ _ _ hheap (by rcases hc with rfl | rfl <;> rfl)
    | property k hr ho =>
      exact heap_setCell_wf _ _ _ hheap (decide_eq_true (mapping_set_wf _ _ _ (mapping_wf_of_cell hheap ho)))
    | element hr ha => exact heap_setCell_wf _ _ _ hheap rfl
  · intro m hm
    cases effect_scopeAfter h m hm with
    | empty => exact .nil
    | kept hm => exact hscopes m hm
    | written htop var => exact mapping_set_wf _ _ _ (hscopes _ htop)

/-! The capacities, one by one -/

section Capacities
variable {s t : State}

theorem effect_calls_within (hs : WithinCapacities s) (h : Effect s t) :
    Within t.callStack.length s.cfg.maxCallDepth := by
  cases h with
  | calls n room => exact within_succ_of_fits room
  | returns saved calls top below hc hsc => exact within_mono (by simp [hc]) hs.calls
  | _ => exact hs.calls

theorem effect_heap_within (hmap : MapsCanonical s) (hs : WithinCapacities s) (h : Effect s t) :
    Within t.heap.length s.cfg.maxHeapCells := by
  have hafter := effect_heapAfter h
  have hrising := hmap.1.1
  generalize t.heap = m, t.nextHandle = n at hafter
  cases hafter with
  | kept => exact hs.heap
  | allocated hc room =>
    exact within_mono (length_insertAt_le handleOrder_isKeyOrder _ _ hrising) (within_succ_of_fits room)
  | property k hr ho =>
    exact within_mono (length_insertAt_present handleOrder_isKeyOrder _ hrising (Option.isSome_of_eq_some ho)).le hs.heap
  | element hr ha =>
    exact within_mono (length_insertAt_present handleOrder_isKeyOrder _ hrising (Option.isSome_of_eq_some ha)).le hs.heap

/-- Every String that stands in the machine is within its capacity. -/
theorem stringWithin_of_holds (hs : WithinCapacities s) {v : Value} (hv : Holds s v) : StringWithin s.cfg v := by
  obtain ⟨r, hr, rfl⟩ | hpool | ⟨p, hp, hcell⟩ | ⟨m, hm, e, he, rfl⟩ := hv
  · exact hs.regs r hr
  · exact hs.pool v hpool
  · have hc := hs.cells p hp
    cases hpc : p.2 with
    | obj o =>
      rw [hpc] at hc hcell
      obtain ⟨e, he, rfl⟩ := hcell
      exact (hc.2 e he).2
    | arr a =>
      rw [hpc] at hc hcell
      exact hc.2 v hcell
  · exact (hs.scopes m hm).2 e he

/-- The longest String that an instruction makes is the nine bytes of a type name. -/
theorem stringWithin_of_supplied (hcfg : s.cfg.legal) (hs : WithinCapacities s) {v : Value} (hv : Supplied s v) :
    StringWithin s.cfg v := by
  rcases hv with hold | hshort
  · exact stringWithin_of_holds hs hold
  · cases v with
    | string u =>
      refine within_mono (hshort u rfl) ?_
      have hmin := hcfg.2
      cases hmax : s.cfg.maxStringBytes with
      | none => trivial
      | some m => exact hmin m hmax
    | _ => trivial

/-- The keys of an object stood in the machine, as keys of the object or as Strings. -/
theorem keysFrom_within (hs : WithinCapacities s) (hkeys : KeysFrom s t) {h : Nat} {o : Mapping}
    (ho : (h, HeapCell.obj o) ∈ t.heap) : ∀ e ∈ o, Within e.1.length s.cfg.maxStringBytes := by
  intro e he
  rcases hkeys h o ho e he with hheld | ⟨o', ho', e', he', heq⟩
  · exact stringWithin_of_holds hs hheld
  · exact heq ▸ ((hs.cells _ ho').2 e' he').1

/-- The number of entries and the Values of a cell; the keys of an object are `keysFrom_within`. -/
def CellSizeWithin (cfg : Config) : HeapCell → Prop
  | .obj o => Within o.length cfg.maxObjectKeys ∧ ∀ e ∈ o, StringWithin cfg e.2
  | .arr a => a.length ≤ cfg.maxArrayLen ∧ ∀ v ∈ a, StringWithin cfg v

theorem cellSizeWithin_of_cellWithin {cfg : Config} {c : HeapCell} (h : CellWithin cfg c) : CellSizeWithin cfg c := by
  cases c with
  | obj o => exact ⟨h.1, fun e he => (h.2 e he).2⟩
  | arr a => exact h

theorem effect_cellSizes_within (hmap : MapsCanonical s) (hs : WithinCapacities s) (h : Effect s t) :
    ∀ p ∈ t.heap, CellSizeWithin s.cfg p.2 := by
  have hold : ∀ p ∈ s.heap, CellSizeWithin s.cfg p.2 := fun p hp => cellSizeWithin_of_cellWithin (hs.cells p hp)
  have hafter := effect_heapAfter h
  generalize t.heap = m, t.nextHandle = n at hafter
  cases hafter with
  | kept => exact hold
  | allocated hc =>
    refine forall_mem_setCell hold ?_
    rcases hc with rfl | rfl
    · exact ⟨within_zero _, nofun⟩
    · exact ⟨Nat.zero_le _, nofun⟩
  | property k hr ho room =>
    obtain ⟨hlen, hvals⟩ := hold _ (mem_of_lookup ho)
    refine forall_mem_setCell hold ⟨within_set (mapping_wf_of_cell hmap.1 ho) hlen room, fun e he => ?_⟩
    rcases mem_insertAt he with rfl | he
    · exact hs.regs _ hr
    · exact hvals e he
  | element hr ha room =>
    obtain ⟨hlen, hvals⟩ := hold _ (mem_of_lookup ha)
    refine forall_mem_setCell hold ⟨by rw [length_writeElement]; exact max_le hlen room, fun v hv => ?_⟩
    rcases mem_writeElement hv with hv | rfl | rfl
    · exact hvals v hv
    · exact hs.regs _ hr
    · trivial

theorem effect_cells_within (hmap : MapsCanonical s) (hs : WithinCapacities s) (h : Effect s t) (hkeys : KeysFrom s t) :
    ∀ p ∈ t.heap, CellWithin s.cfg p.2 := by
  rintro ⟨i, c⟩ hp
  have hsize := effect_cellSizes_within hmap hs h _ hp
  cases c with
  | obj o => exact ⟨hsize.1, fun e he => ⟨keysFrom_within hs hkeys hp e he, hsize.2 e he⟩⟩
  | arr a => exact hsize

theorem effect_scopes_within (hmap : MapsCanonical s) (hs : WithinCapacities s) (h : Effect s t) :
    ∀ m ∈ t.scopes, Within m.length s.cfg.maxScopeEntries ∧ ∀ e ∈ m, StringWithin s.cfg e.2 := by
  intro m hm
  cases effect_scopeAfter h m hm with
  | empty => exact ⟨within_zero _, nofun⟩
  | kept hm => exact hs.scopes m hm
  | written htop var hv room =>
    obtain ⟨hlen, hvals⟩ := hs.scopes _ htop
    refine ⟨within_set (hmap.2 _ htop) hlen room, fun e he => ?_⟩
    rcases mem_insertAt he with rfl | he
    · rcases hv with rfl | ⟨r, hr, rfl⟩
      · trivial
      · exact hs.regs r hr
    · exact hvals e he

theorem frame_regs_within {i : Instr} (hcfg : s.cfg.legal) (hs : WithinCapacities s) (hf : Frame i s t) :
    ∀ r < numRegs, StringWithin s.cfg (t.reg r) := by
  intro r hr
  rcases hf.regs r hr with hkept | ⟨-, hnew⟩
  · exact hkept ▸ hs.regs r hr
  · exact stringWithin_of_supplied hcfg hs hnew

theorem effect_keeps_scopeKeysWithin (hs : ScopeKeysWithin s) (h : Effect s t) : ScopeKeysWithin t := by
  intro hkeys m hm e he
  rw [(effect_keeps_constants h).2.2] at hkeys ⊢
  cases effect_scopeAfter h m hm with
  | empty => cases he
  | kept hm => exact hs hkeys m hm e he
  | written htop var =>
    rcases mem_insertAt he with rfl | he
    · exact hkeys var
    · exact hs hkeys _ htop e he

theorem exec_keeps_withinCapacities {i : Instr} (hcfg : s.cfg.legal) (hmap : MapsCanonical s) (hs : WithinCapacities s)
    (h : exec i s = .next t) : WithinCapacities t := by
  have he := exec_effect h
  have hf := exec_frame h
  obtain ⟨-, hpool, hconfig⟩ := effect_keeps_constants he
  constructor
  all_goals rw [hconfig]
  · exact effect_calls_within hs he
  · exact effect_heap_within hmap hs he
  · exact effect_cells_within hmap hs he hf.keys
  · exact effect_scopes_within hmap hs he
  · exact frame_regs_within hcfg hs hf
  · exact hpool ▸ hs.pool

end Capacities

/-- Settles O14: halting and fatal conditions write nothing that the four invariants speak of; for an instruction its
effect gives the canonical form, and effect and frame together the capacities. -/
theorem capacitiesAndCanonicalFormHold : Obligations.CapacitiesAndCanonicalFormHold := by
  intro s t hcfg hmap hs hkeys h
  obtain ⟨-, ⟨-, rfl⟩ | ⟨c, rfl⟩ | ⟨i, -, hexec, heffect⟩⟩ := step_effect h
  · exact ⟨hcfg, hmap, ⟨hs.calls, hs.heap, hs.cells, hs.scopes, hs.regs, hs.pool⟩, hkeys⟩
  · exact ⟨hcfg, hmap, ⟨hs.calls, hs.heap, hs.cells, hs.scopes, hs.regs, hs.pool⟩, hkeys⟩
  · exact ⟨(effect_keeps_constants heffect).2.2 ▸ hcfg, effect_keeps_mapsCanonical hmap heffect,
      exec_keeps_withinCapacities hcfg hmap hs hexec, effect_keeps_scopeKeysWithin hkeys heffect⟩

/-! Construction and reset (20_memory.md section 4, 70_reset_and_hazards.md section 1) -/

section Construct
variable (prog : Program) {pool : List Value} {heap0 : Heap} {cfg : Config}

/-- The one scope that construction leaves has no entry. -/
theorem forall_construct_scopes {P : Mapping → Prop} (h : P []) : ∀ m ∈ (State.construct prog pool heap0 cfg).scopes, P m :=
  List.forall_mem_singleton.mpr h

theorem construct_handlesOk (h : InputOk pool heap0) : HandlesOk (State.construct prog pool heap0 cfg) where
  regs r hr := by rw [construct_reg prog pool heap0 cfg hr]; trivial
  pool := h.pool
  cells := h.cells
  scopes := forall_construct_scopes prog nofun
  fresh _ := handle_lt_handleBound

theorem construct_withinCapacities (hheap : Within heap0.length cfg.maxHeapCells) (hcells : ∀ p ∈ heap0, CellWithin cfg p.2)
    (hpool : ∀ v ∈ pool, StringWithin cfg v) : WithinCapacities (State.construct prog pool heap0 cfg) where
  calls := within_zero _
  heap := hheap
  cells := hcells
  scopes := forall_construct_scopes prog ⟨within_zero _, nofun⟩
  regs r hr := by rw [construct_reg prog pool heap0 cfg hr]; trivial
  pool := hpool

end Construct

/-- Settles O18: the input gives the invariants of pool and heap; registers, scopes and stacks are empty. -/
theorem constructionMeetsEveryInvariant : Obligations.ConstructionMeetsEveryInvariant := by
  intro prog pool heap0 cfg hin hwf hheap hcells hpool s
  exact ⟨construct_handlesOk prog hin, ⟨hwf, forall_construct_scopes prog .nil⟩,
    construct_withinCapacities prog hheap hcells hpool, fun _ => forall_construct_scopes prog nofun,
    forall_construct_scopes prog nofun, rfl, faultRecordStaysHonest.1 prog pool heap0 cfg,
    construct_countersBounded pool heap0 cfg⟩

/-- Settles O17: the reset state is a construction, from inputs that are empty and so well formed. -/
theorem resetMeetsEveryInvariant : Obligations.ResetMeetsEveryInvariant := by
  obtain ⟨hhandles, hmaps, hwithin, hkeysWithin, hkeys, hstacks, hrecord, hcounters⟩ :=
    constructionMeetsEveryInvariant (.wordForm []) [] [] Config.defaults ⟨fun _ => rfl, nofun, nofun⟩
      ⟨.nil, nofun⟩ (within_zero _) nofun nofun
  exact ⟨hstacks, hcounters (Nat.zero_le _), hhandles, hmaps, hwithin, hkeysWithin, hrecord, hkeys,
    by simp [Config.legal, State.reset, State.construct, Config.defaults]⟩

end Sys2Proof.Proofs
end

section
/-! PROOFS of 10_state.md section 5: no rule reads `STRICT`. -/

namespace Sys2Proof.Proofs

open Sys2Proof.Machine

/-- The state with another value of the flag. -/
def withStrict (b : Bool) (s : State) : State := { s with strict := b }

/-- The answer with another value of the flag in its next state. -/
def mapStrict (b : Bool) : Result → Result
  | .next t => .next (withStrict b t)
  | .fault r => .fault r
  | .refused r => .refused r

/-! Allocation on the two sides of `MAX_HEAP_CELLS` (20_memory.md R46, R59) -/

theorem alloc_room {s : State} {c : HeapCell} (h : fits s.heap.length s.cfg.maxHeapCells = true) :
    s.alloc c = some (s.nextHandle, { s.setCell s.nextHandle c with nextHandle := s.nextHandle + 1 }) := if_pos h

theorem alloc_full {s : State} {c : HeapCell} (h : ¬ fits s.heap.length s.cfg.maxHeapCells = true) :
    s.alloc c = none := if_neg h

/-! What the instructions read is the same under another flag. -/

section Blind
variable (b : Bool) (s : State)

@[simp] theorem withStrict_reg (r : Nat) : (withStrict b s).reg r = s.reg r := rfl
@[simp] theorem withStrict_pool : (withStrict b s).pool = s.pool := rfl
@[simp] theorem withStrict_heap : (withStrict b s).heap = s.heap := rfl
@[simp] theorem withStrict_callStack : (withStrict b s).callStack = s.callStack := rfl
@[simp] theorem withStrict_scopes : (withStrict b s).scopes = s.scopes := rfl
@[simp] theorem withStrict_cfg : (withStrict b s).cfg = s.cfg := rfl

end Blind

/-! The shared operations: the answer under another flag is the answer with that flag, if the continuation's is. -/

section Blind
variable {b : Bool} {s : State}

theorem blind_ite {p : Prop} [Decidable p] {k k' l l' : Result} (hk : k' = mapStrict b k) (hl : l' = mapStrict b l) :
    (if p then k' else l') = mapStrict b (if p then k else l) := by
  rw [hk, hl, apply_ite (mapStrict b)]

theorem blind_withRegisters {used : List Nat} {k k' : Result} (hk : k' = mapStrict b k) :
    withRegisters used (withStrict b s) k' = mapStrict b (withRegisters used s k) :=
  blind_ite hk rfl

theorem blind_withNumbers {x y : Nat} {k k' : F64 → F64 → Result} (hk : ∀ f g, k' f g = mapStrict b (k f g)) :
    withNumbers (withStrict b s) x y k' = mapStrict b (withNumbers s x y k) := by
  simp only [withNumbers, withStrict_reg]
  split
  · exact hk _ _
  · rfl

theorem blind_withObjectKey {obj key : Nat} {k k' : Nat → Str → Result} (hk : ∀ h u, k' h u = mapStrict b (k h u)) :
    withObjectKey (withStrict b s) obj key k' = mapStrict b (withObjectKey s obj key k) := by
  simp only [withObjectKey, withStrict_reg]
  split
  · exact hk _ _
  · rfl

theorem blind_withArrayPosition {arr idx : Nat} {k k' : Nat → Nat → Result} (hk : ∀ h p, k' h p = mapStrict b (k h p)) :
    withArrayPosition (withStrict b s) arr idx k' = mapStrict b (withArrayPosition s arr idx k) := by
  simp only [withArrayPosition, withStrict_reg]
  split
  · split
    · exact hk _ _
    · rfl
  · rfl

theorem blind_withObject {h : Nat} {k k' : Mapping → Result} (hk : ∀ m, k' m = mapStrict b (k m)) :
    withObject (withStrict b s) h k' = mapStrict b (withObject s h k) := by
  simp only [withObject, withStrict_heap]
  split
  · exact hk _
  · rfl
  · rfl

theorem blind_withArray {h : Nat} {k k' : List Value → Result} (hk : ∀ a, k' a = mapStrict b (k a)) :
    withArray (withStrict b s) h k' = mapStrict b (withArray s h k) := by
  simp only [withArray, withStrict_heap]
  split
  · exact hk _
  · rfl
  · rfl

theorem blind_withTopScope {k k' : Mapping → List Mapping → Result} (hk : ∀ top below, k' top below = mapStrict b (k top below)) :
    withTopScope (withStrict b s) k' = mapStrict b (withTopScope s k) := by
  simp only [withTopScope, withStrict_scopes]
  split
  · rfl
  · exact hk _ _

theorem blind_writeFloat (dst : Nat) (r : FloatResult) :
    ((withStrict b s).writeFloat dst r).advance = withStrict b (s.writeFloat dst r).advance := by
  cases r <;> rfl

theorem blind_binaryArith (op : F64 → F64 → FloatResult) (dst x y : Nat) :
    binaryArith op dst x y (withStrict b s) = mapStrict b (binaryArith op dst x y s) :=
  blind_withRegisters <| blind_withNumbers fun _ _ => congrArg _ (blind_writeFloat dst _)

theorem blind_ordered (holds : ValueOrder → Bool) (x y : Nat) :
    ordered holds x y (withStrict b s) = mapStrict b (ordered holds x y s) := by
  refine blind_withRegisters ?_
  simp only [withStrict_reg, withStrict_cfg]
  split
  · rfl
  · split <;> rfl
  · rfl

theorem blind_newAggregate (c : HeapCell) (make : Nat → Value) (dst : Nat) :
    newAggregate c make dst (withStrict b s) = mapStrict b (newAggregate c make dst s) := by
  refine blind_withRegisters ?_
  by_cases hroom : fits s.heap.length s.cfg.maxHeapCells = true
  · rw [alloc_room hroom, alloc_room (s := withStrict b s) hroom]
    rfl
  · rw [alloc_full hroom, alloc_full (s := withStrict b s) hroom]
    rfl

theorem blind_writeScope (var : U32) (v : Value) :
    writeScope var v (withStrict b s) = mapStrict b (writeScope var v s) := by
  refine blind_withTopScope fun top below => ?_
  simp only [withStrict_cfg]
  split <;> rfl

end Blind

/-- No instruction reads the flag, and all but `UseStrict` leave it as it was. -/
theorem exec_blind {i : Instr} (hi : i ≠ .useStrict) (b : Bool) (s : State) :
    exec i (withStrict b s) = mapStrict b (exec i s) := by
  cases i with
  | loadConst dst k =>
    refine blind_withRegisters ?_
    simp only [withStrict_pool]
    split <;> rfl
  | add | sub | mul | div | mod | pow => exact blind_binaryArith ..
  | neg dst src =>
    refine blind_withRegisters ?_
    simp only [withStrict_reg]
    split <;> rfl
  | lt | le => exact blind_ordered ..
  | jmp off => rfl
  | jmpIf cond off =>
    refine blind_withRegisters ?_
    simp only [withStrict_reg]
    split <;> rfl
  | call func argc =>
    refine blind_withRegisters ?_
    simp only [withStrict_reg, withStrict_callStack, withStrict_cfg]
    split
    · exact blind_ite rfl rfl
    · rfl
  | ret start count =>
    simp only [exec, execReturn, withStrict_callStack, withStrict_scopes]
    split
    · rfl
    · split <;> rfl
  | newObject | newArray => exact blind_newAggregate ..
  | getProp dst obj key => exact blind_withRegisters <| blind_withObjectKey fun _ _ => blind_withObject fun _ => rfl
  | setProp obj key val =>
    refine blind_withRegisters <| blind_withObjectKey fun _ _ => blind_withObject fun _ => ?_
    simp only [withStrict_cfg, withStrict_reg]
    split <;> rfl
  | getElem dst arr idx => exact blind_withRegisters <| blind_withArrayPosition fun _ _ => blind_withArray fun _ => rfl
  | setElem arr idx val =>
    exact blind_withRegisters <| blind_withArrayPosition fun _ _ => blind_ite (blind_withArray fun _ => rfl) rfl
  | getScope dst var =>
    refine blind_withRegisters <| blind_withTopScope fun _ _ => ?_
    simp only [withStrict_cfg]
    split
    · rfl
    · split <;> rfl
  | setScope var src => exact blind_withRegisters (blind_writeScope var _)
  | declareVar var => exact blind_writeScope var _
  | useStrict => exact absurd rfl hi
  | loadUndef | loadNull | loadBool | move | eq | closure | typeOf | instanceOf | declareFunc =>
    exact blind_withRegisters rfl

/-- So does the step: the fetch reads the program and the counter. -/
theorem step_withStrict (b : Bool) (s t : State) (h : step s = .next t) :
    ∃ c : Bool, step (withStrict b s) = .next (withStrict c t) := by
  obtain ⟨hrun, -⟩ := step_effect h
  have hrun' : (withStrict b s).run = .running := hrun
  have hfetch' : fetch (withStrict b s) = fetch s := rfl
  cases hf : fetch s with
  | endOfProgram =>
    rw [step_endOfProgram hrun hf] at h
    exact ⟨b, by rw [step_endOfProgram hrun' (hfetch'.trans hf), next_inj h]; rfl⟩
  | outOfRange =>
    rw [step_outOfRange hrun hf, raise_next] at h
    exact ⟨b, by rw [step_outOfRange hrun' (hfetch'.trans hf), ← h]; rfl⟩
  | illegal e =>
    rw [step_illegal hrun hf, raise_next] at h
    exact ⟨b, by rw [step_illegal hrun' (hfetch'.trans hf), ← h]; rfl⟩
  | instruction i =>
    rw [step_instruction hrun hf] at h
    rw [step_instruction hrun' (hfetch'.trans hf)]
    by_cases hi : i = .useStrict
    · subst hi
      exact ⟨true, by rw [next_inj h]; rfl⟩
    · exact ⟨b, by rw [exec_blind hi, h]; rfl⟩

/-- Settles O21: `step_withStrict`. -/
theorem strictFlagIsNeverRead : Obligations.StrictFlagIsNeverRead := fun s t b h => step_withStrict b s t h

end Sys2Proof.Proofs
end

section
/-! PROOFS of 70_reset_and_hazards.md section 2: the run (R214). -/

namespace Sys2Proof.Proofs

open Sys2Proof.Machine

/-! The loop, one equation per case -/

theorem runFor_halted {s : State} (h : s.run ≠ .running) (fuel : Nat) : runFor fuel s = .next s := by
  cases fuel with
  | zero => rfl
  | succ fuel =>
    unfold runFor
    split
    · next hrun => exact absurd hrun h
    · rfl
    · rfl

theorem runFor_step {s t : State} (hrun : s.run = .running) (h : step s = .next t) (fuel : Nat) :
    runFor (fuel + 1) s = runFor fuel t := by
  simp [runFor, hrun, h]

/-- A run that reached a state under `n` steps goes on from there. -/
theorem runFor_add {s t : State} {n : Nat} (h : runFor n s = .next t) (k : Nat) : runFor (n + k) s = runFor k t := by
  induction n generalizing s with
  | zero => rw [next_inj h, Nat.zero_add]
  | succ n ih =>
    by_cases hrun : s.run = .running
    · cases hstep : step s with
      | next u =>
        rw [runFor_step hrun hstep] at h
        rw [Nat.succ_add, runFor_step hrun hstep, ih h]
      | fault r => simp [runFor, hrun, hstep] at h
      | refused r => simp [runFor, hrun, hstep] at h
    · rw [runFor_halted hrun] at h
      rw [next_inj h, runFor_halted hrun, runFor_halted hrun]

/-- A run ends in one state at most: more fuel keeps the state in which it ended. -/
theorem runsTo_unique {s t u : State} (ht : RunsTo s t) (hu : RunsTo s u) : t = u := by
  obtain ⟨n, hn, hthalt⟩ := ht
  obtain ⟨k, hk, huhalt⟩ := hu
  have h₁ := (runFor_add hn k).trans (runFor_halted hthalt k)
  have h₂ := (runFor_add hk n).trans (runFor_halted huhalt n)
  rw [Nat.add_comm, h₁] at h₂
  exact (next_inj h₂).symm

/-! How a run ends -/

/-- A step that halts the engine does so normally at `PROG_LEN` and by a fatal condition elsewhere. -/
theorem step_halts {s t : State} (h : step s = .next t) (ht : t.run ≠ .running) :
    (t.run = .haltedOk ↔ t.pc = t.prog.length) ∧
    (t.run = .haltedFault → (∃ c : Cause, t.faultCause = c.code) ∧ t.faultPc = t.pc) := by
  have hrun := (step_effect h).1
  by_cases hend : s.pc = s.prog.length
  · rw [step_endOfProgram hrun (fetch_at_end hend)] at h
    rw [next_inj h]
    exact ⟨iff_of_true rfl hend, nofun⟩
  · obtain ⟨c, rfl⟩ := step_haltedFault h ((step_inside h hend).resolve_left ht)
    exact ⟨iff_of_false nofun hend, fun _ => ⟨⟨c, rfl⟩, rfl⟩⟩

/-- What holds of the state after every halting step holds at the end of every run. -/
theorem runFor_ends {s t : State} {n : Nat} (hrun : s.run = .running) (h : runFor n s = .next t) (ht : t.run ≠ .running) :
    ∃ u, step u = .next t := by
  induction n generalizing s with
  | zero => exact absurd (next_inj h ▸ hrun) ht
  | succ n ih =>
    cases hstep : step s with
    | next u =>
      rw [runFor_step hrun hstep] at h
      by_cases hu : u.run = .running
      · exact ih hu h
      · rw [runFor_halted hu] at h
        exact ⟨s, next_inj h ▸ hstep⟩
    | fault r => simp [runFor, hrun, hstep] at h
    | refused r => simp [runFor, hrun, hstep] at h

/-- From well-formed handles no step of a run is refused. -/
theorem runFor_total {s : State} (hs : HandlesOk s) (fuel : Nat) : ∃ t, runFor fuel s = .next t ∧ HandlesOk t := by
  induction fuel generalizing s with
  | zero => exact ⟨s, rfl, hs⟩
  | succ fuel ih =>
    by_cases hrun : s.run = .running
    · obtain ⟨u, hu⟩ := step_total hs hrun
      rw [runFor_step hrun hu]
      exact ih (step_keeps_handlesOk hs hu)
    · exact ⟨s, runFor_halted hrun _, hs⟩

/-- Settles O60: the two equations of the loop, one end at most, and the last step decides how the run ended. -/
theorem runLoopsUntilHalted : Obligations.RunLoopsUntilHalted := by
  refine ⟨fun _ fuel hs => runFor_halted hs fuel, fun _ _ fuel hrun hstep => runFor_step hrun hstep fuel,
    fun _ _ _ => runsTo_unique, fun s t hrun ⟨n, hn, ht⟩ => ?_, fun _ fuel hs => runFor_total hs fuel⟩
  obtain ⟨u, hu⟩ := runFor_ends hrun hn ht
  exact step_halts hu ht

end Sys2Proof.Proofs
end

section
/-! PROOFS of 40_load_move.md, 43_control.md and 46_type.md: loads and moves, control transfer, type tags. -/

namespace Sys2Proof.Proofs

open Sys2Proof.Machine

/-- A register write followed by the increment is what `WritesValue` says. -/
theorem writesValue_of_exec {i : Instr} {s : State} {dst : Nat} {v : Value}
    (h : exec i s = .next (s.setReg dst v).advance) : WritesValue i s dst v := h

/-- A fatal condition is what `Traps` says of its cause code (60_exceptions.md R181, R182). -/
theorem traps_of_raise {i : Instr} {s : State} (c : Cause) (h : exec i s = raise c s) : Traps i s c.code := h

/-! A fatal condition ends the run, so an instruction after which the engine runs has not raised one. -/

theorem not_raise_running {s t : State} {c : Cause} (h : raise c s = .next t) : t.run ≠ .running := by
  rw [raise_next] at h
  exact h ▸ not_running_enterFatal

theorem running_withRegisters {used : List Nat} {s t : State} {k : Result} (h : withRegisters used s k = .next t)
    (ht : t.run = .running) : (∀ r ∈ used, r < numRegs) ∧ k = .next t := by
  rcases withRegisters_next h with hk | rfl
  · exact hk
  · exact absurd ht not_running_enterFatal

/-! Loads and moves (40_load_move.md R81 to R84) -/

/-- Settles O29: each of the four is a register write behind the check of its registers. -/
theorem loadsAndMoveWriteOneRegister : Obligations.LoadsAndMoveWriteOneRegister := by
  intro s dst src b hd hs
  have hdst : ∀ r ∈ [dst], r < numRegs := by simpa using hd
  exact ⟨writesValue_of_exec (withRegisters_ok hdst), writesValue_of_exec (withRegisters_ok hdst),
    writesValue_of_exec (withRegisters_ok hdst), writesValue_of_exec (withRegisters_ok (by simp [hd, hs]))⟩

/-! Control transfer (43_control.md R125 to R128) -/

section Control
variable {s : State} {cond func : Nat} {off : U32} {argc : Byte}

theorem exec_jmp : exec (.jmp off) s = .next (s.jumpTo (s.pc + off.toInt)) := rfl

theorem exec_jmpIf_taken (hc : cond < numRegs) (h : s.reg cond = .boolean true) :
    exec (.jmpIf cond off) s = .next (s.jumpTo (s.pc + off.toInt)) := by
  rw [exec, execJmpIf, withRegisters_ok (by simpa using hc), h]
  rfl

theorem exec_jmpIf_falls (hc : cond < numRegs) (h : s.reg cond ≠ .boolean true) :
    exec (.jmpIf cond off) s = .next s.advance := by
  rw [exec, execJmpIf, withRegisters_ok (by simpa using hc)]
  split
  · next htrue => exact absurd htrue h
  · rfl

theorem hasRoom_iff {used : Nat} {cap : Option Nat} : HasRoom used cap ↔ fits used cap = true := fits_iff.symm

theorem exec_call_room {n : U32} (hf : func < numRegs) (h : s.reg func = .function n)
    (room : HasRoom s.callStack.length s.cfg.maxCallDepth) :
    exec (.call func argc) s = .next (s.pushFrame.jumpTo (n.toNat : Int)) := by
  rw [exec, execCall, withRegisters_ok (by simpa using hf), h]
  exact if_pos (hasRoom_iff.mp room)

theorem exec_call_full {n : U32} (hf : func < numRegs) (h : s.reg func = .function n)
    (full : ¬ HasRoom s.callStack.length s.cfg.maxCallDepth) :
    exec (.call func argc) s = raise .resourceExhausted s := by
  rw [exec, execCall, withRegisters_ok (by simpa using hf), h]
  exact if_neg (mt hasRoom_iff.mpr full)

theorem exec_call_mismatch (hf : func < numRegs) (h : ∀ n, s.reg func ≠ .function n) :
    exec (.call func argc) s = raise .typeMismatchCall s := by
  rw [exec, execCall, withRegisters_ok (by simpa using hf)]
  split
  · next n hn => exact absurd hn (h n)
  · rfl

/-- A call after which the engine runs has pushed both stacks. -/
theorem exec_call_running {t : State} (h : exec (.call func argc) s = .next t) (ht : t.run = .running) :
    ∃ n : U32, t = s.pushFrame.jumpTo (n.toNat : Int) := by
  obtain ⟨hregs, -⟩ := running_withRegisters h ht
  have hf : func < numRegs := hregs func (by simp)
  by_cases hfun : ∃ n, s.reg func = .function n
  · obtain ⟨n, hn⟩ := hfun
    by_cases room : HasRoom s.callStack.length s.cfg.maxCallDepth
    · rw [exec_call_room hf hn room] at h
      exact ⟨n, next_inj h⟩
    · rw [exec_call_full hf hn room] at h
      exact absurd ht (not_raise_running h)
  · rw [exec_call_mismatch hf (not_exists.mp hfun)] at h
    exact absurd ht (not_raise_running h)

variable {start : Nat} {count : Byte}

theorem exec_ret_pops {saved : Int} {calls : List Int} {top : Mapping} {below : List Mapping}
    (hc : s.callStack = saved :: calls) (hs : s.scopes = top :: below) :
    exec (.ret start count) s = .next ((s.withStacks calls below).jumpTo saved) := by
  simp only [exec, execReturn, hc, hs]

theorem exec_ret_noCall (hc : s.callStack = []) : exec (.ret start count) s = raise .stackUnderflow s := by
  simp only [exec, execReturn, hc]

theorem exec_ret_noScope (hc : s.callStack ≠ []) (hs : s.scopes = []) :
    exec (.ret start count) s = raise .scopeEmpty s := by
  obtain ⟨saved, calls, hcons⟩ := List.exists_cons_of_ne_nil hc
  simp only [exec, execReturn, hcons, hs]

end Control

/-- Settles O42: `Jmp`, and the two cases of `JmpIf`. -/
theorem jumpsMoveTheCounter : Obligations.JumpsMoveTheCounter :=
  fun _ _ _ hc => ⟨exec_jmp, exec_jmpIf_taken hc, exec_jmpIf_falls hc⟩

/-- Settles O43: the three cases of `Call`. -/
theorem callPushesBothStacks : Obligations.CallPushesBothStacks :=
  fun _ _ _ hf => ⟨fun _ hn => ⟨exec_call_room hf hn, fun full => traps_of_raise .resourceExhausted (exec_call_full hf hn full)⟩,
    fun hmis => traps_of_raise .typeMismatchCall (exec_call_mismatch hf hmis)⟩

/-- Settles O44: the three cases of `Return`. -/
theorem returnPopsBothStacks : Obligations.ReturnPopsBothStacks :=
  fun _ _ _ => ⟨fun _ _ _ _ hc hs => exec_ret_pops hc hs, fun hc => traps_of_raise .stackUnderflow (exec_ret_noCall hc),
    fun hc hs => traps_of_raise .scopeEmpty (exec_ret_noScope hc hs)⟩

/-- Settles O27: the frame on top is the call's own index above the stack as it was, and the scopes below the callee's are
the caller's. -/
theorem returnUndoesCall : Obligations.ReturnUndoesCall := by
  intro s t u func start argc count m _ h ht hcalls hscopes
  obtain ⟨n, rfl⟩ := exec_call_running h ht
  exact exec_ret_pops hcalls hscopes

/-! Type tags (46_type.md R171, R172, R174) -/

section Types
variable {s : State} {dst src obj ctor : Nat}

theorem exec_typeOf (hd : dst < numRegs) (hs : src < numRegs) :
    exec (.typeOf dst src) s = .next (s.setReg dst (.string (typeName (s.reg src)))).advance :=
  withRegisters_ok (by simp [hd, hs])

theorem exec_instanceOf (hd : dst < numRegs) (ho : obj < numRegs) (hc : ctor < numRegs) :
    exec (.instanceOf dst obj ctor) s =
      .next (s.setReg dst (.boolean (isInstance (s.reg obj) (s.reg ctor)))).advance :=
  withRegisters_ok (by simp [hd, ho, hc])

theorem isInstance_iff {v w : Value} :
    isInstance v w = true ↔ ((∃ h, v = .object h) ∨ ∃ h, v = .array h) ∧ ∃ n, w = .function n := by
  cases v with
  | object h => cases w <;> simp [isInstance]
  | array h => cases w <;> simp [isInstance]
  | _ => simp [isInstance]

end Types

/-- Settles O57: each variant's name, byte by byte. -/
theorem typeOfWritesTheTypeName : Obligations.TypeOfWritesTheTypeName := by
  intro s dst src hd hs writes
  have hname {v : Value} {name : String} (hv : s.reg src = v)
      (hn : typeName v = name.toList.map fun c => BitVec.ofNat 8 c.toNat) : writes name :=
    writesValue_of_exec (by rw [exec_typeOf hd hs, hv, hn])
  exact ⟨fun h => hname h rfl, fun h => hname h rfl, fun _ h => hname h rfl, fun _ h => hname h rfl,
    fun _ h => hname h rfl, fun _ h => hname h rfl, fun _ h => hname h rfl, fun _ h => hname h rfl⟩

/-- Settles O58: `InstanceOf` writes `isInstance`. -/
theorem instanceOfTestsTheTagPair : Obligations.InstanceOfTestsTheTagPair :=
  fun _ _ _ _ hd ho hc => ⟨_, writesValue_of_exec (exec_instanceOf hd ho hc), isInstance_iff⟩

end Sys2Proof.Proofs
end

section
/-! PROOFS of 44_aggregate.md: objects and arrays. -/

namespace Sys2Proof.Proofs

open Sys2Proof.Machine

/-! Allocation (44_aggregate.md R140, R141) -/

section Allocate
variable {s : State} {c : HeapCell} {make : Nat → Value} {dst : Nat}

theorem newAggregate_room (hd : dst < numRegs) (room : HasRoom s.heap.length s.cfg.maxHeapCells) :
    newAggregate c make dst s = .next
      (State.setReg { s.setCell s.nextHandle c with nextHandle := s.nextHandle + 1 } dst (make s.nextHandle)).advance := by
  rw [newAggregate, withRegisters_ok (by simpa using hd), alloc_room (hasRoom_iff.mp room)]

theorem newAggregate_full (hd : dst < numRegs) (full : ¬ HasRoom s.heap.length s.cfg.maxHeapCells) :
    newAggregate c make dst s = raise .resourceExhausted s := by
  rw [newAggregate, withRegisters_ok (by simpa using hd), alloc_full (mt hasRoom_iff.mpr full)]

/-- The heap with the new cell. -/
theorem newAggregate_heap (hd : dst < numRegs) (room : HasRoom s.heap.length s.cfg.maxHeapCells) :
    ∃ heap', Heap.cell heap' s.nextHandle = some c ∧
      (∀ h, h ≠ s.nextHandle → Heap.cell heap' h = Heap.cell s.heap h) ∧
      newAggregate c make dst s = .next { s with
        regs := s.regs.setIfInBounds dst (make s.nextHandle), heap := heap', nextHandle := s.nextHandle + 1,
        pc := s.pc + 1 } :=
  ⟨_, cell_setCell_same _ _ _, fun _ => cell_setCell_other _ _, newAggregate_room hd room⟩

/-- An allocation after which the engine runs had its register in range and room. -/
theorem newAggregate_running {t : State} (h : newAggregate c make dst s = .next t) (ht : t.run = .running) :
    dst < numRegs ∧ t.reg dst = make s.nextHandle ∧ t.nextHandle = s.nextHandle + 1 ∧
      ∀ r, r ≠ dst → t.reg r = s.reg r := by
  obtain ⟨hregs, -⟩ := running_withRegisters h ht
  have hd : dst < numRegs := hregs dst (by simp)
  by_cases room : HasRoom s.heap.length s.cfg.maxHeapCells
  · rw [newAggregate_room hd room] at h
    rw [next_inj h]
    exact ⟨hd, reg_setReg_same _ _ hd, rfl, fun r hr => reg_setReg_other _ _ hr⟩
  · rw [newAggregate_full hd room] at h
    exact absurd ht (not_raise_running h)

end Allocate

/-- Settles O45: `newAggregate_heap` and `newAggregate_full`, for each kind of cell. -/
theorem newAggregatesAllocate : Obligations.NewAggregatesAllocate :=
  fun _ _ hd => ⟨fun room => ⟨newAggregate_heap hd room, newAggregate_heap hd room⟩,
    fun full => ⟨newAggregate_full hd full, newAggregate_full hd full⟩⟩

/-- At a handle without a cell no Value of the machine points. -/
theorem not_holds_fresh {s : State} (hs : HandlesOk s) :
    ¬ Holds s (.object s.nextHandle) ∧ ¬ Holds s (.array s.nextHandle) := by
  have hnone := cell_fresh hs.fresh
  refine ⟨fun h => ?_, fun h => ?_⟩
  · obtain ⟨o, ho⟩ := handleOk_of_holds hs h
    simp [hnone] at ho
  · obtain ⟨a, ha⟩ := handleOk_of_holds hs h
    simp [hnone] at ha

/-- An instruction that allocates, with the variant it makes. -/
theorem allocator_spec {i : Nat → Instr} (hi : i = .newObject ∨ i = .newArray) :
    ∃ (c : HeapCell) (make : Nat → Value), (make = .object ∨ make = .array) ∧
      ∀ r s, exec (i r) s = newAggregate c make r s := by
  rcases hi with rfl | rfl
  · exact ⟨.obj [], .object, .inl rfl, fun _ _ => rfl⟩
  · exact ⟨.arr [], .array, .inr rfl, fun _ _ => rfl⟩

/-- Aggregates with different handles are not equal, whatever their variants (42_compare.md R105). -/
theorem veq_aggregates {make make' : Nat → Value} (hm : make = .object ∨ make = .array)
    (hm' : make' = .object ∨ make' = .array) {h h' : Nat} (hne : h ≠ h') : veq (make h) (make' h') = false := by
  rcases hm with rfl | rfl <;> rcases hm' with rfl | rfl <;> simp [veq, hne]

/-- Settles O26: a handle that is made is `NEXT_HANDLE`, which has no cell, and the next one made is one more. -/
theorem allocatedObjectsAreDistinct : Obligations.AllocatedObjectsAreDistinct := by
  refine ⟨fun s t dst hs _ => ⟨fun h ht => ?_, fun h ht => ?_⟩, ?_⟩
  · exact ⟨_, (newAggregate_running h ht).2.1, cell_fresh hs.fresh, not_holds_fresh hs⟩
  · exact ⟨_, (newAggregate_running h ht).2.1, cell_fresh hs.fresh, not_holds_fresh hs⟩
  · intro s t u v i j r q hi hj hne _ hti ht huj hu hv
    obtain ⟨c, make, hmake, hexec⟩ := allocator_spec hi
    obtain ⟨c', make', hmake', hexec'⟩ := allocator_spec hj
    rw [hexec] at hti
    rw [hexec'] at huj
    obtain ⟨hr, hreg, hnext, -⟩ := newAggregate_running hti ht
    obtain ⟨hq, hreg', -, hkept⟩ := newAggregate_running huj hu
    have hfalse : veq (u.reg r) (u.reg q) = false := by
      rw [hkept r hne, hreg, hreg', hnext]
      exact veq_aggregates hmake hmake' (Nat.ne_of_lt (Nat.lt_succ_self _))
    rw [exec_eq hr hq, hfalse] at hv
    rw [next_inj hv]
    exact reg_setReg_same u _ (by decide)

/-! The operand checks (44_aggregate.md R142 to R147) -/

section Access
variable {s : State} {p q r h n : Nat} {k : Str} {f : F64}

theorem inRange (hp : p < numRegs) (hq : q < numRegs) (hr : r < numRegs) : ∀ x ∈ [p, q, r], x < numRegs := by
  simp [hp, hq, hr]

theorem position_eq_none (hf : ¬ ∃ n, IndexNames f n) : position f = none :=
  Option.eq_none_iff_forall_ne_some.mpr fun n hn => hf ⟨n, position_iff.mp hn⟩

theorem withArrayPosition_badIndex {arr idx : Nat} {k : Nat → Nat → Result} (ha : s.reg arr = .array h)
    (hi : s.reg idx = .number f) (hf : ¬ ∃ n, IndexNames f n) : withArrayPosition s arr idx k = raise .badIndex s := by
  simp [withArrayPosition, ha, hi, position_eq_none hf]

theorem withObject_dangling {k : Mapping → Result} (hc : ∀ m, Heap.cell s.heap h ≠ some (.obj m)) :
    withObject s h k = .refused .illFormedHeap :=
  withObject_elim (Q := (· = _)) (fun m hm => absurd hm (hc m)) fun _ => rfl

theorem withArray_dangling {k : List Value → Result} (hc : ∀ a, Heap.cell s.heap h ≠ some (.arr a)) :
    withArray s h k = .refused .illFormedHeap :=
  withArray_elim (Q := (· = _)) (fun a ha => absurd ha (hc a)) fun _ => rfl

/-! With the operands of the right variants the instructions reach the cell. -/

theorem exec_getProp_reaches (hp : p < numRegs) (hq : q < numRegs) (hr : r < numRegs) (ho : s.reg q = .object h)
    (hk : s.reg r = .string k) :
    exec (.getProp p q r) s =
      withObject s h fun m => .next (s.setReg p ((Mapping.get m k).getD .undefined)).advance := by
  rw [exec, execGetProp, withRegisters_ok (inRange hp hq hr), withObjectKey_ok ho hk]

theorem exec_setProp_dangling (hp : p < numRegs) (hq : q < numRegs) (hr : r < numRegs) (ho : s.reg p = .object h)
    (hk : s.reg q = .string k) (hc : ∀ m, Heap.cell s.heap h ≠ some (.obj m)) :
    exec (.setProp p q r) s = .refused .illFormedHeap := by
  rw [exec, execSetProp, withRegisters_ok (inRange hp hq hr), withObjectKey_ok ho hk, withObject_dangling hc]

theorem exec_getElem_reaches (hp : p < numRegs) (hq : q < numRegs) (hr : r < numRegs) (ha : s.reg q = .array h)
    (hi : s.reg r = .number f) (hn : IndexNames f n) :
    exec (.getElem p q r) s = withArray s h fun a => .next (s.setReg p (a[n]?.getD .undefined)).advance := by
  rw [exec, execGetElem, withRegisters_ok (inRange hp hq hr), withArrayPosition_ok ha hi (position_iff.mpr hn)]

theorem exec_setElem_reaches (hp : p < numRegs) (hq : q < numRegs) (hr : r < numRegs) (ha : s.reg p = .array h)
    (hi : s.reg q = .number f) (hn : IndexNames f n) (room : n < s.cfg.maxArrayLen) :
    exec (.setElem p q r) s = withArray s h fun a => .next (s.setCell h (.arr (writeElement a n (s.reg r)))).advance := by
  rw [exec, execSetElem, withRegisters_ok (inRange hp hq hr), withArrayPosition_ok ha hi (position_iff.mpr hn)]
  exact if_pos room

theorem exec_setElem_full (hp : p < numRegs) (hq : q < numRegs) (hr : r < numRegs) (ha : s.reg p = .array h)
    (hi : s.reg q = .number f) (hn : IndexNames f n) (full : s.cfg.maxArrayLen ≤ n) :
    exec (.setElem p q r) s = raise .resourceExhausted s := by
  rw [exec, execSetElem, withRegisters_ok (inRange hp hq hr), withArrayPosition_ok ha hi (position_iff.mpr hn)]
  exact if_neg (Nat.not_lt.mpr full)

end Access

/-- Settles O50: the register check passes, and the operand check of each instruction is fatal. -/
theorem aggregateOperandChecks : Obligations.AggregateOperandChecks := by
  intro s p q r hp hq hr
  have hregs := inRange hp hq hr
  exact ⟨fun h => traps_of_raise .typeMismatchProp ((withRegisters_ok hregs).trans (withObjectKey_mismatch h)),
    fun h => traps_of_raise .typeMismatchProp ((withRegisters_ok hregs).trans (withObjectKey_mismatch h)),
    fun h => traps_of_raise .typeMismatchElem ((withRegisters_ok hregs).trans (withArrayPosition_mismatch h)),
    fun h => traps_of_raise .typeMismatchElem ((withRegisters_ok hregs).trans (withArrayPosition_mismatch h)),
    fun _ _ ha hi hf =>
      traps_of_raise .badIndex ((withRegisters_ok hregs).trans (withArrayPosition_badIndex ha hi hf)),
    fun _ _ ha hi hf =>
      traps_of_raise .badIndex ((withRegisters_ok hregs).trans (withArrayPosition_badIndex ha hi hf))⟩

/-- Settles O52: the four instructions reach the cell, and there is none of its kind. -/
theorem danglingHandleIsRefused : Obligations.DanglingHandleIsRefused := by
  intro s p q r h n k f hp hq hr
  refine ⟨fun hc => ⟨fun ho hk => ?_, fun ho hk => ?_⟩, fun hc hn => ⟨fun ha hi => ?_, fun ha hi room => ?_⟩⟩
  · rw [exec_getProp_reaches hp hq hr ho hk, withObject_dangling hc]
  · exact exec_setProp_dangling hp hq hr ho hk hc
  · rw [exec_getElem_reaches hp hq hr ha hi hn, withArray_dangling hc]
  · rw [exec_setElem_reaches hp hq hr ha hi hn room, withArray_dangling hc]

/-! Reads and writes of a cell (44_aggregate.md R142 to R145) -/

/-- Settles O46: the cell is reached, and its mapping read with `Undefined` for a missing key. -/
theorem getPropReadsTheCell : Obligations.GetPropReadsTheCell := by
  intro s dst obj key h k m hd ho hk hobj hkey hc
  have hexec := (exec_getProp_reaches hd ho hk hobj hkey).trans (withObject_ok hc)
  exact ⟨fun v hv => writesValue_of_exec (by rw [hexec, hv, Option.getD_some]),
    fun hnone => writesValue_of_exec (by rw [hexec, hnone, Option.getD_none])⟩

/-- Settles O48: the cell is reached, and its sequence read with `Undefined` beyond the length. -/
theorem getElemReadsTheCell : Obligations.GetElemReadsTheCell := by
  intro s dst arr idx h p f a hd ha hi harr hidx hp hc
  have hexec := (exec_getElem_reaches hd ha hi harr hidx hp).trans (withArray_ok hc)
  exact ⟨fun v hv => writesValue_of_exec (by rw [hexec, hv, Option.getD_some]),
    fun hlen => writesValue_of_exec (by rw [hexec, List.getElem?_eq_none hlen, Option.getD_none])⟩

section SetWithin
variable {cap : Option Nat} {m : Mapping} {k : Str} {v : Value}

theorem setWithin_room (h : Mapping.get m k ≠ none ∨ HasRoom m.length cap) :
    setWithin cap m k v = some (Mapping.set m k v) := by
  rw [← has_iff, hasRoom_iff] at h
  exact if_pos (by simpa using h)

theorem setWithin_full (hnone : Mapping.get m k = none) (full : ¬ HasRoom m.length cap) :
    setWithin cap m k v = none := by
  have habsent : ¬ Mapping.has m k = true := fun h => has_iff.mp h hnone
  exact if_neg (by simp [habsent, mt hasRoom_iff.mpr full])

end SetWithin

section SetProp
variable {s : State} {p q r h : Nat} {k : Str} {m : Mapping}

theorem exec_setProp_room (hp : p < numRegs) (hq : q < numRegs) (hr : r < numRegs) (ho : s.reg p = .object h)
    (hk : s.reg q = .string k) (hc : Heap.cell s.heap h = some (.obj m))
    (room : Mapping.get m k ≠ none ∨ HasRoom m.length s.cfg.maxObjectKeys) :
    exec (.setProp p q r) s = .next (s.setCell h (.obj (Mapping.set m k (s.reg r)))).advance := by
  rw [exec, execSetProp, withRegisters_ok (inRange hp hq hr), withObjectKey_ok ho hk, withObject_ok hc,
    setWithin_room room]

theorem exec_setProp_full (hp : p < numRegs) (hq : q < numRegs) (hr : r < numRegs) (ho : s.reg p = .object h)
    (hk : s.reg q = .string k) (hc : Heap.cell s.heap h = some (.obj m)) (hnone : Mapping.get m k = none)
    (full : ¬ HasRoom m.length s.cfg.maxObjectKeys) : exec (.setProp p q r) s = raise .resourceExhausted s := by
  rw [exec, execSetProp, withRegisters_ok (inRange hp hq hr), withObjectKey_ok ho hk, withObject_ok hc,
    setWithin_full hnone full]

end SetProp

/-- Settles O47: the write of the mapping and of the cell, or exhaustion. -/
theorem setPropWritesTheCell : Obligations.SetPropWritesTheCell := by
  intro s obj key val h k m ho hk hv hobj hkey hc
  refine ⟨fun room => ?_,
    fun hnone full => traps_of_raise .resourceExhausted (exec_setProp_full ho hk hv hobj hkey hc hnone full)⟩
  exact ⟨_, _, cell_setCell_same _ _ _, get_set_same m k _, fun j => get_set_other m _, fun i => cell_setCell_other _ _,
    exec_setProp_room ho hk hv hobj hkey hc room⟩

section WriteElement
variable {a : List Value} {p q : Nat} {v : Value}

theorem writeElement_at : (writeElement a p v)[p]? = some v := by
  unfold writeElement
  split
  · next h => simp [h]
  · next h =>
    rw [List.getElem?_append_right (by simp; omega)]
    simp [show p - (a.length + (p - a.length)) = 0 by omega]

theorem writeElement_other (hq : q < a.length) (hne : q ≠ p) : (writeElement a p v)[q]? = a[q]? := by
  unfold writeElement
  split
  · exact List.getElem?_set_ne hne.symm
  · rw [List.append_assoc, List.getElem?_append_left hq]

theorem writeElement_fill (hq : a.length ≤ q) (hp : q < p) : (writeElement a p v)[q]? = some .undefined := by
  unfold writeElement
  rw [if_neg (by omega), List.append_assoc, List.getElem?_append_right hq, List.getElem?_append_left (by simp; omega)]
  exact List.getElem?_replicate_of_lt (by omega)

end WriteElement

/-- Settles O49: the cell is reached below `MAX_ARRAY_LEN`, and `writeElement` is the sequence after the write. -/
theorem setElemWritesTheCell : Obligations.SetElemWritesTheCell := by
  intro s arr idx val h p f a ha hi hv harr hidx hp hc
  refine ⟨fun room => ?_, fun full => traps_of_raise .resourceExhausted (exec_setElem_full ha hi hv harr hidx hp full)⟩
  exact ⟨_, _, cell_setCell_same _ _ _, length_writeElement a p _, writeElement_at, fun q => writeElement_other,
    fun q => writeElement_fill, fun i => cell_setCell_other _ _,
    (exec_setElem_reaches ha hi hv harr hidx hp room).trans (withArray_ok hc)⟩

/-- A `SetProp` after which the engine runs has written the key of the object. -/
theorem exec_setProp_running {s t : State} {obj key val : Nat} (h : exec (.setProp obj key val) s = .next t)
    (ht : t.run = .running) : ∃ i k m, s.reg obj = .object i ∧ s.reg key = .string k ∧
      t = (s.setCell i (.obj (Mapping.set m k (s.reg val)))).advance := by
  obtain ⟨-, h⟩ := running_withRegisters h ht
  rcases withObjectKey_next h with ⟨i, k, ho, hk, h⟩ | rfl
  · obtain ⟨m, -, h⟩ := withObject_next h
    split at h
    · next m' hm' =>
      obtain ⟨-, rfl⟩ := setWithin_some hm'
      exact ⟨i, k, m, ho, hk, next_inj h⟩
    · exact absurd ht (not_raise_running h)
  · exact absurd ht not_running_enterFatal

/-- Settles O51: `GetProp` finds the cell that `SetProp` wrote, through registers that the write left alone. -/
theorem setPropThenGetPropRoundTrips : Obligations.SetPropThenGetPropRoundTrips := by
  intro s t u obj key val dst obj' key' _ hd hobj hkey hset ht hget hu
  obtain ⟨i, k, m, ho, hk, rfl⟩ := exec_setProp_running hset ht
  obtain ⟨hregs, -⟩ := running_withRegisters hget hu
  have hobj' := hobj.trans ho
  have hkey' := hkey.trans hk
  rw [← reg_setCell s i (.obj (Mapping.set m k (s.reg val))), ← reg_advance] at hobj' hkey'
  rw [exec_getProp_reaches hd (hregs obj' (by simp)) (hregs key' (by simp)) hobj' hkey',
    withObject_ok (cell_setCell_same _ _ _), get_set_same, Option.getD_some] at hget
  rw [next_inj hget]
  exact reg_setReg_same _ _ hd

end Sys2Proof.Proofs
end

section
/-! PROOFS of 45_scope_func.md: function values, scope variables, strict mode. -/

namespace Sys2Proof.Proofs

open Sys2Proof.Machine

/-! Function values and strict mode (45_scope_func.md R155, R158, R160) -/

/-- A counter in the range of a 32-bit index survives as one (10_state.md R13). -/
theorem toNat_ofInt_counter {pc : Int} (h0 : 0 ≤ pc) (hlt : pc < 2 ^ 32) : ((BitVec.ofInt 32 pc).toNat : Int) = pc := by
  rw [BitVec.toNat_ofInt]
  omega

/-- Settles O53: two register writes, and `UseStrict` as it is. -/
theorem functionValuesAndStrictMode : Obligations.FunctionValuesAndStrictMode := by
  intro s dst target hd
  have hdst : ∀ r ∈ [dst], r < numRegs := by simpa using hd
  exact ⟨writesValue_of_exec (withRegisters_ok hdst),
    fun h0 hlt => ⟨_, toNat_ofInt_counter h0 hlt, writesValue_of_exec (withRegisters_ok hdst)⟩, exec_useStrict s⟩

/-! Scope variables (45_scope_func.md R156, R157, R159, R161) -/

section Scope
variable {s : State} {dst : Nat} {var : U32} {v : Value} {top : Mapping} {below : List Mapping}

theorem withTopScope_empty {k : Mapping → List Mapping → Result} (h : s.scopes = []) :
    withTopScope s k = raise .scopeEmpty s := by
  simp [withTopScope, h]

theorem exec_getScope_present (hd : dst < numRegs) (hs : s.scopes = top :: below)
    (hv : Mapping.get top (scopeKey s.cfg var) = some v) :
    exec (.getScope dst var) s = .next (s.setReg dst v).advance := by
  rw [exec, execGetScope, withRegisters_ok (by simpa using hd), withTopScope_ok hs, hv]

theorem exec_getScope_missFault (hd : dst < numRegs) (hs : s.scopes = top :: below)
    (hnone : Mapping.get top (scopeKey s.cfg var) = none) (hmiss : s.cfg.getScopeMiss = .fault) :
    exec (.getScope dst var) s = raise .scopeKeyMissing s := by
  rw [exec, execGetScope, withRegisters_ok (by simpa using hd), withTopScope_ok hs, hnone, hmiss]

theorem exec_getScope_missUndefined (hd : dst < numRegs) (hs : s.scopes = top :: below)
    (hnone : Mapping.get top (scopeKey s.cfg var) = none) (hmiss : s.cfg.getScopeMiss = .undefined) :
    exec (.getScope dst var) s = .next (s.setReg dst .undefined).advance := by
  rw [exec, execGetScope, withRegisters_ok (by simpa using hd), withTopScope_ok hs, hnone, hmiss]

theorem exec_getScope_empty (hd : dst < numRegs) (hs : s.scopes = []) :
    exec (.getScope dst var) s = raise .scopeEmpty s :=
  (withRegisters_ok (by simpa using hd)).trans (withTopScope_empty hs)

theorem writeScope_room (hs : s.scopes = top :: below)
    (room : Mapping.get top (scopeKey s.cfg var) ≠ none ∨ HasRoom top.length s.cfg.maxScopeEntries) :
    writeScope var v s = .next (s.withScopes (Mapping.set top (scopeKey s.cfg var) v :: below)).advance := by
  rw [writeScope, withTopScope_ok hs, setWithin_room room]

theorem writeScope_full (hs : s.scopes = top :: below) (hnone : Mapping.get top (scopeKey s.cfg var) = none)
    (full : ¬ HasRoom top.length s.cfg.maxScopeEntries) : writeScope var v s = raise .resourceExhausted s := by
  rw [writeScope, withTopScope_ok hs, setWithin_full hnone full]

theorem writeScope_empty (hs : s.scopes = []) : writeScope var v s = raise .scopeEmpty s := withTopScope_empty hs

/-- The top scope after a write. -/
theorem writeScope_top (hs : s.scopes = top :: below)
    (room : Mapping.get top (scopeKey s.cfg var) ≠ none ∨ HasRoom top.length s.cfg.maxScopeEntries) :
    ∃ top', Mapping.get top' (scopeKey s.cfg var) = some v ∧
      (∀ k, k ≠ scopeKey s.cfg var → Mapping.get top' k = Mapping.get top k) ∧
      writeScope var v s = .next { s with scopes := top' :: below, pc := s.pc + 1 } :=
  ⟨_, get_set_same top _ v, fun _ => get_set_other top v, writeScope_room hs room⟩

/-- A scope write after which the engine runs has written the top scope. -/
theorem writeScope_running {t : State} (h : writeScope var v s = .next t) (ht : t.run = .running) :
    ∃ top below, s.scopes = top :: below ∧
      t = (s.withScopes (Mapping.set top (scopeKey s.cfg var) v :: below)).advance := by
  rcases withTopScope_next h with ⟨top, below, hs, h⟩ | rfl
  · split at h
    · next top' ht' =>
      obtain ⟨-, rfl⟩ := setWithin_some ht'
      exact ⟨top, below, hs, next_inj h⟩
    · exact absurd ht (not_raise_running h)
  · exact absurd ht not_running_enterFatal

end Scope

theorem exec_setScope {s : State} {var : U32} {src : Nat} (hs : src < numRegs) :
    exec (.setScope var src) s = writeScope var (s.reg src) s :=
  withRegisters_ok (by simpa using hs)

/-- Settles O54: the top scope is reached; the key is there or `GETSCOPE_MISS` decides. -/
theorem getScopeReadsTheTop : Obligations.GetScopeReadsTheTop := by
  intro s dst var hd
  refine ⟨fun top below hs => ?_, fun hs => traps_of_raise .scopeEmpty (exec_getScope_empty hd hs)⟩
  exact ⟨fun v hv => writesValue_of_exec (exec_getScope_present hd hs hv), fun hnone =>
    ⟨fun hmiss => traps_of_raise .scopeKeyMissing (exec_getScope_missFault hd hs hnone hmiss),
      fun hmiss => writesValue_of_exec (exec_getScope_missUndefined hd hs hnone hmiss)⟩⟩

/-- Settles O55: both instructions are `writeScope` of their Value. -/
theorem scopeWritesReachTheTop : Obligations.ScopeWritesReachTheTop := by
  intro s src var hsrc
  have hset := exec_setScope (s := s) (var := var) hsrc
  refine ⟨fun top below hs => ⟨fun room => ⟨?_, writeScope_top hs room⟩, fun hnone full => ⟨?_, ?_⟩⟩, fun hs => ⟨?_, ?_⟩⟩
  · rw [hset]
    exact writeScope_top hs room
  · exact traps_of_raise .resourceExhausted (hset.trans (writeScope_full hs hnone full))
  · exact traps_of_raise .resourceExhausted (writeScope_full hs hnone full)
  · exact traps_of_raise .scopeEmpty (hset.trans (writeScope_empty hs))
  · exact traps_of_raise .scopeEmpty (writeScope_empty hs)

theorem scopeKey_injective (cfg : Config) : Function.Injective (scopeKey cfg) := by
  unfold scopeKey
  cases cfg.scopeKeys with
  | decimal => exact decimalKey_injective
  | implementation => exact Config.implementationKeys.key_injective

/-- Either writer, where the engine runs on, has written the top scope at the variable's key. -/
theorem writer_running {s t : State} {writer : Instr} {i : U32}
    (hw : (∃ src, writer = .setScope i src) ∨ writer = .declareVar i) (h : exec writer s = .next t)
    (ht : t.run = .running) : ∃ v top below, s.scopes = top :: below ∧
      t = (s.withScopes (Mapping.set top (scopeKey s.cfg i) v :: below)).advance := by
  rcases hw with ⟨src, rfl⟩ | rfl
  · exact ⟨_, writeScope_running (running_withRegisters h ht).2 ht⟩
  · exact ⟨_, writeScope_running h ht⟩

/-- Settles O56: the key function is injective, so a write at one variable's key leaves every other variable's alone. -/
theorem scopeVariablesAreIndependent : Obligations.ScopeVariablesAreIndependent := by
  refine ⟨scopeKey_injective, fun s t writer i j _ hne hw h ht => ?_⟩
  obtain ⟨v, top, below, hs, rfl⟩ := writer_running hw h ht
  exact ⟨top, below, _, hs, rfl, get_set_other top v fun heq => hne (scopeKey_injective _ heq).symm⟩

end Sys2Proof.Proofs
end

section
/-! PROOFS about binary64 patterns (00_scope.md section 5.1): what the sign and the magnitude of a Number determine. -/

namespace Sys2Proof.Proofs

open Sys2Proof.Machine

/-- A pattern is its sign, exponent and fraction. -/
theorem toNat_eq_fields (f : F64) :
    f.toNat = (if fSign f then 2 ^ 63 else 0) + (fBiased f * 2 ^ 52 + fFraction f) := by
  have hlt := f.isLt
  simp only [fSign, BitVec.msb_eq_decide, fBiased, fFraction, decide_eq_true_eq]
  split <;> omega

theorem fBiased_lt (f : F64) : fBiased f < 2048 := Nat.mod_lt _ (by norm_num)

theorem fFraction_lt (f : F64) : fFraction f < 2 ^ 52 := Nat.mod_lt _ (by norm_num)

theorem eq_of_fields {f g : F64} (hs : fSign f = fSign g) (hb : fBiased f = fBiased g) (hf : fFraction f = fFraction g) :
    f = g :=
  BitVec.eq_of_toNat_eq (by rw [toNat_eq_fields f, toNat_eq_fields g, hs, hb, hf])

/-! Infinities and zeros -/

@[simp] theorem fSign_infOf (neg : Bool) : fSign (infOf neg) = neg := fSign_withSign neg (by unfold infBits; norm_num)

@[simp] theorem fSign_zeroOf (neg : Bool) : fSign (zeroOf neg) = neg := fSign_withSign neg (by norm_num)

theorem fIsInf_iff {f : F64} : fIsInf f = true ↔ fBiased f = 2047 ∧ fFraction f = 0 := by simp [fIsInf]

theorem fIsZero_iff {f : F64} : fIsZero f = true ↔ fBiased f = 0 ∧ fFraction f = 0 := by simp [fIsZero]

/-- There are two infinities. -/
theorem fIsInf_iff_eq {f : F64} : fIsInf f = true ↔ f = infOf (fSign f) := by
  constructor
  · intro h
    obtain ⟨hb, hf⟩ := fIsInf_iff.mp h
    obtain ⟨hb', hf'⟩ := fIsInf_iff.mp (fIsInf_infOf (fSign f))
    exact eq_of_fields (by simp) (hb.trans hb'.symm) (hf.trans hf'.symm)
  · intro h
    rw [h]
    exact fIsInf_infOf _

/-- The kinds of a Number exclude each other. -/
theorem not_nan_of_inf {f : F64} (h : fIsInf f = true) : fIsNaN f = false := by
  obtain ⟨hb, hf⟩ := fIsInf_iff.mp h
  simp [fIsNaN, hf]

theorem not_zero_of_inf {f : F64} (h : fIsInf f = true) : fIsZero f = false := by
  obtain ⟨hb, hf⟩ := fIsInf_iff.mp h
  simp [fIsZero, hb]

theorem not_nan_of_finite {f : F64} (h : fIsFinite f = true) : fIsNaN f = false := (fIsFinite_iff.mp h).1

theorem not_inf_of_finite {f : F64} (h : fIsFinite f = true) : fIsInf f = false := (fIsFinite_iff.mp h).2

theorem not_finite_infOf (neg : Bool) : ¬ fIsFinite (infOf neg) = true := not_finite_of_inf (fIsInf_infOf neg)

/-! The magnitude -/

theorem fMagnitude_eq_zero_iff {f : F64} : fMagnitude f = 0 ↔ fIsZero f = true := by
  rw [fIsZero_iff, fMagnitude]
  split
  · next hb => simp [hb]
  · next hb => simp [hb]

theorem fMagnitude_pos {f : F64} (h : fIsZero f = false) : 0 < fMagnitude f :=
  Nat.pos_of_ne_zero fun h0 => by simp [fMagnitude_eq_zero_iff.mp h0] at h

/-- The magnitude of a finite Number is below 2^1024. -/
theorem fMagnitude_lt {f : F64} (h : fIsFinite f = true) : fMagnitude f < 2 ^ 2098 := by
  have hb : fBiased f - 1 ≤ 2045 := by
    have := fBiased_lt f
    simp [fIsFinite] at h
    omega
  have hf := fFraction_lt f
  have hsig : (if fBiased f = 0 then fFraction f else fFraction f + 2 ^ 52) ≤ 2 ^ 53 - 1 := by split <;> omega
  calc fMagnitude f ≤ (2 ^ 53 - 1) * 2 ^ 2045 := Nat.mul_le_mul hsig (Nat.pow_le_pow_right (by norm_num) hb)
    _ < 2 ^ 53 * 2 ^ 2045 := Nat.mul_lt_mul_of_pos_right (by norm_num) (by positivity)
    _ = 2 ^ 2098 := by rw [← pow_add]

/-- A Number with exponent field 0 is a subnormal or a zero: its magnitude is its fraction. -/
theorem fMagnitude_lt_subnormal_iff {f : F64} : fMagnitude f < 2 ^ 52 ↔ fBiased f = 0 := by
  have hf := fFraction_lt f
  rw [fMagnitude]
  split
  · next hb => exact iff_of_true (by simpa [hb] using hf) hb
  · next hb =>
    refine iff_of_false ?_ hb
    have := Nat.one_le_two_pow (n := fBiased f - 1)
    nlinarith

/-- Magnitude and exponent field determine each other: the magnitude has its leading bit where the exponent says. -/
theorem fMagnitude_log2 {f : F64} (hb : fBiased f ≠ 0) : (fMagnitude f).log2 = 51 + fBiased f := by
  have hf := fFraction_lt f
  have h1 : 2 ^ (51 + fBiased f) = 2 ^ 52 * 2 ^ (fBiased f - 1) := by rw [← pow_add]; congr 1; omega
  have h2 : 2 ^ (51 + fBiased f + 1) = 2 ^ 53 * 2 ^ (fBiased f - 1) := by rw [← pow_add]; congr 1; omega
  have hpos : 0 < 2 ^ (fBiased f - 1) := by positivity
  rw [fMagnitude, if_neg hb]
  refine (Nat.log2_eq_iff (by positivity)).mpr ⟨?_, ?_⟩
  · rw [h1]
    exact Nat.mul_le_mul_right _ (Nat.le_add_left _ _)
  · rw [h2]
    exact Nat.mul_lt_mul_of_pos_right (by omega) hpos

theorem fBiased_eq_of_fMagnitude {f g : F64} (h : fMagnitude f = fMagnitude g) : fBiased f = fBiased g := by
  by_cases hf : fBiased f = 0
  · have hlt := fMagnitude_lt_subnormal_iff.mpr hf
    rw [hf, fMagnitude_lt_subnormal_iff.mp (h ▸ hlt)]
  · have hg : fBiased g ≠ 0 := fun hg => hf (fMagnitude_lt_subnormal_iff.mp (h ▸ fMagnitude_lt_subnormal_iff.mpr hg))
    have := fMagnitude_log2 hf
    rw [h, fMagnitude_log2 hg] at this
    omega

/-- Sign and magnitude determine the pattern. -/
theorem eq_of_sign_magnitude {f g : F64} (hs : fSign f = fSign g) (hm : fMagnitude f = fMagnitude g) : f = g := by
  have hb := fBiased_eq_of_fMagnitude hm
  refine eq_of_fields hs hb ?_
  rw [fMagnitude, fMagnitude, hb] at hm
  have := Nat.eq_of_mul_eq_mul_right (by positivity) hm
  split at this <;> omega

/-- The count of units as a sign and a magnitude. -/
theorem natAbs_fUnits (f : F64) : (fUnits f).natAbs = fMagnitude f := by
  rw [fUnits]
  split <;> simp

end Sys2Proof.Proofs
end

section
/-! PROOFS of 42_compare.md: the order (R107), coherence of the comparator (sections 1 and 2), the hash (R111). -/

namespace Sys2Proof.Proofs

open Sys2Proof.Machine

/-! The order, one `↔` or equation per function -/

/-- The order of the swapped pair. -/
def mirror : ValueOrder → ValueOrder
  | .less => .greater
  | .greater => .less
  | .equal => .equal
  | .unordered => .unordered
  | .noOrder => .noOrder

theorem mirror_eq_iff (o p : ValueOrder) : mirror o = p ↔ o = mirror p := by cases o <;> cases p <;> simp [mirror]

theorem intOrder_eq_less_iff {x y : Int} : intOrder x y = .less ↔ x < y := by
  unfold intOrder
  split
  · next h => simp [h]
  · next h => split <;> simp [h]

theorem intOrder_mirror (x y : Int) : intOrder y x = mirror (intOrder x y) := by
  unfold intOrder
  rcases lt_trichotomy x y with h | rfl | h
  · simp [h, h.not_gt, h.ne', mirror]
  · simp [mirror]
  · simp [h, h.not_gt, h.ne', mirror]

/-- Two different infinities have different signs. -/
theorem fSign_ne_of_inf {f g : F64} (hf : fIsInf f = true) (hg : fIsInf g = true) (hne : f ≠ g) : fSign g = !fSign f := by
  rw [fIsInf_iff_eq] at hf hg
  exact Bool.eq_not.mpr fun h => hne (by rw [hf, hg, h])

theorem numberOrder_mirror (f g : F64) : numberOrder g f = mirror (numberOrder f g) := by
  by_cases hnan : fIsNaN f = true ∨ fIsNaN g = true
  · rw [numberOrder_of_nan hnan, numberOrder_of_nan hnan.symm]
    rfl
  · obtain ⟨hf, hg⟩ : fIsNaN f = false ∧ fIsNaN g = false := by simpa using hnan
    by_cases heq : f = g
    · subst heq
      simp [numberOrder, hf, mirror]
    · simp only [numberOrder, hf, hg, Bool.or_self, Bool.false_eq_true, if_false, heq, Ne.symm heq]
      by_cases hfi : fIsInf f = true
      · by_cases hgi : fIsInf g = true
        · rw [if_pos hgi, if_pos hfi, fSign_ne_of_inf hfi hgi heq]
          cases fSign f <;> rfl
        · rw [if_neg hgi, if_pos hfi, if_pos hfi]
          cases fSign f <;> rfl
      · by_cases hgi : fIsInf g = true
        · rw [if_pos hgi, if_neg hfi, if_pos hgi]
          cases fSign g <;> rfl
        · rw [if_neg hgi, if_neg hfi, if_neg hfi, if_neg hgi, intOrder_mirror]

theorem infOf_injective : Function.Injective infOf := fun p q h => by simpa using congrArg fSign h

/-- `Less` is the order of R107 on Numbers. -/
theorem numberOrder_eq_less_iff {f g : F64} : numberOrder f g = .less ↔ NumberBelow f g := by
  by_cases hnan : fIsNaN f = true ∨ fIsNaN g = true
  · rw [numberOrder_of_nan hnan]
    rcases hnan with h | h <;> simp [NumberBelow, h]
  · obtain ⟨hf, hg⟩ : fIsNaN f = false ∧ fIsNaN g = false := by simpa using hnan
    have hft : ∀ neg, f = infOf neg → fIsFinite f = false := fun neg h => by simpa [h] using not_finite_infOf neg
    have hgt : ∀ neg, g = infOf neg → fIsFinite g = false := fun neg h => by simpa [h] using not_finite_infOf neg
    by_cases heq : f = g
    · subst heq
      simp [numberOrder, NumberBelow, hf]
    · simp only [numberOrder, NumberBelow, hf, hg, Bool.or_self, Bool.false_eq_true, if_false, heq, true_and]
      by_cases hfi : fIsInf f = true
      · rw [if_pos hfi]
        rw [fIsInf_iff_eq] at hfi
        cases hs : fSign f <;> rw [hs] at hfi <;> subst hfi
        · simp [not_finite_infOf, infOf_injective.eq_iff]
        · simp [Ne.symm heq]
      · rw [if_neg hfi]
        have hfinite : fIsFinite f = true := fIsFinite_iff.mpr ⟨hf, by simpa using hfi⟩
        have hfne : ∀ neg, f ≠ infOf neg := fun neg h => by simp [hft neg h] at hfinite
        by_cases hgi : fIsInf g = true
        · rw [if_pos hgi]
          rw [fIsInf_iff_eq] at hgi
          cases hs : fSign g <;> rw [hs] at hgi <;> subst hgi
          · simp [hfne]
          · simp [hfne, not_finite_infOf, infOf_injective.eq_iff]
        · rw [if_neg hgi, intOrder_eq_less_iff]
          have hgfinite : fIsFinite g = true := fIsFinite_iff.mpr ⟨hg, by simpa using hgi⟩
          have hgne : ∀ neg, g ≠ infOf neg := fun neg h => by simp [hgt neg h] at hgfinite
          simp [hfne, hgne, hfinite, hgfinite]

theorem stringOrder_mirror (s t : Str) : stringOrder t s = mirror (stringOrder s t) := by
  unfold stringOrder
  cases h : strOrder s t with
  | lt => rw [(strOrder_gt_iff t s).mpr h]; rfl
  | eq => rw [(strOrder_eq_iff s t).mp h, (strOrder_eq_iff t t).mpr rfl]; rfl
  | gt => rw [(strOrder_gt_iff s t).mp h]; rfl

theorem stringOrder_eq_less_iff {s t : Str} : stringOrder s t = .less ↔ strOrder s t = .lt := by
  unfold stringOrder
  cases strOrder s t <;> simp

theorem stringOrder_eq_equal_iff {s t : Str} : stringOrder s t = .equal ↔ s = t := by
  rw [← strOrder_eq_iff]
  unfold stringOrder
  cases strOrder s t <;> simp

theorem booleanOrder_mirror (p q : Bool) : booleanOrder q p = mirror (booleanOrder p q) := by
  cases p <;> cases q <;> rfl

/-- `vord` of the swapped pair, in each of its five answers. -/
theorem vord_mirror (v w : Value) : vord w v = mirror (vord v w) := by
  cases v with
  | number f => cases w with
    | number g => exact numberOrder_mirror f g
    | _ => rfl
  | string s => cases w with
    | string t => exact stringOrder_mirror s t
    | _ => rfl
  | boolean p => cases w with
    | boolean q => exact booleanOrder_mirror p q
    | _ => rfl
  | function m => cases w with
    | function n => exact intOrder_mirror _ _
    | _ => rfl
  | _ => cases w <;> rfl

/-- `Less` is the order of R107. -/
theorem vord_eq_less_iff (v w : Value) : vord v w = .less ↔ Below v w := by
  cases v with
  | number f => cases w with
    | number g => exact numberOrder_eq_less_iff
    | _ => simp [vord, Below]
  | string s => cases w with
    | string t => exact stringOrder_eq_less_iff.trans (strOrder_lt_iff s t)
    | _ => simp [vord, Below]
  | boolean p => cases w with
    | boolean q => cases p <;> cases q <;> simp [vord, booleanOrder, Below]
    | _ => simp [vord, Below]
  | function m => cases w with
    | function n => simp [vord, Below, intOrder_eq_less_iff]
    | _ => simp [vord, Below]
  | _ => simp [vord, Below]

theorem vord_eq_greater_iff (v w : Value) : vord v w = .greater ↔ Below w v := by
  rw [← vord_eq_less_iff, vord_mirror v w, mirror_eq_iff]
  rfl

theorem numberOrder_ne_unordered {f g : F64} (hf : fIsNaN f = false) (hg : fIsNaN g = false) :
    numberOrder f g ≠ .unordered ∧ numberOrder f g ≠ .noOrder := by
  simp only [numberOrder, hf, hg, Bool.or_self, Bool.false_eq_true, if_false, intOrder]
  split_ifs <;> simp

/-- A pair that is comparable has one of the three orders. -/
theorem vord_of_comparable {v w : Value} (h : Comparable v w) : vord v w ≠ .unordered ∧ vord v w ≠ .noOrder := by
  cases v with
  | number f => cases w with
    | number g => exact numberOrder_ne_unordered h.1 h.2
    | _ => cases h
  | string s => cases w with
    | string t =>
      simp only [vord, stringOrder]
      cases strOrder s t <;> simp
    | _ => cases h
  | boolean p => cases w with
    | boolean q => cases p <;> cases q <;> simp [vord, booleanOrder]
    | _ => cases h
  | function m => cases w with
    | function n =>
      simp only [vord, intOrder]
      split_ifs <;> simp
    | _ => cases h
  | _ => cases h

/-! `Lt` and `Le` (42_compare.md R113, R114) -/

theorem ordered_ordered (holds : ValueOrder → Bool) {s : State} {a b : Nat} (ha : a < numRegs) (hb : b < numRegs)
    (h : vord (s.reg a) (s.reg b) ≠ .unordered ∧ vord (s.reg a) (s.reg b) ≠ .noOrder) :
    ordered holds a b s = .next (s.writeAccumulator (holds (vord (s.reg a) (s.reg b)))).advance := by
  rw [ordered, withRegisters_ok (by simp [ha, hb])]
  generalize vord (s.reg a) (s.reg b) = o at h
  cases o with
  | unordered => exact absurd rfl h.1
  | noOrder => exact absurd rfl h.2
  | _ => rfl

/-- Settles O38: `Lt` tests for `Less`, which is the order, and `Le` for anything but `Greater`, which is the order of the
swapped pair. -/
theorem ltLeWriteTheOrder : Obligations.LtLeWriteTheOrder := by
  intro s a b ha hb hcmp
  have hord := vord_of_comparable hcmp
  have hless := vord_eq_less_iff (s.reg a) (s.reg b)
  have hgreater := vord_eq_greater_iff (s.reg a) (s.reg b)
  refine ⟨⟨_, ordered_ordered _ ha hb hord, ?_⟩, ⟨_, ordered_ordered _ ha hb hord, ?_⟩⟩
  · rw [← hless, beq_iff_eq]
  · rw [← hgreater]
    generalize vord (s.reg a) (s.reg b) = o at hord
    cases o <;> simp at hord ⊢

/-! Coherence (42_compare.md sections 1 and 2) -/

theorem sameValue_symm {v w : Value} (h : SameValue v w) : SameValue w v := by
  cases v with
  | number f => cases w with
    | number g =>
      obtain ⟨hf, hg, heq⟩ := h
      refine ⟨hg, hf, ?_⟩
      rcases heq with rfl | ⟨hff, hgf, hu⟩
      · exact .inl rfl
      · exact .inr ⟨hgf, hff, hu.symm⟩
    | _ => cases h
  | _ =>
    cases h
    rfl

theorem veq_comm (v w : Value) : veq v w = veq w v := by
  rw [Bool.eq_iff_iff, veq_iff_sameValue, veq_iff_sameValue]
  exact ⟨sameValue_symm, sameValue_symm⟩

theorem veq_self_eq_false_iff (v : Value) : veq v v = false ↔ ∃ f, v = .number f ∧ fIsNaN f = true := by
  rw [← Bool.not_eq_true, veq_iff_sameValue]
  cases v <;> simp [SameValue]

/-- Where there is an order, equality is its `Equal`. -/
theorem veq_iff_vord_equal {v w : Value} (h : vord v w ≠ .noOrder) : veq v w = true ↔ vord v w = .equal := by
  cases v with
  | number f => cases w with
    | number g => exact beq_iff_eq
    | _ => exact absurd rfl h
  | string s => cases w with
    | string t => simp [veq, vord, stringOrder_eq_equal_iff]
    | _ => exact absurd rfl h
  | boolean p => cases w with
    | boolean q => cases p <;> cases q <;> simp [veq, vord, booleanOrder]
    | _ => exact absurd rfl h
  | function m => cases w with
    | function n => simp [veq, vord, intOrder_eq_equal_iff, BitVec.toNat_inj]
    | _ => exact absurd rfl h
  | _ => cases w <;> exact absurd rfl h

/-- Settles O40: symmetry and reflexivity by R105's equality, the rest by `vord_mirror`. -/
theorem comparatorIsCoherent : Obligations.ComparatorIsCoherent := by
  intro v w
  have hmirror (o : ValueOrder) : vord v w = o ↔ vord w v = mirror o := by
    rw [vord_mirror w v, mirror_eq_iff]
  exact ⟨veq_comm v w, veq_self_eq_false_iff v, fun hno _ => veq_iff_vord_equal hno, hmirror .less, hmirror .equal,
    hmirror .unordered, hmirror .noOrder⟩

/-- The Value of a tag code and a key. -/
def valueOf (tag : BitVec 3) : HashKey → Value
  | .none => if tag = 0 then .undefined else .null
  | .boolean b => .boolean b
  | .bits f => .number f
  | .bytes s => .string s
  | .handle h => if tag = 5 then .object h else .array h
  | .index n => .function n

theorem valueOf_tagCode_hashKey (v : Value) : valueOf (tagCode v) (hashKey v) = v := by cases v <;> rfl

theorem tagCode_hashKey_injective {v w : Value} (ht : tagCode v = tagCode w) (hk : hashKey v = hashKey w) : v = w := by
  rw [← valueOf_tagCode_hashKey v, ht, hk, valueOf_tagCode_hashKey]

/-- Settles O41: tag code and key give the Value back; the hash is defined as `H` of the two. -/
theorem hashReadsTagAndKey : Obligations.HashReadsTagAndKey :=
  ⟨fun _ _ => ⟨fun ⟨ht, hk⟩ => tagCode_hashKey_injective ht hk, fun h => h ▸ ⟨rfl, rfl⟩⟩, fun _ => rfl⟩

end Sys2Proof.Proofs
end

section
/-! PROOFS of 41_arithmetic.md: `Neg` (R99), `Add`, `Sub`, `Mul`, `Div` (R93 to R96), `Mod` (R97, R100). -/

namespace Sys2Proof.Proofs

open Sys2Proof.Machine

/-! From the float operation to the instruction -/

section Arith
variable {s : State} {i : Instr} {op : F64 → F64 → FloatResult} {dst a b : Nat} {x y : F64}

/-- A binary arithmetic instruction whose operands are the Numbers `x` and `y`. -/
structure Computes (i : Instr) (op : F64 → F64 → FloatResult) (dst : Nat) (x y : F64) (s : State) : Prop where
  eq : exec i s = .next (s.writeFloat dst (op x y)).advance

/-- The six instructions are `binaryArith` of their operation. -/
theorem computes_of_regs (hi : exec i s = binaryArith op dst a b s) (hd : dst < numRegs) (ha : a < numRegs)
    (hb : b < numRegs) (hx : s.reg a = .number x) (hy : s.reg b = .number y) : Computes i op dst x y s :=
  ⟨hi.trans (binaryArith_ok hd ha hb hx hy)⟩

theorem writesValue_of_num (hc : Computes i op dst x y s) {r : F64} (h : op x y = .num r) :
    WritesValue i s dst (.number r) :=
  writesValue_of_exec (by rw [hc.eq, h, writeFloat_num])

theorem writesNaN_of_nan (hc : Computes i op dst x y s) (h : op x y = .nan) : WritesNaN i s dst :=
  ⟨_, nanFrom_isNaN (Config.nanGen s.nanDraws), by rw [hc.eq, h]; rfl⟩

end Arith

/-! `Neg` -/

/-- Settles O35: the sign bit by `fSign_fneg`, the rest by `fneg_low`. -/
theorem negInvertsTheSignBit : Obligations.NegInvertsTheSignBit := by
  intro s dst src x hd hs hx
  refine ⟨fneg x, writesValue_of_exec ?_, fSign_fneg x, fneg_low x⟩
  rw [exec, execNeg, withRegisters_ok (by simp [hd, hs]), hx]

/-! `fadd` and `fsub`, one equation per class of operands (R93, R94) -/

section Add
variable {x y : F64}

theorem fadd_nan (h : fIsNaN x = true ∨ fIsNaN y = true) : fadd x y = .nan := if_pos (by simpa using h)

theorem fadd_finite (hx : fIsFinite x = true) (hy : fIsFinite y = true) :
    fadd x y = if fUnits x + fUnits y = 0 then .num (zeroOf (fSign x && fSign y))
      else .num (roundUnits (decide (fUnits x + fUnits y < 0)) (fUnits x + fUnits y).natAbs 1) := by
  simp [fadd, not_nan_of_finite hx, not_nan_of_finite hy, not_inf_of_finite hx, not_inf_of_finite hy]

theorem fadd_finite_ne (hx : fIsFinite x = true) (hy : fIsFinite y = true) (h : fUnits x + fUnits y ≠ 0) :
    fadd x y = .num (roundUnits (decide (fUnits x + fUnits y < 0)) (fUnits x + fUnits y).natAbs 1) := by
  rw [fadd_finite hx hy, if_neg h]

theorem fadd_finite_zero (hx : fIsFinite x = true) (hy : fIsFinite y = true) (h : fUnits x + fUnits y = 0) :
    fadd x y = .num (zeroOf (fSign x && fSign y)) := by
  rw [fadd_finite hx hy, if_pos h]

theorem fadd_inf_finite (hx : fIsInf x = true) (hy : fIsFinite y = true) : fadd x y = .num x := by
  simp [fadd, not_nan_of_inf hx, not_nan_of_finite hy, hx, not_inf_of_finite hy]

theorem fadd_finite_inf (hx : fIsFinite x = true) (hy : fIsInf y = true) : fadd x y = .num y := by
  simp [fadd, not_nan_of_finite hx, not_nan_of_inf hy, not_inf_of_finite hx, hy]

theorem fadd_inf_same (hx : fIsInf x = true) (hy : fIsInf y = true) (h : fSign x = fSign y) : fadd x y = .num x := by
  simp [fadd, not_nan_of_inf hx, not_nan_of_inf hy, hx, hy, h]

theorem fadd_inf_opposite (hx : fIsInf x = true) (hy : fIsInf y = true) (h : fSign x ≠ fSign y) :
    fadd x y = .nan := by
  simp [fadd, not_nan_of_inf hx, not_nan_of_inf hy, hx, hy, h]

/-- The negation of an infinity is the other one. -/
theorem fneg_of_inf (hy : fIsInf y = true) : fneg y = infOf (!fSign y) := by
  have h : fIsInf (fneg y) = true := by rwa [fIsInf_fneg]
  rwa [fIsInf_iff_eq, fSign_fneg] at h

end Add

/-- Settles O30: `Add` by the equations of `fadd`, `Sub` by the same for the negated second operand. -/
theorem addSubFollowIeee : Obligations.AddSubFollowIeee := by
  intro s dst a b x y hd ha hb hx hy
  have hadd : Computes (.add dst a b) fadd dst x y s := computes_of_regs rfl hd ha hb hx hy
  have hsub : Computes (.sub dst a b) fsub dst x y s := computes_of_regs rfl hd ha hb hx hy
  refine ⟨fun fx fy => ⟨fun h => ?_, fun h => ?_, fun h => ?_, fun h => ?_⟩, fun h => ⟨?_, ?_⟩, fun ix fy => ⟨?_, ?_⟩,
    fun fx iy => ⟨?_, ?_⟩, fun ix iy => ⟨fun h => ⟨?_, ?_⟩, fun h => ⟨?_, ?_⟩⟩⟩
  · exact ⟨_, writesValue_of_num hadd (fadd_finite_ne fx fy h), roundUnits_roundsTo _ _ _ one_pos⟩
  · exact writesValue_of_num hadd (fadd_finite_zero fx fy h)
  · rw [sub_eq_add_neg, ← fUnits_fneg] at h ⊢
    exact ⟨_, writesValue_of_num hsub (fadd_finite_ne fx (by simpa using fy) h), roundUnits_roundsTo _ _ _ one_pos⟩
  · rw [sub_eq_add_neg, ← fUnits_fneg] at h
    rw [← fSign_fneg]
    exact writesValue_of_num hsub (fadd_finite_zero fx (by simpa using fy) h)
  · exact writesNaN_of_nan hadd (fadd_nan h)
  · exact writesNaN_of_nan hsub (fadd_nan (by simpa using h))
  · exact writesValue_of_num hadd (fadd_inf_finite ix fy)
  · exact writesValue_of_num hsub (fadd_inf_finite ix (by simpa using fy))
  · exact writesValue_of_num hadd (fadd_finite_inf fx iy)
  · rw [← fneg_of_inf iy]
    exact writesValue_of_num hsub (fadd_finite_inf fx (by simpa using iy))
  · exact writesValue_of_num hadd (fadd_inf_same ix iy h)
  · exact writesNaN_of_nan hsub (fadd_inf_opposite ix (by simpa using iy) (by simpa using h))
  · exact writesNaN_of_nan hadd (fadd_inf_opposite ix iy h)
  · exact writesValue_of_num hsub (fadd_inf_same ix (by simpa using iy) (by simpa [Bool.eq_not] using h))

/-! `fmul` and `fdiv`, one equation per class of operands (R95, R96) -/

section MulDiv
variable {x y : F64}

theorem fmul_nan (h : fIsNaN x = true ∨ fIsNaN y = true) : fmul x y = .nan := if_pos (by simpa using h)

theorem fmul_finite (hx : fIsFinite x = true) (hy : fIsFinite y = true) :
    fmul x y = .num (roundUnits (fSign x != fSign y) (fMagnitude x * fMagnitude y) unitsPerOne) := by
  simp [fmul, not_nan_of_finite hx, not_nan_of_finite hy, not_inf_of_finite hx, not_inf_of_finite hy]

/-- An infinity times a zero. -/
theorem fmul_inf_zero (hx : fIsNaN x = false) (hy : fIsNaN y = false) (hinf : fIsInf x = true ∨ fIsInf y = true)
    (h : fIsZero x = true ∨ fIsZero y = true) : fmul x y = .nan := by
  simp [fmul, hx, hy, hinf, h]

theorem fmul_inf (hx : fIsNaN x = false) (hy : fIsNaN y = false) (hinf : fIsInf x = true ∨ fIsInf y = true)
    (hx0 : fIsZero x = false) (hy0 : fIsZero y = false) : fmul x y = .num (infOf (fSign x != fSign y)) := by
  simp [fmul, hx, hy, hinf, hx0, hy0]

theorem fdiv_nan (h : fIsNaN x = true ∨ fIsNaN y = true) : fdiv x y = .nan := if_pos (by simpa using h)

theorem fdiv_finite (hx : fIsFinite x = true) (hy : fIsFinite y = true) (hy0 : fIsZero y = false) :
    fdiv x y = .num (roundUnits (fSign x != fSign y) (fMagnitude x * unitsPerOne) (fMagnitude y)) := by
  simp [fdiv, not_nan_of_finite hx, not_nan_of_finite hy, not_inf_of_finite hx, not_inf_of_finite hy, hy0]

theorem fdiv_by_zero (hx : fIsFinite x = true) (hy : fIsFinite y = true) (hy0 : fIsZero y = true) :
    fdiv x y = if fIsZero x then .nan else .num (infOf (fSign x != fSign y)) := by
  simp [fdiv, not_nan_of_finite hx, not_nan_of_finite hy, not_inf_of_finite hx, not_inf_of_finite hy, hy0]

theorem fdiv_inf_finite (hx : fIsInf x = true) (hy : fIsFinite y = true) :
    fdiv x y = .num (infOf (fSign x != fSign y)) := by
  simp [fdiv, not_nan_of_inf hx, not_nan_of_finite hy, hx, not_inf_of_finite hy]

theorem fdiv_finite_inf (hx : fIsFinite x = true) (hy : fIsInf y = true) :
    fdiv x y = .num (zeroOf (fSign x != fSign y)) := by
  simp [fdiv, not_nan_of_finite hx, not_nan_of_inf hy, not_inf_of_finite hx, hy]

theorem fdiv_inf_inf (hx : fIsInf x = true) (hy : fIsInf y = true) : fdiv x y = .nan := by
  simp [fdiv, not_nan_of_inf hx, not_nan_of_inf hy, hx, hy]

theorem unitsPerOne_pos_nat : 0 < unitsPerOne := by unfold unitsPerOne; positivity

end MulDiv

/-- Settles O31: the equations of `fmul` and `fdiv`. -/
theorem mulDivFollowIeee : Obligations.MulDivFollowIeee := by
  intro s dst a b x y hd ha hb hx hy
  have hmul : Computes (.mul dst a b) fmul dst x y s := computes_of_regs rfl hd ha hb hx hy
  have hdiv : Computes (.div dst a b) fdiv dst x y s := computes_of_regs rfl hd ha hb hx hy
  refine ⟨fun fx fy => ⟨?_, fun hy0 => ?_, fun hy0 hx0 => ?_, fun hy0 hx0 => ?_⟩,
    fun h => ⟨writesNaN_of_nan hmul (fmul_nan h), writesNaN_of_nan hdiv (fdiv_nan h)⟩,
    fun ix fy => ⟨writesValue_of_num hdiv (fdiv_inf_finite ix fy), fun hy0 => ?_, fun hy0 => ?_⟩,
    fun fx iy => ⟨writesValue_of_num hdiv (fdiv_finite_inf fx iy), fun hx0 => ?_, fun hx0 => ?_⟩,
    fun ix iy => ⟨writesNaN_of_nan hdiv (fdiv_inf_inf ix iy), ?_⟩⟩
  · exact ⟨_, writesValue_of_num hmul (fmul_finite fx fy), roundUnits_roundsTo _ _ _ unitsPerOne_pos_nat⟩
  · exact ⟨_, writesValue_of_num hdiv (fdiv_finite fx fy hy0), roundUnits_roundsTo _ _ _ (fMagnitude_pos hy0)⟩
  · exact writesValue_of_num hdiv (by rw [fdiv_by_zero fx fy hy0, hx0]; rfl)
  · exact writesNaN_of_nan hdiv (by rw [fdiv_by_zero fx fy hy0, hx0]; rfl)
  · exact writesNaN_of_nan hmul (fmul_inf_zero (not_nan_of_inf ix) (not_nan_of_finite fy) (.inl ix) (.inr hy0))
  · exact writesValue_of_num hmul
      (fmul_inf (not_nan_of_inf ix) (not_nan_of_finite fy) (.inl ix) (not_zero_of_inf ix) hy0)
  · exact writesNaN_of_nan hmul (fmul_inf_zero (not_nan_of_finite fx) (not_nan_of_inf iy) (.inr iy) (.inl hx0))
  · exact writesValue_of_num hmul
      (fmul_inf (not_nan_of_finite fx) (not_nan_of_inf iy) (.inr iy) hx0 (not_zero_of_inf iy))
  · exact writesValue_of_num hmul
      (fmul_inf (not_nan_of_inf ix) (not_nan_of_inf iy) (.inl ix) (not_zero_of_inf ix) (not_zero_of_inf iy))

/-! `fmod` (R97, R100) -/

/-- The remainder of two counts of units that fit 53 bits at some exponent fits 53 bits at the smaller exponent. -/
theorem mod_form {k₁ j₁ k₂ j₂ : Nat} (h₁ : k₁ < 2 ^ 53) (h₂ : k₂ < 2 ^ 53) (hpos : 0 < k₂) :
    ∃ k j, k₁ * 2 ^ j₁ % (k₂ * 2 ^ j₂) = k * 2 ^ j ∧ k < 2 ^ 53 := by
  rcases Nat.le_total j₂ j₁ with hj | hj
  · obtain ⟨d, rfl⟩ := Nat.exists_eq_add_of_le hj
    refine ⟨k₁ * 2 ^ d % k₂, j₂, ?_, (Nat.mod_lt _ hpos).trans h₂⟩
    rw [← Nat.mul_mod_mul_right, pow_add, ← Nat.mul_assoc, Nat.mul_right_comm]
  · obtain ⟨d, rfl⟩ := Nat.exists_eq_add_of_le hj
    refine ⟨k₁ % (k₂ * 2 ^ d), j₁, ?_, (Nat.mod_le _ _).trans_lt h₁⟩
    rw [← Nat.mul_mod_mul_right, pow_add, ← Nat.mul_assoc, Nat.mul_right_comm]

theorem roundUnits_zero (neg : Bool) : roundUnits neg 0 1 = zeroOf neg := by
  simp [roundUnits, divTiesToEven, zeroOf, infBits]

theorem zeroOf_spec (neg : Bool) : fIsFinite (zeroOf neg) = true ∧ fMagnitude (zeroOf neg) = 0 := by
  cases neg <;> decide

/-- The remainder needs no rounding. -/
theorem roundUnits_mod (neg : Bool) {x y : F64} (hx : fIsFinite x = true) (hy0 : fIsZero y = false) :
    fIsFinite (roundUnits neg (fMagnitude x % fMagnitude y) 1) = true ∧
      fSign (roundUnits neg (fMagnitude x % fMagnitude y) 1) = neg ∧
      fMagnitude (roundUnits neg (fMagnitude x % fMagnitude y) 1) = fMagnitude x % fMagnitude y := by
  obtain ⟨k₁, j₁, hx', h₁⟩ := fMagnitude_form x
  obtain ⟨k₂, j₂, hy', h₂⟩ := fMagnitude_form y
  have hpos : 0 < k₂ := Nat.pos_of_ne_zero fun h0 => by
    have := fMagnitude_pos hy0
    simp [hy', h0] at this
  have hlt : fMagnitude x % fMagnitude y < 2 ^ 2098 := (Nat.mod_le _ _).trans_lt (fMagnitude_lt hx)
  obtain ⟨k, j, hkj, hk⟩ := mod_form (j₁ := j₁) (j₂ := j₂) h₁ h₂ hpos
  rw [← hx', ← hy'] at hkj
  rw [hkj] at hlt ⊢
  rcases Nat.eq_zero_or_pos k with rfl | hk0
  · rw [Nat.zero_mul, roundUnits_zero]
    exact ⟨(zeroOf_spec neg).1, fSign_zeroOf neg, (zeroOf_spec neg).2⟩
  · exact roundUnits_exact neg hk hlt hk0

/-- The truncated remainder has the sign of the dividend. -/
theorem tmod_fUnits (x y : F64) :
    (fUnits x).tmod (fUnits y) = if fSign x then -((fMagnitude x % fMagnitude y : Nat) : Int)
      else ((fMagnitude x % fMagnitude y : Nat) : Int) := by
  unfold fUnits
  split <;> split <;> simp [Int.neg_tmod, Int.tmod_neg, Int.tmod_eq_emod_of_nonneg]

section Mod
variable {x y : F64}

theorem fmod_invalid (h : fIsNaN x = true ∨ fIsNaN y = true ∨ fIsInf x = true ∨ fIsZero y = true) : fmod x y = .nan := by
  unfold fmod
  split_ifs with h₁ h₂ h₃
  · rfl
  · rfl
  · rfl
  all_goals simp_all

theorem fmod_inf (hx : fIsFinite x = true) (hy : fIsInf y = true) : fmod x y = .num x := by
  simp [fmod, not_nan_of_finite hx, not_nan_of_inf hy, not_inf_of_finite hx, not_zero_of_inf hy, hy]

theorem fmod_finite (hx : fIsFinite x = true) (hy : fIsFinite y = true) (hy0 : fIsZero y = false) :
    fmod x y = if fIsZero x then .num x else .num (roundUnits (fSign x) (fMagnitude x % fMagnitude y) 1) := by
  simp [fmod, not_nan_of_finite hx, not_nan_of_finite hy, not_inf_of_finite hx, not_inf_of_finite hy, hy0]

/-- On finite operands the result is the truncated remainder, with the sign of the dividend also where it is a zero. -/
theorem fmod_exact (hx : fIsFinite x = true) (hy : fIsFinite y = true) (hy0 : fIsZero y = false) :
    ∃ r, fmod x y = .num r ∧ fIsFinite r = true ∧ fSign r = fSign x ∧ fUnits r = (fUnits x).tmod (fUnits y) := by
  rw [fmod_finite hx hy hy0]
  split
  · next hx0 =>
    have hm : fMagnitude x = 0 := fMagnitude_eq_zero_iff.mpr hx0
    exact ⟨x, rfl, hx, rfl, by rw [tmod_fUnits, fUnits, hm, Nat.zero_mod]⟩
  · obtain ⟨hfin, hsign, hmag⟩ := roundUnits_mod (fSign x) hx hy0
    exact ⟨_, rfl, hfin, hsign, by rw [tmod_fUnits, fUnits, hsign, hmag]⟩

end Mod

/-- Settles O32: `fmod_exact`, `fmod_inf` and `fmod_invalid`. -/
theorem modIsTheExactTruncatedRemainder : Obligations.ModIsTheExactTruncatedRemainder := by
  intro s dst a b x y hd ha hb hx hy
  have hmod : Computes (.mod dst a b) fmod dst x y s := computes_of_regs rfl hd ha hb hx hy
  refine ⟨fun fx fy hy0 => ?_, fun fx iy => writesValue_of_num hmod (fmod_inf fx iy),
    fun h => writesNaN_of_nan hmod (fmod_invalid h)⟩
  obtain ⟨r, hr, hspec⟩ := fmod_exact fx fy hy0
  exact ⟨r, writesValue_of_num hmod hr, hspec⟩

end Sys2Proof.Proofs
end

section
/-! PROOFS of 41_arithmetic.md R98 and R101: `Pow`, its special cases, its range and its exact powers. -/

namespace Sys2Proof.Proofs

open Sys2Proof.Machine

/-! Integers among the Numbers -/

theorem fIsInteger_iff {y : F64} : fIsInteger y = true ↔ Machine.IsIntegral y := by
  simp [fIsInteger, Machine.IsIntegral, Nat.dvd_iff_mod_eq_zero]

theorem fIsOddInteger_iff {y : F64} : fIsOddInteger y = true ↔ IsOdd y := by
  have hu := unitsPerOne_pos_nat
  simp only [fIsOddInteger, fIsInteger, Bool.and_eq_true, beq_iff_eq, IsOdd]
  constructor
  · rintro ⟨hint, hodd⟩
    refine ⟨fMagnitude y / unitsPerOne / 2, ?_⟩
    rw [show 2 * (fMagnitude y / unitsPerOne / 2) + 1 = fMagnitude y / unitsPerOne by omega]
    exact (Nat.div_mul_cancel (Nat.dvd_of_mod_eq_zero hint)).symm
  · rintro ⟨k, hk⟩
    rw [hk, Nat.mul_mod_left, Nat.mul_div_cancel _ hu]
    exact ⟨rfl, by omega⟩

theorem fIsOddInteger_eq_false {y : F64} (h : ¬ IsOdd y) : fIsOddInteger y = false := by
  simpa using mt fIsOddInteger_iff.mp h

/-- The sign of a power: that of the base where the exponent is an odd integer. -/
def powSign (x y : F64) : Bool := fSign x && fIsOddInteger y

theorem powSign_iff {x y : F64} : powSign x y = true ↔ fSign x = true ∧ IsOdd y := by
  rw [powSign, Bool.and_eq_true, fIsOddInteger_iff]

theorem powSign_of_odd {x y : F64} (h : IsOdd y) : powSign x y = fSign x := by
  rw [powSign, fIsOddInteger_iff.mpr h, Bool.and_true]

theorem powSign_of_not_odd {x y : F64} (h : ¬ IsOdd y) : powSign x y = false := by
  rw [powSign, fIsOddInteger_eq_false h, Bool.and_false]

/-! The two Numbers of magnitude 1 -/

theorem fOne_spec : fSign fOne = false ∧ fIsFinite fOne = true ∧ fIsZero fOne = false ∧ fMagnitude fOne = unitsPerOne := by
  decide +kernel

theorem fMinusOne_spec : fIsNaN fMinusOne = false ∧ fMinusOne ≠ fOne ∧ fMagnitude fMinusOne = unitsPerOne := by
  decide +kernel

theorem ne_one_of_magnitude {x : F64} (h : fMagnitude x ≠ unitsPerOne) : x ≠ fOne ∧ x ≠ fMinusOne := by
  refine ⟨?_, ?_⟩
  · rintro rfl
    exact h fOne_spec.2.2.2
  · rintro rfl
    exact h fMinusOne_spec.2.2

theorem ne_one_of_inf {x : F64} (h : fIsInf x = true) : x ≠ fOne ∧ x ≠ fMinusOne := by
  refine ⟨?_, ?_⟩ <;>
  · rintro rfl
    exact absurd h (by decide)

theorem ne_one_of_zero {x : F64} (h : fIsZero x = true) : x ≠ fOne := by
  rintro rfl
  exact absurd h (by decide)

/-! `fpow`, one equation per row of the table (R101) -/

section Rows
variable {x y : F64}

theorem fpow_zero_exponent (hy0 : fIsZero y = true) : fpow x y = .num fOne := if_pos hy0

theorem fpow_one_base : fpow fOne y = .num fOne := by simp [fpow]

theorem fpow_nan (hnan : fIsNaN x = true ∨ fIsNaN y = true) (hy0 : fIsZero y = false) (hx1 : x ≠ fOne) :
    fpow x y = .nan := by
  simp [fpow, hy0, hx1, hnan]

theorem fpow_minusOne_inf (hy : fIsInf y = true) : fpow fMinusOne y = .num fOne := by
  simp [fpow, not_zero_of_inf hy, fMinusOne_spec, not_nan_of_inf hy, hy]

theorem fpow_inf_exponent_small (hx : fIsFinite x = true) (hlt : fMagnitude x < unitsPerOne) (hy : fIsInf y = true) :
    fpow x y = .num (if fSign y then infOf false else zeroOf false) := by
  obtain ⟨hx1, hxm⟩ := ne_one_of_magnitude hlt.ne
  simp [fpow, not_zero_of_inf hy, hx1, hxm, not_nan_of_finite hx, not_nan_of_inf hy, hy, hx, hlt]
  split <;> rfl

theorem fpow_inf_exponent_large (hxn : fIsNaN x = false) (hx : fIsInf x = true ∨ unitsPerOne < fMagnitude x)
    (hy : fIsInf y = true) : fpow x y = .num (if fSign y then zeroOf false else infOf false) := by
  obtain ⟨hx1, hxm⟩ : x ≠ fOne ∧ x ≠ fMinusOne := hx.elim ne_one_of_inf fun h => ne_one_of_magnitude h.ne'
  have hsmall : (fIsFinite x && decide (fMagnitude x < unitsPerOne)) = false := by
    rcases hx with hinf | hlt
    · simp [not_finite_of_inf hinf]
    · simp [hlt.le]
  simp [fpow, not_zero_of_inf hy, hx1, hxm, hxn, not_nan_of_inf hy, hy, hsmall]
  split <;> rfl

theorem fpow_inf_base (hx : fIsInf x = true) (hy : fIsFinite y = true) (hy0 : fIsZero y = false) :
    fpow x y = .num (if fSign y then zeroOf (powSign x y) else infOf (powSign x y)) := by
  simp [fpow, hy0, ne_one_of_inf hx, not_nan_of_inf hx, not_nan_of_finite hy, not_inf_of_finite hy, hx]
  split <;> rfl

theorem fpow_zero_base (hx0 : fIsZero x = true) (hy : fIsFinite y = true) (hy0 : fIsZero y = false) :
    fpow x y = .num (if fSign y then infOf (powSign x y) else zeroOf (powSign x y)) := by
  have hx : fIsFinite x = true := by simp [fIsFinite, (fIsZero_iff.mp hx0).1]
  simp [fpow, hy0, ne_one_of_zero hx0, not_nan_of_finite hx, not_nan_of_finite hy, not_inf_of_finite hy,
    not_inf_of_finite hx, hx0]
  split <;> rfl

theorem fpow_fraction (hx : fIsFinite x = true) (hx0 : fIsZero x = false) (hy : fIsFinite y = true)
    (hy0 : fIsZero y = false) (hneg : fSign x = true) (hint : ¬ Machine.IsIntegral y) : fpow x y = .nan := by
  have hx1 : x ≠ fOne := by
    rintro rfl
    rw [fOne_spec.1] at hneg
    cases hneg
  have hint' : fIsInteger y = false := by simpa using mt fIsInteger_iff.mp hint
  simp [fpow, hy0, hx1, not_nan_of_finite hx, not_nan_of_finite hy, not_inf_of_finite hy, not_inf_of_finite hx, hx0,
    hneg, hint']

theorem fpow_ordinary (hx : fIsFinite x = true) (hx0 : fIsZero x = false) (hx1 : x ≠ fOne) (hy : fIsFinite y = true)
    (hy0 : fIsZero y = false) (hint : fSign x = true → Machine.IsIntegral y) : fpow x y = .num (powOrdinary x y) := by
  have hint' : (fSign x && !fIsInteger y) = false := by
    cases hs : fSign x with
    | false => rfl
    | true => simp [fIsInteger_iff.mpr (hint hs)]
  simp [fpow, hy0, hx1, not_nan_of_finite hx, not_nan_of_finite hy, not_inf_of_finite hy, not_inf_of_finite hx, hx0,
    hint']

theorem powOrdinary_of_exact {f : F64} (h : powExact (powSign x y) x y = some f) : powOrdinary x y = f := by
  unfold powSign at h
  simp [powOrdinary, h]

theorem powOrdinary_of_none (h : powExact (powSign x y) x y = none) :
    powOrdinary x y = withSign (powSign x y) (powApproximate x y) := by
  unfold powSign at h
  simp [powOrdinary, h, powSign]

end Rows

/-! Patterns from their lower 63 bits -/

section WithSign
variable {neg : Bool} {low : Nat}

theorem lt_of_le_infBits (h : low ≤ infBits) : low < 2 ^ 63 := by
  unfold infBits at h
  omega

theorem not_nan_withSign (h : low ≤ infBits) : fIsNaN (withSign neg low) = false := by
  have h63 := lt_of_le_infBits h
  unfold infBits at h
  simp only [fIsNaN, fBiased_withSign neg h63, fFraction_withSign neg h63, Bool.and_eq_false_iff, beq_eq_false_iff_ne,
    bne_eq_false_iff_eq]
  omega

theorem finite_withSign (h : low < infBits) : fIsFinite (withSign neg low) = true := by
  rw [fIsFinite, fBiased_withSign neg (lt_of_le_infBits h.le)]
  unfold infBits at h
  simp only [bne_iff_ne]
  omega

theorem not_zero_withSign (h : low ≤ infBits) (hpos : 0 < low) : fIsZero (withSign neg low) = false := by
  have h63 := lt_of_le_infBits h
  simp only [fIsZero, fBiased_withSign neg h63, fFraction_withSign neg h63, Bool.and_eq_false_iff, beq_eq_false_iff_ne]
  omega

theorem magnitude_withSign_subnormal (h : low < 2 ^ 52) : fMagnitude (withSign neg low) < 2 ^ 52 := by
  rw [fMagnitude_lt_subnormal_iff, fBiased_withSign neg (h.trans (by norm_num))]
  exact Nat.div_eq_of_lt h

end WithSign

/-! The lower bits of the approximation -/

section Approximate
variable {x y : F64}

theorem powApproximate_le : powApproximate x y ≤ infBits := by
  have h1 : (Config.powApprox x y).toNat % (infBits - 1) < infBits - 1 := Nat.mod_lt _ (by decide)
  have h2 : (Config.powApprox x y).toNat % infBits < infBits := Nat.mod_lt _ (by decide)
  have h3 : (Config.powApprox x y).toNat % 2 ^ 52 < 2 ^ 52 := Nat.mod_lt _ (by decide)
  have h4 : 2 ^ 52 < infBits := by decide
  unfold powApproximate
  dsimp only
  split_ifs <;> omega

theorem powApproximate_overflow (h : powOverflows x y = true) : powApproximate x y = infBits := if_pos h

theorem powApproximate_underflow (hover : ¬ powOverflows x y = true) (h : powUnderflows x y = true) :
    powApproximate x y < 2 ^ 52 := by
  rw [powApproximate, if_neg hover, if_pos h]
  exact Nat.mod_lt _ (by norm_num)

theorem powApproximate_between (hover : ¬ powOverflows x y = true) (hunder : ¬ powUnderflows x y = true)
    (h : powStaysFinite x y = true) : 0 < powApproximate x y ∧ powApproximate x y < infBits := by
  rw [powApproximate, if_neg hover, if_neg hunder, if_pos h]
  have : (Config.powApprox x y).toNat % (infBits - 1) < infBits - 1 := Nat.mod_lt _ (by decide)
  omega

end Approximate

/-! Values and logarithms of binary64 -/

/-- The value of a finite Number is below 2^1024. -/
theorem finite_value_lt {f : F64} (h : fIsFinite f = true) : (fMagnitude f : ℝ) / unitsPerOne < 2 ^ 1024 := by
  have hlt : ((fMagnitude f : Nat) : ℝ) < ((2 ^ 2098 : Nat) : ℝ) := Nat.cast_lt.mpr (fMagnitude_lt h)
  rw [div_lt_iff₀ unitsPerOne_pos, unitsPerOne_cast, ← pow_add]
  rwa [Nat.cast_pow, Nat.cast_ofNat] at hlt

theorem logb_two_pow (n : Nat) : Real.logb 2 (2 ^ n) = n := by
  rw [Real.logb_pow, Real.logb_self_eq_one (by norm_num), mul_one]

theorem logb_half_pow (n : Nat) : Real.logb 2 ((1 / 2) ^ n) = -n := by
  rw [one_div, inv_pow, Real.logb_inv, logb_two_pow]

theorem le_logb_one_add {t : ℝ} (h0 : 0 ≤ t) (h1 : t ≤ 1) : t ≤ Real.logb 2 (1 + t) := by
  rw [Real.le_logb_iff_rpow_le (by norm_num) (by linarith)]
  have h := rpow_one_add_le_one_add_mul_self (s := 1) (by norm_num) h0 h1
  rwa [mul_one, one_add_one_eq_two] at h

theorem logb_one_sub_le {t : ℝ} (h0 : 0 ≤ t) (h1 : t < 1) : Real.logb 2 (1 - t) ≤ -t := by
  have hlog := Real.log_le_sub_one_of_pos (show 0 < 1 - t by linarith)
  have h2 : 0 < Real.log 2 := Real.log_pos (by norm_num)
  have h2' : Real.log 2 ≤ 1 := by linarith [Real.log_two_lt_d9]
  rw [Real.logb, div_le_iff₀ h2]
  nlinarith

/-! The two limits of the range in terms of the logarithm -/

theorem logb_mul_one_sub_le {c P : ℝ} (hc : 0 < c) (h0 : 0 < P) (h : P ≤ c * (1 - 1 / 2 ^ 49)) :
    Real.logb 2 P ≤ Real.logb 2 c - 1 / 2 ^ 49 := by
  have hsub : (0 : ℝ) < 1 - 1 / 2 ^ 49 := by norm_num
  have hmono := Real.logb_le_logb_of_le (b := 2) (by norm_num) h0 h
  rw [Real.logb_mul hc.ne' hsub.ne'] at hmono
  linarith [logb_one_sub_le (t := 1 / 2 ^ 49) (by positivity) (by norm_num)]

section Limits
variable {P : ℝ}

theorem logb_above_overflow (h : (2 : ℝ) ^ 1024 * (1 + 1 / 2 ^ 50) ≤ P) : 1024 + 1 / 2 ^ 50 ≤ Real.logb 2 P := by
  have hpow : (0 : ℝ) < 2 ^ 1024 := by positivity
  have hone : (0 : ℝ) < 1 + 1 / 2 ^ 50 := by positivity
  have hmono := Real.logb_le_logb_of_le (b := 2) (by norm_num) (mul_pos hpow hone) h
  rw [Real.logb_mul hpow.ne' hone.ne', logb_two_pow, Nat.cast_ofNat] at hmono
  linarith [le_logb_one_add (t := 1 / 2 ^ 50) (by positivity) (by norm_num)]

theorem logb_below_overflow (h0 : 0 < P) (h : P ≤ (2 : ℝ) ^ 1024 * (1 - 1 / 2 ^ 49)) :
    Real.logb 2 P ≤ 1024 - 1 / 2 ^ 49 := by
  have := logb_mul_one_sub_le (by positivity) h0 h
  rwa [logb_two_pow, Nat.cast_ofNat] at this

theorem logb_below_underflow (h0 : 0 < P) (h : P ≤ (1 / 2 : ℝ) ^ 1022 * (1 - 1 / 2 ^ 49)) :
    Real.logb 2 P ≤ -1022 - 1 / 2 ^ 49 := by
  have := logb_mul_one_sub_le (by positivity) h0 h
  rwa [logb_half_pow, Nat.cast_ofNat] at this

theorem logb_above_underflow (h : (1 / 2 : ℝ) ^ 1022 ≤ P) : -1022 ≤ Real.logb 2 P := by
  have hmono := Real.logb_le_logb_of_le (b := 2) (by norm_num) (by positivity) h
  rwa [logb_half_pow, Nat.cast_ofNat] at hmono

end Limits

/-! The ordinary operands, last row of the table -/

section Ordinary
variable {x y : F64}

/-- The result has the sign of the power and is no NaN. -/
theorem powOrdinary_sign (hx : 0 < fMagnitude x) :
    fIsNaN (powOrdinary x y) = false ∧ fSign (powOrdinary x y) = powSign x y := by
  cases h : powExact (powSign x y) x y with
  | some f =>
    obtain ⟨hfin, hsign, -⟩ := powExact_value hx h
    rw [powOrdinary_of_exact h]
    exact ⟨not_nan_of_finite hfin, hsign⟩
  | none =>
    rw [powOrdinary_of_none h]
    exact ⟨not_nan_withSign powApproximate_le, fSign_withSign _ (lt_of_le_infBits powApproximate_le)⟩

/-- Where the power overflows it is no finite Number, so the result is an infinity. -/
theorem powOrdinary_overflow (hx : 0 < fMagnitude x) (h : powOverflows x y = true) :
    powOrdinary x y = infOf (powSign x y) := by
  cases hexact : powExact (powSign x y) x y with
  | some f =>
    obtain ⟨hfin, -, hval⟩ := powExact_value hx hexact
    have hlog := (pow_range y hx).1 h
    have hlt := finite_value_lt hfin
    rw [hval] at hlt
    have hmono := Real.logb_lt_logb (b := 2) (by norm_num) (realPower_log hx).1 hlt
    rw [logb_two_pow, Nat.cast_ofNat] at hmono
    exact absurd hlog hmono.not_ge
  | none => rw [powOrdinary_of_none hexact, powApproximate_overflow h, infOf]

theorem powOrdinary_underflow (hx : 0 < fMagnitude x)
    (h : realPower x y ≤ (1 / 2 : ℝ) ^ 1022 * (1 - 1 / 2 ^ 49)) : fMagnitude (powOrdinary x y) < 2 ^ 52 := by
  cases hexact : powExact (powSign x y) x y with
  | some f =>
    rw [powOrdinary_of_exact hexact]
    obtain ⟨-, -, hval⟩ := powExact_value hx hexact
    rw [← hval, div_le_iff₀ unitsPerOne_pos, unitsPerOne_cast, show (2 : ℝ) ^ 1074 = 2 ^ 1022 * 2 ^ 52 by rw [← pow_add]]
      at h
    have hcancel : (1 / 2 : ℝ) ^ 1022 * 2 ^ 1022 = 1 := by rw [← mul_pow, one_div_mul_cancel two_ne_zero, one_pow]
    generalize (1 / 2 : ℝ) ^ 1022 = p, (2 : ℝ) ^ 1022 = q at h hcancel
    have hlt : (fMagnitude f : ℝ) < 2 ^ 52 := by
      calc (fMagnitude f : ℝ) ≤ p * (1 - 1 / 2 ^ 49) * (q * 2 ^ 52) := h
        _ = (p * q) * ((1 - 1 / 2 ^ 49) * 2 ^ 52) := by ring
        _ < 2 ^ 52 := by rw [hcancel]; norm_num
    exact_mod_cast hlt
  | none =>
    rw [powOrdinary_of_none hexact]
    have hlog := logb_below_underflow (realPower_log hx).1 h
    obtain ⟨hover, -, -, -, hunder, -⟩ := pow_range y hx
    have hnot : ¬ powOverflows x y = true := fun ho => by
      have := hover ho
      norm_num at hlog
      linarith
    exact magnitude_withSign_subnormal (powApproximate_underflow hnot (hunder hlog))

theorem powOrdinary_between (hx : 0 < fMagnitude x) (hlow : (1 / 2 : ℝ) ^ 1022 ≤ realPower x y)
    (hhigh : realPower x y ≤ (2 : ℝ) ^ 1024 * (1 - 1 / 2 ^ 49)) :
    fIsFinite (powOrdinary x y) = true ∧ fIsZero (powOrdinary x y) = false := by
  have hP := (realPower_log (y := y) hx).1
  cases hexact : powExact (powSign x y) x y with
  | some f =>
    obtain ⟨hfin, -, hval⟩ := powExact_value hx hexact
    rw [powOrdinary_of_exact hexact]
    refine ⟨hfin, Bool.eq_false_iff.mpr fun h0 => ?_⟩
    rw [fMagnitude_eq_zero_iff.mpr h0, Nat.cast_zero, zero_div] at hval
    exact hP.ne hval
  | none =>
    rw [powOrdinary_of_none hexact]
    have h₁ := logb_above_underflow hlow
    have h₂ := logb_below_overflow hP hhigh
    have hpos : (0 : ℝ) < 1 / 2 ^ 49 := by positivity
    have hpos' : (0 : ℝ) < 1 / 2 ^ 50 := by positivity
    obtain ⟨hover, hunder, -, -, -, hstays⟩ := pow_range y hx
    have hnotOver : ¬ powOverflows x y = true := fun ho => by linarith [hover ho]
    have hnotUnder : ¬ powUnderflows x y = true := fun hu => by linarith [hunder hu]
    obtain ⟨hlowPos, hlowLt⟩ := powApproximate_between hnotOver hnotUnder (hstays h₂)
    exact ⟨finite_withSign hlowLt, not_zero_withSign hlowLt.le hlowPos⟩

end Ordinary

/-- What the table says of ordinary operands, of which 1 is one with an entry of its own. -/
structure OrdinaryResult (x y r : F64) : Prop where
  not_nan : fIsNaN r = false
  sign : fSign r = true ↔ fSign x = true ∧ IsOdd y
  overflow : (2 : ℝ) ^ 1024 * (1 + 1 / 2 ^ 50) ≤ realPower x y → fIsInf r = true
  underflow : realPower x y ≤ (1 / 2 : ℝ) ^ 1022 * (1 - 1 / 2 ^ 49) → fMagnitude r < 2 ^ 52
  between : (1 / 2 : ℝ) ^ 1022 ≤ realPower x y → realPower x y ≤ (2 : ℝ) ^ 1024 * (1 - 1 / 2 ^ 49) →
    fIsFinite r = true ∧ fIsZero r = false

theorem realPower_one (y : F64) : realPower fOne y = 1 := by
  rw [realPower, abs_realOf, fOne_spec.2.2.2, div_self unitsPerOne_pos.ne', Real.one_rpow]

theorem ordinaryResult_one (y : F64) : OrdinaryResult fOne y fOne := by
  obtain ⟨hsign, hfin, hzero, -⟩ := fOne_spec
  refine ⟨not_nan_of_finite hfin, by simp [hsign], fun h => ?_, fun h => ?_, fun _ _ => ⟨hfin, hzero⟩⟩
  · have := logb_above_overflow h
    rw [realPower_one, Real.logb_one] at this
    norm_num at this
  · have := logb_below_underflow (by rw [realPower_one]; exact one_pos) h
    rw [realPower_one, Real.logb_one] at this
    norm_num at this

theorem ordinaryResult_powOrdinary {x : F64} (y : F64) (hx : 0 < fMagnitude x) :
    OrdinaryResult x y (powOrdinary x y) := by
  obtain ⟨hnan, hsign⟩ := powOrdinary_sign (y := y) hx
  refine ⟨hnan, by rw [hsign, powSign_iff], fun h => ?_, powOrdinary_underflow hx, powOrdinary_between hx⟩
  obtain ⟨-, -, -, hover, -, -⟩ := pow_range y hx
  rw [powOrdinary_overflow hx (hover (logb_above_overflow h))]
  exact fIsInf_infOf _

/-- The last row of the table. -/
theorem fpow_ordinaryResult {x y : F64} (hx : fIsFinite x = true) (hx0 : fIsZero x = false) (hy : fIsFinite y = true)
    (hy0 : fIsZero y = false) (hint : fSign x = true → Machine.IsIntegral y) :
    ∃ r, fpow x y = .num r ∧ OrdinaryResult x y r := by
  by_cases hx1 : x = fOne
  · subst hx1
    exact ⟨fOne, fpow_one_base, ordinaryResult_one y⟩
  · exact ⟨_, fpow_ordinary hx hx0 hx1 hy hy0 hint, ordinaryResult_powOrdinary y (fMagnitude_pos hx0)⟩

/-- Settles O59: `fpow_ordinaryResult`, by the tests of the range and the exact powers. -/
theorem powOverflowsAndUnderflows : Obligations.PowOverflowsAndUnderflows := by
  intro s dst a b x y hd ha hb hx hy fx hx0 fy hy0 hint
  have hpow : Computes (.pow dst a b) fpow dst x y s := computes_of_regs rfl hd ha hb hx hy
  obtain ⟨r, hr, hres⟩ := fpow_ordinaryResult fx hx0 fy hy0 hint
  exact ⟨r, writesValue_of_num hpow hr, hres.not_nan, hres.sign, hres.overflow, hres.underflow, hres.between⟩

/-! A base of at least 2 and an exponent of at least 1024 -/

theorem logLow_of_two_le {x : F64} (h : 2 * unitsPerOne ≤ fMagnitude x) : 2 ^ 128 ≤ logLow x := by
  have hpow : 2 ^ 1075 ≤ fMagnitude x := by
    rwa [show (1075 : Nat) = 1074 + 1 from rfl, pow_succ', ← unitsPerOne]
  have hlog : 1075 ≤ (fMagnitude x).log2 := (Nat.le_log2 (Nat.two_pow_pos 1075 |>.trans_le hpow).ne').mpr hpow
  unfold logLow
  dsimp only
  generalize logDigits 128 _ = digits
  omega

theorem powOverflows_of_large {x y : F64} (hx : 2 * unitsPerOne ≤ fMagnitude x) (hy : 1024 * unitsPerOne ≤ fMagnitude y)
    (hsign : fSign y = false) : powOverflows x y = true := by
  have hlog := logLow_of_two_le hx
  have hy' : (1024 * unitsPerOne : Int) ≤ fMagnitude y := by exact_mod_cast hy
  have hu : (0 : Int) ≤ unitsPerOne := Int.natCast_nonneg _
  refine decide_eq_true ?_
  simp only [powLimit, powLogLow, fUnits, hsign, Bool.false_eq_true, if_false]
  generalize (unitsPerOne : Int) = u at *
  calc (1024 * 2 ^ 128 - (0 : Nat)) * u = 1024 * u * 2 ^ 128 := by push_cast; ring
    _ ≤ fMagnitude y * logLow x := mul_le_mul hy' hlog (by positivity) (Int.natCast_nonneg _)

/-- Settles O33: row by row. -/
theorem powFollowsTheSpecialCases : Obligations.PowFollowsTheSpecialCases := by
  intro s dst a b x y hd ha hb hx hy gives
  have hpow : Computes (.pow dst a b) fpow dst x y s := computes_of_regs rfl hd ha hb hx hy
  have hgives {r : F64} (h : fpow x y = .num r) : gives r := writesValue_of_num hpow h
  refine ⟨fun hy0 => hgives (fpow_zero_exponent hy0), fun hx1 => hgives (hx1 ▸ fpow_one_base),
    fun hnan hy0 hx1 => writesNaN_of_nan hpow (fpow_nan hnan hy0 hx1),
    fun iy hxn => ⟨fun hxm => hgives (hxm ▸ fpow_minusOne_inf iy), fun fx hlt => ?_, fun hlarge => ?_⟩,
    fun fy hy0 => ⟨?_, ?_, fun hx0 => ?_, fun fx hx0 hneg hint => ?_, fun fx hx0 hint => ⟨?_, fun h2 h1024 hpos => ?_⟩⟩⟩
  · have hrow := hgives (fpow_inf_exponent_small fx hlt iy)
    exact ⟨by rintro rfl; simpa using hrow, by rintro rfl; simpa using hrow⟩
  · have hrow := hgives (fpow_inf_exponent_large hxn hlarge iy)
    exact ⟨by rintro rfl; simpa using hrow, by rintro rfl; simpa using hrow⟩
  · rintro rfl
    have hrow := hgives (fpow_inf_base (fIsInf_infOf _) fy hy0)
    simp only [powSign, fSign_infOf, Bool.false_and] at hrow
    exact ⟨fun hs => by simpa [hs] using hrow, fun hs => by simpa [hs] using hrow⟩
  · rintro rfl
    have hrow := hgives (fpow_inf_base (fIsInf_infOf _) fy hy0)
    refine ⟨fun hodd => ?_, fun hodd => ?_⟩
    · rw [powSign_of_odd hodd, fSign_infOf] at hrow
      exact ⟨fun hs => by simpa [hs] using hrow, fun hs => by simpa [hs] using hrow⟩
    · rw [powSign_of_not_odd hodd] at hrow
      exact ⟨fun hs => by simpa [hs] using hrow, fun hs => by simpa [hs] using hrow⟩
  · have hrow := hgives (fpow_zero_base hx0 fy hy0)
    refine ⟨fun hodd => ?_, fun hodd => ?_⟩
    · rw [powSign_of_odd hodd] at hrow
      exact ⟨fun hs => by simpa [hs] using hrow, fun hs => by simpa [hs] using hrow⟩
    · rw [powSign_of_not_odd hodd] at hrow
      exact ⟨fun hs => by simpa [hs] using hrow, fun hs => by simpa [hs] using hrow⟩
  · exact writesNaN_of_nan hpow (fpow_fraction fx hx0 fy hy0 hneg hint)
  · obtain ⟨r, hr, hres⟩ := fpow_ordinaryResult fx hx0 fy hy0 hint
    exact ⟨r, hgives hr, hres.not_nan, hres.sign⟩
  · have hx1 : x ≠ fOne := (ne_one_of_magnitude (by have := unitsPerOne_pos_nat; omega)).1
    refine ⟨powSign x y, hgives ?_, powSign_iff⟩
    rw [fpow_ordinary fx hx0 hx1 fy hy0 hint,
      powOrdinary_overflow (fMagnitude_pos hx0) (powOverflows_of_large h2 h1024 hpos)]

end Sys2Proof.Proofs
end

section
/-! PROOFS of 41_arithmetic.md R101: the assumptions P1 and P2 of `POW` (log entry 4). -/

namespace Sys2Proof.Proofs

open Sys2Proof.Machine

/-! Odd parts -/

/-- An odd part and an exponent of two are determined by their product. -/
theorem odd_mul_two_pow_inj {c d i j : Nat} (hc : c % 2 = 1) (hd : d % 2 = 1) (h : c * 2 ^ i = d * 2 ^ j) :
    c = d ∧ i = j := by
  have hdvd {a b m n : Nat} (ha : a % 2 = 1) (he : a * 2 ^ m = b * 2 ^ n) : n ≤ m := by
    have hcop : Nat.Coprime (2 ^ n) a := Nat.Coprime.pow_left n (Nat.coprime_two_left.mpr (Nat.odd_iff.mpr ha))
    exact (Nat.pow_dvd_pow_iff_le_right (by norm_num)).mp (hcop.dvd_of_dvd_mul_left (he ▸ Nat.dvd_mul_left _ _))
  obtain rfl : i = j := le_antisymm (hdvd hd h.symm) (hdvd hc h)
  exact ⟨Nat.eq_of_mul_eq_mul_right (by positivity) h, rfl⟩

theorem odd_pow {m : Nat} (h : m % 2 = 1) (k : Nat) : m ^ k % 2 = 1 := Nat.odd_iff.mp ((Nat.odd_iff.mpr h).pow)

/-- The odd part of a count of units that fits 53 bits at some exponent fits them too. -/
theorem oddPart_lt_of_form {c j k i : Nat} (hc : c % 2 = 1) (h : c * 2 ^ j = k * 2 ^ i) (hpos : 0 < c)
    (hk : k < 2 ^ 53) : c < 2 ^ 53 := by
  have hcop : Nat.Coprime c (2 ^ i) := Nat.Coprime.pow_right i (Nat.coprime_two_right.mpr (Nat.odd_iff.mpr hc))
  have hdvd : c ∣ k := hcop.dvd_of_dvd_mul_right (h ▸ Nat.dvd_mul_right _ _)
  have hk0 : 0 < k := Nat.pos_of_ne_zero fun h0 => by
    rw [h0, Nat.zero_mul] at h
    exact absurd h (by positivity)
  exact (Nat.le_of_dvd hk0 hdvd).trans_lt hk

section Exact
variable {x y r : F64} {neg : Bool}

/-- The magnitude of a power that a finite Number has, in the terms of `powExact`. -/
def HasPowerForm (x y r : F64) : Prop :=
  -1074 ≤ powExponent x y ∧ (fSign y = false ∨ (oddPart (fMagnitude x)).1 = 1) ∧
    fMagnitude r = (oddPart (fMagnitude x)).1 ^ (fMagnitude y / unitsPerOne) * 2 ^ (powExponent x y + 1074).toNat

/-- Where the power has that form, `powExact` finds it: its tests are what a finite Number of the form passes. -/
theorem powExact_complete (hx : 0 < fMagnitude x) (hr : fIsFinite r = true) (hsign : fSign r = neg)
    (hint : fIsInteger y = true) (hform : HasPowerForm x y r) : powExact neg x y = some r := by
  obtain ⟨hlow, hcase, hmag⟩ := hform
  have hodd := (oddPart_spec hx).2
  unfold powExact
  dsimp only
  generalize (oddPart (fMagnitude x)).1 = m at *
  generalize fMagnitude y / unitsPerOne = k at *
  generalize powExponent x y = e at *
  have hmk : m ^ k % 2 = 1 := odd_pow hodd k
  have hpos : 0 < m ^ k := Nat.pos_of_ne_zero fun h0 => by simp [h0] at hmk
  have h53 : m ^ k < 2 ^ 53 := by
    obtain ⟨k', j', hform', hk'⟩ := fMagnitude_form r
    exact oddPart_lt_of_form hmk (hmag.symm.trans hform') hpos hk'
  have hlt : m ^ k * 2 ^ (e + 1074).toNat < 2 ^ 2098 := hmag ▸ fMagnitude_lt hr
  have hlog : (m ^ k).log2 + e ≤ 1023 := by
    have hle : 2 ^ ((m ^ k).log2 + (e + 1074).toNat) ≤ m ^ k * 2 ^ (e + 1074).toNat := by
      rw [pow_add]
      exact Nat.mul_le_mul_right _ (Nat.log2_self_le hpos.ne')
    have := (Nat.pow_lt_pow_iff_right (by norm_num)).mp (hle.trans_lt hlt)
    omega
  have hround : roundUnits neg (m ^ k * 2 ^ (e + 1074).toNat) 1 = r := by
    obtain ⟨-, hs, hm⟩ := roundUnits_exact neg h53 hlt hpos
    exact eq_of_sign_magnitude (hs.trans hsign.symm) (hm.trans hmag.symm)
  rw [if_pos hint]
  by_cases hm : m = 1
  · subst hm
    rw [one_pow, Nat.one_mul] at hround
    rw [one_pow, show Nat.log2 1 = 0 by decide] at hlog
    rw [if_pos rfl, if_pos hlow, if_pos (by omega), hround]
  · have hk33 : ¬ 33 < k := fun hk => by
      have h3 : 3 ^ 34 ≤ m ^ k := (Nat.pow_le_pow_left (by omega) 34).trans (Nat.pow_le_pow_right (by omega) hk)
      norm_num at h3 h53
      omega
    have hs : ¬ fSign y = true := by simpa [hm] using hcase
    rw [if_neg hm, if_neg hs, if_neg hk33, if_neg h53.not_ge, if_pos hlow, if_pos hlog, hround]

end Exact

theorem fUnits_neg_iff {f : F64} (h : 0 < fMagnitude f) : fUnits f < 0 ↔ fSign f = true := by
  unfold fUnits
  split
  · next hs => simp [hs, h]
  · next hs => simp [hs]

theorem pow_neg_iff_odd {a : Int} (n : Nat) : a ^ n < 0 ↔ a < 0 ∧ n % 2 = 1 := by
  rcases Nat.even_or_odd n with he | ho
  · simp [he.pow_nonneg a |>.not_gt, Nat.even_iff.mp he]
  · simp [ho.pow_neg_iff, Nat.odd_iff.mp ho]

/-! The equation of P2, taken apart into magnitudes and signs -/

section Power
variable {x y r : F64} {k : Int}

theorem isPower_of_nonneg (hk : 0 ≤ k) (h : IsPower x r k) :
    fUnits r * (unitsPerOne : Int) ^ k.natAbs = fUnits x ^ k.natAbs * unitsPerOne := by
  rw [IsPower, if_pos hk, show k.toNat = k.natAbs by omega] at h
  exact h

theorem isPower_of_neg (hk : k < 0) (h : IsPower x r k) :
    fUnits r * fUnits x ^ k.natAbs = (unitsPerOne : Int) ^ k.natAbs * unitsPerOne := by
  rw [IsPower, if_neg hk.not_ge, show (-k).toNat = k.natAbs by omega] at h
  exact h

/-- The magnitudes of a power with a positive exponent. -/
theorem magnitude_of_nonneg (hk : 0 ≤ k) (h : IsPower x r k) :
    fMagnitude r * unitsPerOne ^ k.natAbs = fMagnitude x ^ k.natAbs * unitsPerOne := by
  have := congrArg Int.natAbs (isPower_of_nonneg hk h)
  generalize unitsPerOne = u at *
  simpa only [Int.natAbs_mul, Int.natAbs_pow, natAbs_fUnits, Int.natAbs_natCast] using this

theorem magnitude_of_neg (hk : k < 0) (h : IsPower x r k) :
    fMagnitude r * fMagnitude x ^ k.natAbs = unitsPerOne ^ k.natAbs * unitsPerOne := by
  have := congrArg Int.natAbs (isPower_of_neg hk h)
  generalize unitsPerOne = u at *
  simpa only [Int.natAbs_mul, Int.natAbs_pow, natAbs_fUnits, Int.natAbs_natCast] using this

/-- Odd parts and exponents of two in a power with a positive exponent. -/
theorem oddParts_of_nonneg {c m j t n w : Nat} (hc : c % 2 = 1) (hm : m % 2 = 1)
    (h : c * 2 ^ j * (2 ^ w) ^ n = (m * 2 ^ t) ^ n * 2 ^ w) : c = m ^ n ∧ j + w * n = t * n + w := by
  refine odd_mul_two_pow_inj hc (odd_pow hm n) ?_
  calc c * 2 ^ (j + w * n) = c * 2 ^ j * (2 ^ w) ^ n := by rw [pow_add, pow_mul, Nat.mul_assoc]
    _ = (m * 2 ^ t) ^ n * 2 ^ w := h
    _ = m ^ n * 2 ^ (t * n + w) := by rw [mul_pow, ← pow_mul, pow_add, Nat.mul_assoc]

theorem oddParts_of_neg {c m j t n w : Nat} (hc : c % 2 = 1) (hm : m % 2 = 1)
    (h : c * 2 ^ j * (m * 2 ^ t) ^ n = (2 ^ w) ^ n * 2 ^ w) : c * m ^ n = 1 ∧ j + t * n = w * n + w := by
  refine odd_mul_two_pow_inj (by rw [Nat.mul_mod, hc, odd_pow hm n]) rfl ?_
  calc c * m ^ n * 2 ^ (j + t * n) = c * 2 ^ j * (m * 2 ^ t) ^ n := by rw [mul_pow, ← pow_mul, pow_add]; ring
    _ = (2 ^ w) ^ n * 2 ^ w := h
    _ = 1 * 2 ^ (w * n + w) := by rw [pow_add, pow_mul, Nat.one_mul]

/-- An integer exponent as a Number. -/
theorem exponent_of_fUnits (hy : fUnits y = k * unitsPerOne) :
    fMagnitude y = k.natAbs * unitsPerOne ∧ fMagnitude y / unitsPerOne = k.natAbs ∧ (k ≠ 0 → (fSign y = true ↔ k < 0)) := by
  have hu := unitsPerOne_pos_nat
  have hmag : fMagnitude y = k.natAbs * unitsPerOne := by
    rw [← natAbs_fUnits, hy, Int.natAbs_mul, Int.natAbs_natCast]
  refine ⟨hmag, by rw [hmag, Nat.mul_div_cancel _ hu], fun hk => ?_⟩
  have hpos : 0 < fMagnitude y := hmag ▸ Nat.mul_pos (Int.natAbs_pos.mpr hk) hu
  have hu' : (0 : Int) < unitsPerOne := by exact_mod_cast hu
  rw [← fUnits_neg_iff hpos, hy]
  exact ⟨fun h => neg_of_mul_neg_left h hu'.le, fun h => mul_neg_of_neg_of_pos h hu'⟩

/-- A power has the form that `powExact` looks for. -/
theorem hasPowerForm_of_isPower (hx : 0 < fMagnitude x) (hr : 0 < fMagnitude r) (hy : fUnits y = k * unitsPerOne)
    (hk : k ≠ 0) (h : IsPower x r k) : HasPowerForm x y r := by
  obtain ⟨-, hn, hsign⟩ := exponent_of_fUnits hy
  obtain ⟨hxm, hm⟩ := oddPart_spec hx
  obtain ⟨hrm, hc⟩ := oddPart_spec hr
  unfold HasPowerForm powExponent
  rw [hn]
  generalize (oddPart (fMagnitude x)).1 = m, (oddPart (fMagnitude x)).2 = t at *
  generalize (oddPart (fMagnitude r)).1 = c, (oddPart (fMagnitude r)).2 = j at *
  have hn0 : k.natAbs ≠ 0 := Int.natAbs_ne_zero.mpr hk
  rcases lt_or_gt_of_ne hk with hneg | hpos
  · have hs : fSign y = true := (hsign hk).mpr hneg
    have hmag := magnitude_of_neg hneg h
    rw [hxm, hrm, unitsPerOne] at hmag
    obtain ⟨hone, hexp⟩ := oddParts_of_neg hc hm hmag
    obtain ⟨rfl, hmn⟩ := mul_eq_one.mp hone
    obtain rfl : m = 1 := by simpa [hn0] using hmn
    have he : -(((t : Int) - 1074) * k.natAbs) + 1074 = j := by
      have : ((j + t * k.natAbs : Nat) : Int) = (1074 * k.natAbs + 1074 : Nat) := congrArg _ hexp
      push_cast at this ⊢
      linarith
    rw [if_pos hs, he]
    exact ⟨by omega, .inr rfl, by simpa using hrm⟩
  · have hs : fSign y = false := by simpa [hpos.not_gt] using hsign hk
    have hmag := magnitude_of_nonneg hpos.le h
    rw [hxm, hrm, unitsPerOne] at hmag
    obtain ⟨rfl, hexp⟩ := oddParts_of_nonneg hc hm hmag
    have he : ((t : Int) - 1074) * k.natAbs + 1074 = j := by
      have : ((j + 1074 * k.natAbs : Nat) : Int) = (t * k.natAbs + 1074 : Nat) := congrArg _ hexp
      push_cast at this ⊢
      linarith
    rw [hs, if_neg Bool.false_ne_true, he]
    exact ⟨by omega, .inl rfl, by simpa using hrm⟩

theorem isOdd_iff (hmag : fMagnitude y = k.natAbs * unitsPerOne) : IsOdd y ↔ k.natAbs % 2 = 1 := by
  have hu := unitsPerOne_pos_nat
  rw [IsOdd, hmag]
  constructor
  · rintro ⟨i, hi⟩
    have := Nat.eq_of_mul_eq_mul_right hu hi
    omega
  · intro hodd
    exact ⟨k.natAbs / 2, by congr 1; omega⟩

/-- A power of a base with that sign is negative where the base is and the exponent is odd. -/
theorem fUnits_power_neg_iff (h : IsPower x r k) : fUnits r < 0 ↔ fUnits x ^ k.natAbs < 0 := by
  have hu : (0 : Int) < unitsPerOne := by exact_mod_cast unitsPerOne_pos_nat
  rcases lt_or_ge k 0 with hneg | hpos
  · refine neg_iff_neg_of_mul_pos ?_
    rw [isPower_of_neg hneg h]
    exact mul_pos (pow_pos hu _) hu
  · have heq := isPower_of_nonneg hpos h
    have hp : (0 : Int) < (unitsPerOne : Int) ^ k.natAbs := pow_pos hu _
    constructor
    · intro hr
      exact neg_of_mul_neg_left (heq ▸ mul_neg_of_neg_of_pos hr hp) hu.le
    · intro hx
      exact neg_of_mul_neg_left (heq.symm ▸ mul_neg_of_neg_of_pos hx hu) hp.le

theorem sign_of_isPower (hx : 0 < fMagnitude x) (hr : 0 < fMagnitude r) (hy : fUnits y = k * unitsPerOne)
    (h : IsPower x r k) : fSign r = powSign x y := by
  rw [Bool.eq_iff_iff, powSign_iff, isOdd_iff (exponent_of_fUnits hy).1, ← fUnits_neg_iff hr, ← fUnits_neg_iff hx,
    fUnits_power_neg_iff h, pow_neg_iff_odd]

/-- A power of a Number that is not zero is not zero. -/
theorem magnitude_pos_of_isPower (hx : 0 < fMagnitude x) (h : IsPower x r k) : 0 < fMagnitude r := by
  have hu := unitsPerOne_pos_nat
  refine Nat.pos_of_ne_zero fun h0 => ?_
  rcases lt_or_ge k 0 with hneg | hpos
  · have := magnitude_of_neg hneg h
    rw [h0, Nat.zero_mul] at this
    exact absurd this (Nat.mul_pos (Nat.pow_pos hu) hu).ne
  · have := magnitude_of_nonneg hpos h
    rw [h0, Nat.zero_mul] at this
    exact absurd this (Nat.mul_pos (Nat.pow_pos hx) hu).ne

/-- The only power of 1 is 1, and the only power with exponent 0. -/
theorem eq_one_of_fUnits (h : fUnits r = unitsPerOne) : r = fOne := by
  obtain ⟨hs, -, -, hm⟩ := fOne_spec
  have hmag : fMagnitude r = unitsPerOne := by rw [← natAbs_fUnits, h, Int.natAbs_natCast]
  have hpos : 0 < fMagnitude r := hmag ▸ unitsPerOne_pos_nat
  refine eq_of_sign_magnitude ?_ (hmag.trans hm.symm)
  rw [hs, ← Bool.not_eq_true, ← fUnits_neg_iff hpos, h]
  exact (Int.natCast_nonneg _).not_gt

theorem eq_one_of_isPower (h : IsPower x r k) (h1 : x = fOne ∨ k = 0) : r = fOne := by
  have hu : (0 : Int) < unitsPerOne := by exact_mod_cast unitsPerOne_pos_nat
  have hone : fUnits fOne = unitsPerOne := by
    obtain ⟨hs, -, -, hm⟩ := fOne_spec
    rw [fUnits, hs, hm, if_neg Bool.false_ne_true]
  refine eq_one_of_fUnits ?_
  rcases h1 with rfl | rfl
  · have hp : (unitsPerOne : Int) ^ k.natAbs ≠ 0 := (pow_pos hu _).ne'
    rcases lt_or_ge k 0 with hneg | hpos
    · have := isPower_of_neg hneg h
      rw [hone, mul_comm] at this
      exact mul_left_cancel₀ hp this
    · have := isPower_of_nonneg hpos h
      rw [hone, mul_comm] at this
      exact mul_left_cancel₀ hp this
  · have heq := isPower_of_nonneg le_rfl h
    rwa [Int.natAbs_zero, pow_zero, pow_zero, mul_one, one_mul] at heq

end Power

/-- P2: a power that is exactly a binary64 is that value. -/
theorem fpow_of_isPower {x y r : F64} {k : Int} (fx : fIsFinite x = true) (hx0 : fIsZero x = false)
    (fy : fIsFinite y = true) (hy : fUnits y = k * unitsPerOne) (fr : fIsFinite r = true) (h : IsPower x r k) :
    fpow x y = .num r := by
  have hx := fMagnitude_pos hx0
  have hr := magnitude_pos_of_isPower hx h
  obtain ⟨hmag, -, -⟩ := exponent_of_fUnits hy
  by_cases hk : k = 0
  · have hy0 : fIsZero y = true := fMagnitude_eq_zero_iff.mp (by rw [hmag, hk, Int.natAbs_zero, Nat.zero_mul])
    rw [fpow_zero_exponent hy0, eq_one_of_isPower h (.inr hk)]
  · by_cases hx1 : x = fOne
    · rw [eq_one_of_isPower h (.inl hx1), hx1, fpow_one_base]
    · have hy0 : fIsZero y = false := Bool.eq_false_iff.mpr fun h0 => by
        have := fMagnitude_eq_zero_iff.mpr h0
        rw [hmag] at this
        exact absurd this (Nat.mul_pos (Int.natAbs_pos.mpr hk) unitsPerOne_pos_nat).ne'
      have hint : Machine.IsIntegral y := ⟨k.natAbs, by rw [hmag, Nat.mul_comm]⟩
      rw [fpow_ordinary fx hx0 hx1 fy hy0 fun _ => hint,
        powOrdinary_of_exact (powExact_complete hx fr (sign_of_isPower hx hr hy h) (fIsInteger_iff.mpr hint)
          (hasPowerForm_of_isPower hx hr hy hk h))]

/-- P1: the first power is the base itself. -/
theorem fpow_one_exponent {x : F64} (hx : fIsNaN x = false) : fpow x fOne = .num x := by
  obtain ⟨hs, hfin, hzero, hmag⟩ := fOne_spec
  have hodd : IsOdd fOne := ⟨0, by rw [hmag]; ring⟩
  by_cases hinf : fIsInf x = true
  · rw [fpow_inf_base hinf hfin hzero, hs, powSign_of_odd hodd, if_neg Bool.false_ne_true, ← fIsInf_iff_eq.mp hinf]
  · have fx : fIsFinite x = true := fIsFinite_iff.mpr ⟨hx, by simpa using hinf⟩
    by_cases hx0 : fIsZero x = true
    · have hxz : zeroOf (fSign x) = x :=
        eq_of_sign_magnitude (fSign_zeroOf _) ((zeroOf_spec _).2.trans (fMagnitude_eq_zero_iff.mpr hx0).symm)
      rw [fpow_zero_base hx0 hfin hzero, hs, powSign_of_odd hodd, if_neg Bool.false_ne_true, hxz]
    · refine fpow_of_isPower (k := 1) fx (by simpa using hx0) hfin ?_ fx ?_
      · rw [fUnits, hs, if_neg Bool.false_ne_true, hmag, one_mul]
      · rw [IsPower, if_pos Int.one_nonneg, Int.toNat_one, pow_one, pow_one]

/-- Settles O34: P1 and P2. -/
theorem powIsExactWhereRepresentable : Obligations.PowIsExactWhereRepresentable := by
  intro s dst a b x y hd ha hb hx hy
  have hpow : Computes (.pow dst a b) fpow dst x y s := computes_of_regs rfl hd ha hb hx hy
  refine ⟨fun hxn hy1 => writesValue_of_num hpow (hy1 ▸ fpow_one_exponent hxn),
    fun k r fx hx0 fy hk fr h => writesValue_of_num hpow (fpow_of_isPower fx hx0 fy hk fr h)⟩

end Sys2Proof.Proofs
end
